-- ==== Sys2Proof/Word.lean ====
section
/-! DEFINITION. The word types of the block (00_scope.md R8: every value is unsigned, a 32-bit word has
bits 31 down to 0). -/

namespace Sys2Proof

/-- A 32-bit word: a port datum, a CAM address word, a command word, a configuration dword. -/
abbrev Word := BitVec 32

/-- A 16-bit halfword. -/
abbrev Half := BitVec 16

/-- A byte. -/
abbrev Byte := BitVec 8

/-- A micro-operation key: code (7 bits) above offset (8 bits) (30_encoding.md R95). -/
abbrev Key := BitVec 15

/-- A function address: bus (8 bits), device (5 bits), function (3 bits), the layout of SCAN and TGT
(10_state.md R25, R29). -/
abbrev FnAddr := BitVec 16

/-- A byte address of configuration space: bus, device, function, register (20_memory.md R61). -/
abbrev CfgAddr := BitVec 24

end Sys2Proof
end

