-- ==== Sys2Proof/Config.lean ====
section
/-! DEFINITION. What an implementation fixes (the parameters of 00_scope.md R6 and R7) and the free
values: constants without a body, so that nothing can be proved about what they are. -/

namespace Sys2Proof

/-- A change of one byte of configuration space, made by a device or by the environment's answer to a
write: the byte at that address becomes known and holds the value given, or (`none`) is no longer known. -/
abbrev Change := CfgAddr × Option Byte

/-- The parameters the platform fixes (00_scope.md R6; 92_eei_decisions.md D1, D2). A machine carries its own in
`State.cam`, so what is stated about every state is stated for every value of them (log 10). DESIGN CHOICE (log 10):
a port number is 16 bits wide; the spec gives no width (20_memory.md R60: "the platform's port number"). -/
structure CamParams where
  /-- `CAM_ADDR_PORT`. -/
  addrPort : BitVec 16
  /-- `CAM_DATA_PORT`; distinct from `CAM_ADDR_PORT`. -/
  dataPort : BitVec 16
  /-- `CAM_ENABLE` is the single bit 24 + `enableAt`: R6 asks for a single bit disjoint from bits 23:0. -/
  enableAt : Fin 8
  deriving DecidableEq, Repr

/-- The defaults of 00_scope.md R6: ports 0x0CF8 and 0x0CFC, enable bit 31. PRESUMED: general knowledge G1 and G2
of the spec (log 10). -/
def Config.cam : CamParams where
  addrPort := 0x0CF8#16
  dataPort := 0x0CFC#16
  enableAt := 7

/-- `N_CALLERS` at reset (00_scope.md R7: at least 1, OPEN). DESIGN CHOICE (log 11); a state's own
number of callers is the length of its `callers`. -/
def Config.nCallers : Nat := 1

/-- FREE VALUE: the byte a read draws where the environment lists no value (20_memory.md R74, 93 U1
"a draw per read", U13). The first argument is the draw counter (log 1). -/
opaque Config.freeByte : Nat → CfgAddr → Byte

/-- FREE VALUE: how the environment's registers change when a dword is written and no reaction is
scheduled (20_memory.md R75 "an oracle with no obligation"). The arguments are the draw counter, the
dword's address (bits 23:2 of the byte address) and the value written (log 3). -/
opaque Config.freeReaction : Nat → BitVec 22 → Word → List Change

/-- FREE VALUE: which of several ready agents moves (20_memory.md R79, OPEN). The argument is the draw
counter (log 9). -/
opaque Config.freeGrant : Nat → Nat

/-- FREE VALUE: the unspecified contents of a `RAW` latch after a reset of a running block
(70_reset_and_hazards.md R230, 93 U15; log 19). -/
opaque Config.freeLatch : Nat → Fin 16 → Word

/-- FREE VALUE: the unspecified contents of `TGT` after a reset of a running block
(70_reset_and_hazards.md R230, 93 U15; log 19). -/
opaque Config.freeTgt : Nat → FnAddr

end Sys2Proof
end

