-- ==== Sys2Proof/Syntax.lean ====
section
/-! DEFINITION. The instructions: the 4 commands and the 39 micro-operations of spec/opcode_table.json
(30_encoding.md R101), one constructor each. Every operand has exactly the width of its field, so there
is no out-of-range operand (R99). A micro-operation has no operand (41_decoder.md R142): its function is
`TGT`, its offset and latch are its own. -/

namespace Sys2Proof

inductive Instr where
  /-- `CFGRD b:d.f, reg` (40_accessor.md R124). -/
  | cfgrd (bus : BitVec 8) (dev : BitVec 5) (fn : BitVec 3) (reg : BitVec 8)
  /-- `CFGWR b:d.f, reg, value` (40_accessor.md R125). -/
  | cfgwr (bus : BitVec 8) (dev : BitVec 5) (fn : BitVec 3) (reg : BitVec 8) (value : Word)
  /-- `DECODE b:d.f` (41_decoder.md R141). -/
  | decode (bus : BitVec 8) (dev : BitVec 5) (fn : BitVec 3)
  /-- `ENUM` (42_enumerator.md R191). -/
  | enum
  /-- `LD_ID` (R143): common header, offset 0x00, latch 0. -/
  | ldId
  /-- `LD_CMDSTS` (R144): common header, offset 0x04, latch 1. -/
  | ldCmdsts
  /-- `LD_CLASS` (R145): common header, offset 0x08, latch 2. -/
  | ldClass
  /-- `LD_HDR` (R146): common header, offset 0x0C, latch 3. -/
  | ldHdr
  /-- `LD_S_BAR0` (R147): Standard header, offset 0x10, latch 4. -/
  | ldSBar0
  /-- `LD_S_BAR1` (R148): Standard header, offset 0x14, latch 5. -/
  | ldSBar1
  /-- `LD_S_BAR2` (R149): Standard header, offset 0x18, latch 6. -/
  | ldSBar2
  /-- `LD_S_BAR3` (R150): Standard header, offset 0x1C, latch 7. -/
  | ldSBar3
  /-- `LD_S_BAR4` (R151): Standard header, offset 0x20, latch 8. -/
  | ldSBar4
  /-- `LD_S_BAR5` (R152): Standard header, offset 0x24, latch 9. -/
  | ldSBar5
  /-- `LD_S_CIS` (R153): Standard header, offset 0x28, latch 10. -/
  | ldSCis
  /-- `LD_S_SUBSYS` (R154): Standard header, offset 0x2C, latch 11. -/
  | ldSSubsys
  /-- `LD_S_ROM` (R155): Standard header, offset 0x30, latch 12. -/
  | ldSRom
  /-- `LD_S_CAP` (R156): Standard header, offset 0x34, latch 13. -/
  | ldSCap
  /-- `LD_S_INT` (R157): Standard header, offset 0x3C, latch 15. -/
  | ldSInt
  /-- `LD_B_BAR0` (R158): PciBridge header, offset 0x10, latch 4. -/
  | ldBBar0
  /-- `LD_B_BAR1` (R159): PciBridge header, offset 0x14, latch 5. -/
  | ldBBar1
  /-- `LD_B_BUS` (R160): PciBridge header, offset 0x18, latch 6. -/
  | ldBBus
  /-- `LD_B_IO` (R161): PciBridge header, offset 0x1C, latch 7. -/
  | ldBIo
  /-- `LD_B_MEM` (R162): PciBridge header, offset 0x20, latch 8. -/
  | ldBMem
  /-- `LD_B_PMEM` (R163): PciBridge header, offset 0x24, latch 9. -/
  | ldBPmem
  /-- `LD_B_PBASEU` (R164): PciBridge header, offset 0x28, latch 10. -/
  | ldBPbaseu
  /-- `LD_B_PLIMU` (R165): PciBridge header, offset 0x2C, latch 11. -/
  | ldBPlimu
  /-- `LD_B_IOU` (R166): PciBridge header, offset 0x30, latch 12. -/
  | ldBIou
  /-- `LD_B_CAP` (R167): PciBridge header, offset 0x34, latch 13. -/
  | ldBCap
  /-- `LD_B_ROM` (R168): PciBridge header, offset 0x38, latch 14. -/
  | ldBRom
  /-- `LD_B_INT` (R169): PciBridge header, offset 0x3C, latch 15. -/
  | ldBInt
  /-- `LD_C_RAW0` (R170): CardBus header, offset 0x10, latch 4. -/
  | ldCRaw0
  /-- `LD_C_RAW1` (R171): CardBus header, offset 0x14, latch 5. -/
  | ldCRaw1
  /-- `LD_C_RAW2` (R172): CardBus header, offset 0x18, latch 6. -/
  | ldCRaw2
  /-- `LD_C_RAW3` (R173): CardBus header, offset 0x1C, latch 7. -/
  | ldCRaw3
  /-- `LD_C_RAW4` (R174): CardBus header, offset 0x20, latch 8. -/
  | ldCRaw4
  /-- `LD_C_RAW5` (R175): CardBus header, offset 0x24, latch 9. -/
  | ldCRaw5
  /-- `LD_C_RAW6` (R176): CardBus header, offset 0x28, latch 10. -/
  | ldCRaw6
  /-- `LD_C_RAW7` (R177): CardBus header, offset 0x2C, latch 11. -/
  | ldCRaw7
  /-- `LD_C_RAW8` (R178): CardBus header, offset 0x30, latch 12. -/
  | ldCRaw8
  /-- `LD_C_RAW9` (R179): CardBus header, offset 0x34, latch 13. -/
  | ldCRaw9
  /-- `LD_C_RAW10` (R180): CardBus header, offset 0x38, latch 14. -/
  | ldCRaw10
  /-- `LD_C_RAW11` (R181): CardBus header, offset 0x3C, latch 15. -/
  | ldCRaw11
  deriving DecidableEq, Repr

end Sys2Proof
end

