-- ==== Sys2Proof/Decode.lean ====
section
/-! DEFINITION. Decoding: the command word (30_encoding.md R93, R94, R104) and the micro-operation key
(R95, R101), total, rejecting by name; then the encoder, written from the same encoding tables; then the
host's numbering of a row's bits. -/

namespace Sys2Proof

/-- Why a word or a key is no instruction. -/
inductive Reject where
  /-- No word is presented on CMD. -/
  | noCommand
  /-- A `CFGWR` word whose value word is not presented yet (30_encoding.md R93). -/
  | missingValue
  /-- Bits 31:26 are not 0 (30_encoding.md R104). -/
  | reservedBits (w : Word)
  /-- A `DECODE` word with `reg` not 0 (30_encoding.md R104). -/
  | decodeWithReg (w : Word)
  /-- An `ENUM` word with any of bits 23:0 set (30_encoding.md R104). -/
  | enumWithOperand (w : Word)
  /-- Words follow a complete command where one command alone was expected. -/
  | trailingWords
  /-- A (code, offset) pair with no row (30_encoding.md R101). -/
  | noRow (k : Key)
  deriving DecidableEq, Repr

/-- Format CMD, field `bus` (30_encoding.md R93). -/
def cmdBus (w : Word) : BitVec 8 := w.extractLsb' 16 8
/-- Format CMD, field `dev` (30_encoding.md R93). -/
def cmdDev (w : Word) : BitVec 5 := w.extractLsb' 11 5
/-- Format CMD, field `fn` (30_encoding.md R93). -/
def cmdFn (w : Word) : BitVec 3 := w.extractLsb' 8 3
/-- Format CMD, field `reg` (30_encoding.md R93). -/
def cmdReg (w : Word) : BitVec 8 := w.extractLsb' 0 8

/-- Reads one command from the words presented on CMD, by the match and mask of 30_encoding.md R94, and
gives the words after it. -/
def decodeCmd : List Word → Except Reject (Instr × List Word)
  | [] => .error .noCommand
  | w :: rest =>
    if w &&& 0xFF000000#32 = 0x00000000#32 then
      .ok (.cfgrd (cmdBus w) (cmdDev w) (cmdFn w) (cmdReg w), rest)
    else if w &&& 0xFF000000#32 = 0x01000000#32 then
      match rest with
      | [] => .error .missingValue
      | v :: rest' => .ok (.cfgwr (cmdBus w) (cmdDev w) (cmdFn w) (cmdReg w) v, rest')
    else if w &&& 0xFF0000FF#32 = 0x02000000#32 then
      .ok (.decode (cmdBus w) (cmdDev w) (cmdFn w), rest)
    else if w &&& 0xFFFFFFFF#32 = 0x03000000#32 then
      .ok (.enum, rest)
    else if w &&& 0xFF000000#32 = 0x02000000#32 then .error (.decodeWithReg w)
    else if w &&& 0xFF000000#32 = 0x03000000#32 then .error (.enumWithOperand w)
    else .error (.reservedBits w)

/-- One row of the micro-operation table: a key belongs to it when its bits under `mask` are `pattern`. -/
structure KeyRow where
  pattern : Key
  mask : Key
  op : Instr
  deriving DecidableEq, Repr

/-- The common rows (R143 to R146). -/
def keyRowsCommon : List KeyRow :=
  [⟨0x0000#15, 0x00FF#15, .ldId⟩,
   ⟨0x0004#15, 0x00FF#15, .ldCmdsts⟩,
   ⟨0x0008#15, 0x00FF#15, .ldClass⟩,
   ⟨0x000C#15, 0x00FF#15, .ldHdr⟩]

/-- The Standard rows (R147 to R157). -/
def keyRowsStandard : List KeyRow :=
  [⟨0x0010#15, 0x7FFF#15, .ldSBar0⟩,
   ⟨0x0014#15, 0x7FFF#15, .ldSBar1⟩,
   ⟨0x0018#15, 0x7FFF#15, .ldSBar2⟩,
   ⟨0x001C#15, 0x7FFF#15, .ldSBar3⟩,
   ⟨0x0020#15, 0x7FFF#15, .ldSBar4⟩,
   ⟨0x0024#15, 0x7FFF#15, .ldSBar5⟩,
   ⟨0x0028#15, 0x7FFF#15, .ldSCis⟩,
   ⟨0x002C#15, 0x7FFF#15, .ldSSubsys⟩,
   ⟨0x0030#15, 0x7FFF#15, .ldSRom⟩,
   ⟨0x0034#15, 0x7FFF#15, .ldSCap⟩,
   ⟨0x003C#15, 0x7FFF#15, .ldSInt⟩]

/-- The PciBridge rows (R158 to R169). -/
def keyRowsPciBridge : List KeyRow :=
  [⟨0x0110#15, 0x7FFF#15, .ldBBar0⟩,
   ⟨0x0114#15, 0x7FFF#15, .ldBBar1⟩,
   ⟨0x0118#15, 0x7FFF#15, .ldBBus⟩,
   ⟨0x011C#15, 0x7FFF#15, .ldBIo⟩,
   ⟨0x0120#15, 0x7FFF#15, .ldBMem⟩,
   ⟨0x0124#15, 0x7FFF#15, .ldBPmem⟩,
   ⟨0x0128#15, 0x7FFF#15, .ldBPbaseu⟩,
   ⟨0x012C#15, 0x7FFF#15, .ldBPlimu⟩,
   ⟨0x0130#15, 0x7FFF#15, .ldBIou⟩,
   ⟨0x0134#15, 0x7FFF#15, .ldBCap⟩,
   ⟨0x0138#15, 0x7FFF#15, .ldBRom⟩,
   ⟨0x013C#15, 0x7FFF#15, .ldBInt⟩]

/-- The CardBus rows (R170 to R181). -/
def keyRowsCardBus : List KeyRow :=
  [⟨0x0210#15, 0x7FFF#15, .ldCRaw0⟩,
   ⟨0x0214#15, 0x7FFF#15, .ldCRaw1⟩,
   ⟨0x0218#15, 0x7FFF#15, .ldCRaw2⟩,
   ⟨0x021C#15, 0x7FFF#15, .ldCRaw3⟩,
   ⟨0x0220#15, 0x7FFF#15, .ldCRaw4⟩,
   ⟨0x0224#15, 0x7FFF#15, .ldCRaw5⟩,
   ⟨0x0228#15, 0x7FFF#15, .ldCRaw6⟩,
   ⟨0x022C#15, 0x7FFF#15, .ldCRaw7⟩,
   ⟨0x0230#15, 0x7FFF#15, .ldCRaw8⟩,
   ⟨0x0234#15, 0x7FFF#15, .ldCRaw9⟩,
   ⟨0x0238#15, 0x7FFF#15, .ldCRaw10⟩,
   ⟨0x023C#15, 0x7FFF#15, .ldCRaw11⟩]

/-- The 39 micro-operations (30_encoding.md R101). -/
def keyTable : List KeyRow :=
  keyRowsCommon ++ keyRowsStandard ++ keyRowsPciBridge ++ keyRowsCardBus

/-- Looks a key up "by match and mask" (30_encoding.md R95). -/
def decodeKey (k : Key) : Except Reject Instr :=
  match keyTable.find? (fun r => k &&& r.mask == r.pattern) with
  | some r => .ok r.op
  | none => .error (.noRow k)

/-- What an instruction is encoded as: words on CMD, or a key. -/
inductive Encoded where
  | cmd (words : List Word)
  | key (k : Key)
  deriving DecidableEq, Repr

/-- Decodes one whole encoded instruction. -/
def decode : Encoded → Except Reject Instr
  | .cmd ws =>
    match decodeCmd ws with
    | .ok (i, []) => .ok i
    | .ok (_, _ :: _) => .error .trailingWords
    | .error r => .error r
  | .key k => decodeKey k

/-- Format CMD, high bit first: 6 zero bits, `op`, `bus`, `dev`, `fn`, `reg` (30_encoding.md R93). -/
def cmdWord (op : BitVec 2) (bus : BitVec 8) (dev : BitVec 5) (fn : BitVec 3) (reg : BitVec 8) : Word :=
  0#6 ++ op ++ bus ++ dev ++ fn ++ reg

/-- Format KEY, high bit first: `code`, `offset` (30_encoding.md R95). -/
def keyOf (code : BitVec 7) (offset : BitVec 8) : Key := code ++ offset

/-- The words or the key of an instruction (30_encoding.md R93 to R95, R101). A common load's code field is
ignored by the table; it is encoded as 0. -/
def encode : Instr → Encoded
  | .cfgrd b d f r => .cmd [cmdWord 0 b d f r]
  | .cfgwr b d f r v => .cmd [cmdWord 1 b d f r, v]
  | .decode b d f => .cmd [cmdWord 2 b d f 0]
  | .enum => .cmd [cmdWord 3 0 0 0 0]
  | .ldId => .key (keyOf 0 0x00)
  | .ldCmdsts => .key (keyOf 0 0x04)
  | .ldClass => .key (keyOf 0 0x08)
  | .ldHdr => .key (keyOf 0 0x0C)
  | .ldSBar0 => .key (keyOf 0 0x10)
  | .ldSBar1 => .key (keyOf 0 0x14)
  | .ldSBar2 => .key (keyOf 0 0x18)
  | .ldSBar3 => .key (keyOf 0 0x1C)
  | .ldSBar4 => .key (keyOf 0 0x20)
  | .ldSBar5 => .key (keyOf 0 0x24)
  | .ldSCis => .key (keyOf 0 0x28)
  | .ldSSubsys => .key (keyOf 0 0x2C)
  | .ldSRom => .key (keyOf 0 0x30)
  | .ldSCap => .key (keyOf 0 0x34)
  | .ldSInt => .key (keyOf 0 0x3C)
  | .ldBBar0 => .key (keyOf 1 0x10)
  | .ldBBar1 => .key (keyOf 1 0x14)
  | .ldBBus => .key (keyOf 1 0x18)
  | .ldBIo => .key (keyOf 1 0x1C)
  | .ldBMem => .key (keyOf 1 0x20)
  | .ldBPmem => .key (keyOf 1 0x24)
  | .ldBPbaseu => .key (keyOf 1 0x28)
  | .ldBPlimu => .key (keyOf 1 0x2C)
  | .ldBIou => .key (keyOf 1 0x30)
  | .ldBCap => .key (keyOf 1 0x34)
  | .ldBRom => .key (keyOf 1 0x38)
  | .ldBInt => .key (keyOf 1 0x3C)
  | .ldCRaw0 => .key (keyOf 2 0x10)
  | .ldCRaw1 => .key (keyOf 2 0x14)
  | .ldCRaw2 => .key (keyOf 2 0x18)
  | .ldCRaw3 => .key (keyOf 2 0x1C)
  | .ldCRaw4 => .key (keyOf 2 0x20)
  | .ldCRaw5 => .key (keyOf 2 0x24)
  | .ldCRaw6 => .key (keyOf 2 0x28)
  | .ldCRaw7 => .key (keyOf 2 0x2C)
  | .ldCRaw8 => .key (keyOf 2 0x30)
  | .ldCRaw9 => .key (keyOf 2 0x34)
  | .ldCRaw10 => .key (keyOf 2 0x38)
  | .ldCRaw11 => .key (keyOf 2 0x3C)

/-- The words of a command whose bits the host numbers from the first word's bit 0: a `CFGWR` has a second
word (30_encoding.md R93), every other command one. -/
def tableWords (w : Nat) : List Word :=
  let first := BitVec.ofNat 32 w
  if first &&& 0xFF000000#32 = 0x01000000#32 then [first, BitVec.ofNat 32 (w / 2 ^ 32)] else [first]

/-- What a row's bits stand for: a row of at most 16 bits is a key (15 bits), any other a command. -/
def tableEncoded (nbits w : Nat) : Option Encoded :=
  if nbits ≤ 16 then if w < 2 ^ 15 then some (.key (BitVec.ofNat 15 w)) else none
  else some (.cmd (tableWords w))

/-- The instruction the decoder reads from a row's bits. -/
def decodeTableWord (nbits w : Nat) : Option Instr :=
  match tableEncoded nbits w with
  | none => none
  | some e =>
    match decode e with
    | .ok i => some i
    | .error _ => none

end Sys2Proof
end

