-- ==== Sys2Proof/Machine/State.lean ====
section
/-! DEFINITION. The state of the machine as plain data: the block's own state (10_state.md R20), the
environment behind the two ports (R31 to R33, 20_memory.md R73), the inputs that are still to come, and what
has passed on the output interfaces (R57, R58); the records the block produces (R56); the reasons a step
can stop; the state after reset. -/

namespace Sys2Proof.Machine

/-- `SEQ` (10_state.md R22). -/
inductive Seq where
  | idle
  | decoding
  | enumerating
  deriving DecidableEq, Repr

/-- FunctionHeaderCommon (10_state.md R56): the twelve fields every present function has. -/
structure Header where
  vendorId : BitVec 16
  deviceId : BitVec 16
  command : BitVec 16
  status : BitVec 16
  revisionId : BitVec 8
  progIf : BitVec 8
  subclass : BitVec 8
  classCode : BitVec 8
  bist : BitVec 8
  /-- The 7-bit layout code; bit 7 of the register byte is the record's own `multifunction`. -/
  headerType : BitVec 7
  latencyTimer : BitVec 8
  cacheLineSize : BitVec 8
  deriving DecidableEq, Repr

/-- The fields of a Standard header, code 0x00 (10_state.md R56, R38 to R44). -/
structure StandardFields where
  bar : Vector Word 6
  cardbusCisPtr : Word
  subsystemVendorId : BitVec 16
  subsystemId : BitVec 16
  expansionRomBase : Word
  capabilityPtr : BitVec 8
  maxLatency : BitVec 8
  minGrant : BitVec 8
  interruptPin : BitVec 8
  interruptLine : BitVec 8
  deriving DecidableEq, Repr

/-- The fields of a PciBridge header, code 0x01 (10_state.md R56, R45 to R54). -/
structure BridgeFields where
  bar : Vector Word 2
  primaryBus : BitVec 8
  secondaryBus : BitVec 8
  subordinateBus : BitVec 8
  secondaryLatencyTimer : BitVec 8
  ioBase : BitVec 8
  ioLimit : BitVec 8
  ioBaseUpper16 : BitVec 16
  ioLimitUpper16 : BitVec 16
  memoryBase : BitVec 16
  memoryLimit : BitVec 16
  prefetchBase : BitVec 16
  prefetchLimit : BitVec 16
  prefetchBaseUpper32 : Word
  prefetchLimitUpper32 : Word
  capabilityPtr : BitVec 8
  expansionRomBase : Word
  bridgeControl : BitVec 16
  interruptPin : BitVec 8
  interruptLine : BitVec 8
  deriving DecidableEq, Repr

/-- HeaderVariant (10_state.md R56): a sum type, so a field of one variant does not exist in another. -/
inductive Variant where
  | standard (f : StandardFields)
  | pciBridge (f : BridgeFields)
  /-- Twelve opaque dwords (10_state.md R55). -/
  | cardBus (raw : Vector Word 12)
  /-- Codes 0x03 to 0x7F; the raw common fields are the record's header. -/
  | unknown (code : BitVec 7)
  deriving DecidableEq, Repr

/-- DiscoveredDevice (10_state.md R56). -/
structure DiscoveredDevice where
  address : FnAddr
  multifunction : Bool
  header : Header
  variant : Variant
  deriving DecidableEq, Repr

/-- The result of a decode (10_state.md R56). -/
inductive DecodeResult where
  | absent
  | present (r : DiscoveredDevice)
  deriving DecidableEq, Repr

/-- The tag of a variant (10_state.md R28, `VARIANT`). -/
inductive VariantTag where
  | standard
  | pciBridge
  | cardBus
  | unknown
  deriving DecidableEq, Repr

/-- A CAM address word taken apart (40_accessor.md R122); `reg` is a byte offset with its low two bits 0. -/
structure CamFields where
  en : Bool
  bus : BitVec 8
  dev : BitVec 5
  fn : BitVec 3
  reg : BitVec 8
  deriving DecidableEq, Repr

/-- Who issues a port operation: the Accessor, or a context that goes round it (60_exceptions.md R223). -/
inductive Master where
  | accessor
  | outside
  deriving DecidableEq, Repr

/-- A port operation in the notation of 30_encoding.md R111. -/
inductive PortOp where
  /-- `MemWrite(IO, CAM_ADDR_PORT, 4, w)`. -/
  | wa (w : Word)
  /-- `MemRead(IO, CAM_DATA_PORT, 4)` returning `v`. -/
  | rd (v : Word)
  /-- `MemWrite(IO, CAM_DATA_PORT, 4, v)`. -/
  | wd (v : Word)
  deriving DecidableEq, Repr

/-- One port operation as it passed on IO: who issued it, the value of LOCK then, and the operation. -/
structure IoEvent where
  by_ : Master
  locked : Bool
  op : PortOp
  deriving DecidableEq, Repr

/-- What a command issuer gets back on RSP (10_state.md R58). -/
inductive Response where
  | value (v : Word)
  | completion
  deriving DecidableEq, Repr

/-- What passes on REC (10_state.md R57). -/
inductive RecEvent where
  /-- A record of a scan. -/
  | emit (r : DiscoveredDevice)
  /-- The result of a `DECODE` command from outside. -/
  | result (r : DecodeResult)
  /-- The end of a scan. -/
  | done
  /-- The MODEL's own mark that an `ENUM` was accepted here; nothing passes on the wire (log 17). -/
  | began
  deriving DecidableEq, Repr

/-- A port operation of a context outside the Accessor (60_exceptions.md R223). -/
inductive RogueOp where
  | writeAddr (w : Word)
  | readAddr
  | writeData (v : Word)
  | readData
  deriving DecidableEq, Repr

/-- Something that happens outside the block: a rogue port operation, devices changing their registers, the
reset input (20_memory.md R69, 60_exceptions.md R223, 70_reset_and_hazards.md R231). -/
inductive OutsideEvent where
  | port (op : RogueOp)
  | device (changes : List Change)
  | reset
  deriving DecidableEq, Repr

/-- Who moves next (20_memory.md R77). -/
inductive Turn where
  | sequencer
  | caller (i : Nat)
  | outside (e : OutsideEvent)
  deriving DecidableEq, Repr

/-- Configuration space as the environment holds it: (byte address, byte) pairs, addresses strictly rising.
A byte that is not listed has no known value (log 1). -/
abbrev Memory := List Host.Cell

/-- The canonical form: addresses strictly rising and inside the 2^24 bytes of 20_memory.md R61. No fixed
value is what an unlisted byte reads as, so no entry can repeat one. -/
abbrev Memory.wf (m : Memory) : Prop :=
  m.Pairwise (fun c c' => c.1 < c'.1) ∧ ∀ c ∈ m, c.1 < 2 ^ 24

structure State where
  /-- `LOCK` (10_state.md R21). -/
  lock : Bool
  /-- `SEQ` (10_state.md R22). -/
  seq : Seq
  /-- `TGT` (10_state.md R29). -/
  tgt : FnAddr
  /-- `RAW[0..15]` (10_state.md R23). -/
  raw : Vector Word 16
  /-- `RAWV` (10_state.md R23). -/
  rawv : BitVec 16
  /-- `SCAN`, the program counter (10_state.md R25). -/
  scan : FnAddr
  /-- `MF` (10_state.md R27). -/
  mf : Bool
  /-- The platform's parameters (00_scope.md R6). No state of the spec: fixed for a machine, and no step writes
  them (log 10). -/
  cam : CamParams
  /-- `CONFIG_ADDRESS`, in the environment (10_state.md R31). -/
  configAddress : Word
  /-- The configuration registers of every function (10_state.md R33, 20_memory.md R61). -/
  mem : Memory
  /-- Environment: what a byte it does not list reads as, where the environment fixes one value for all of
  them (the test environments of 95_test_vectors.md do); `none`: each read draws a free value (log 1). -/
  background : Option Byte
  /-- The model's own: how many free values have been drawn (log 21). -/
  draws : Nat
  /-- Input: how the devices react to the coming data-port operations, one entry each (log 3). -/
  reactions : List (List Change)
  /-- Input: the words each command issuer still presents on CMD (10_state.md R58). -/
  callers : List (List Word)
  /-- Input: who moves next (20_memory.md R77; log 9). -/
  turns : List Turn
  /-- Input: what happens between the two port operations of the coming pairs, one entry each (log 7). -/
  mids : List (List OutsideEvent)
  /-- The model's own: the CMD queue the running command came from (log 17). -/
  issuer : Nat
  /-- Output: what has passed on IO, newest first. -/
  ioLog : List IoEvent
  /-- Output: what has passed on RSP, newest first, each with the issuer it went to. -/
  rspOut : List (Nat × Response)
  /-- Output: what has passed on REC, newest first. -/
  recOut : List RecEvent
  deriving DecidableEq, Repr

/-- A step that stops the machine. -/
inductive Fault where
  /-- `RAW[k]` was to be read while `RAWV[k]` is 0 (10_state.md R24, 93 U6). Raised by record assembly
  (`assembleLatched`) only, and never by the sequencer's own order of loads. Safe. -/
  | invalidLatch (k : Fin 16)
  deriving DecidableEq, Repr

/-- A step the model does not give. -/
inductive Refusal where
  /-- An instruction without a meaning yet; raised by `exec`'s own arms only (there is none). Safe. -/
  | notModelled (mnemonic : String)
  /-- A reserved command word is presented (30_encoding.md R104, 93 U4). Raised by a caller's turn. Safe. -/
  | reservedCommand (r : Reject)
  /-- A key with no row (30_encoding.md R101). Raised by the sequencer's turn, which never forms one. Safe. -/
  | noMicroOp (r : Reject)
  /-- A context outside the Accessor reads the address port (20_memory.md R73, 93 U9). Raised by
  `rogueOp`. Safe. -/
  | addressPortRead
  /-- A data-port operation while `CONFIG_ADDRESS` has enable 0, which only a context outside the Accessor
  can bring about (20_memory.md R73, 93 U9). Raised by `readData` and `writeData`. Safe. -/
  | dataPortDisabled (configAddress : Word)
  /-- A context outside the Accessor sets reserved bits of the address word, bits 30:24 at the default enable bit
  (30_encoding.md R102, 93 U16).
  Raised by `rogueOp`. Safe. -/
  | camReservedBits (w : Word)
  deriving DecidableEq, Repr

/-- The machine right after reset: `LOCK`, `SEQ`, `RAWV`, `SCAN`, `MF` as 10_state.md R20 gives them. The spec
leaves `RAW`, `TGT` and `CONFIG_ADDRESS` unspecified: DESIGN CHOICE zero (log 4, log 5). No byte of
configuration space is listed (log 2), the parameters have their defaults (log 10), no input is scheduled (log 3, 7, 9, 16), and nothing has passed on an
interface (70_reset_and_hazards.md R231). -/
def State.reset : State where
  lock := false
  seq := .idle
  tgt := 0
  raw := Vector.replicate 16 0
  rawv := 0
  scan := 0
  mf := false
  cam := Config.cam
  configAddress := 0
  mem := []
  background := none
  draws := 0
  reactions := []
  callers := List.replicate Config.nCallers []
  turns := []
  mids := []
  issuer := 0
  ioLog := []
  rspOut := []
  recOut := []

end Sys2Proof.Machine
end

