-- ==== Sys2Proof/Machine/Operands.lean ====
section
/-! DEFINITION. Operand assembly and disassembly: byte and halfword selection (00_scope.md R9), the CAM address
word (40_accessor.md R121, R122), function addresses (10_state.md R25) and configuration addresses
(20_memory.md R61). All pure and total. -/

namespace Sys2Proof.Machine

/-- `byte(v, j)` (00_scope.md R9). -/
def byteOf (v : Word) (j : Nat) : Byte := v.extractLsb' (8 * j) 8

/-- `half(v, j)` (00_scope.md R9). -/
def halfOf (v : Word) (j : Nat) : Half := v.extractLsb' (16 * j) 16

/-- The 32-bit value whose byte j is the j-th argument: little-endian (20_memory.md R63). -/
def wordOfBytes (b0 b1 b2 b3 : Byte) : Word := b3 ++ b2 ++ b1 ++ b0

/-- The I/O port a port operation addresses (20_memory.md R62, 00_scope.md R6; that its number has 16 bits is log
10): only writes go to the address port. -/
def PortOp.port (c : CamParams) : PortOp → BitVec 16
  | .wa _ => c.addrPort
  | .rd _ => c.dataPort
  | .wd _ => c.dataPort

/-- Bus of a function address, bits 15:8 (10_state.md R25). -/
def busOf (a : FnAddr) : BitVec 8 := a.extractLsb' 8 8
/-- Device of a function address, bits 7:3 (10_state.md R25). -/
def devOf (a : FnAddr) : BitVec 5 := a.extractLsb' 3 5
/-- Function number of a function address, bits 2:0 (10_state.md R25). -/
def fnOf (a : FnAddr) : BitVec 3 := a.extractLsb' 0 3
/-- The function address of a (bus, device, function) triple (10_state.md R29). -/
def fnAddr (bus : BitVec 8) (dev : BitVec 5) (fn : BitVec 3) : FnAddr := bus ++ dev ++ fn

/-- `CAM_ENABLE` as a word (00_scope.md R6): a single bit disjoint from bits 23:0. -/
def camEnable (c : CamParams) : Word := 1#32 <<< (24 + c.enableAt.val)

/-- The bits of an address word above `bus` that are not `CAM_ENABLE`: bits 30:24 at the default (30_encoding.md
R102; for another enable bit DEDUCED, log 10). -/
def camReservedBits (c : CamParams) : Word := 0xFF000000#32 &&& ~~~camEnable c

/-- `CAMENC` (40_accessor.md R121, 30_encoding.md R97). -/
def camEnc (c : CamParams) (bus : BitVec 8) (dev : BitVec 5) (fn : BitVec 3) (reg : BitVec 8) : Word :=
  camEnable c ||| (bus.zeroExtend 32 <<< 16) ||| (dev.zeroExtend 32 <<< 11)
    ||| (fn.zeroExtend 32 <<< 8) ||| (reg.zeroExtend 32 &&& 0xFC#32)

/-- `CAMDEC` (40_accessor.md R122). `en` is the bit `CAM_ENABLE` names, which R122 writes `w[31]`, its default
(00_scope.md R6; log 10). -/
def camDec (c : CamParams) (w : Word) : CamFields where
  en := w.getLsbD (24 + c.enableAt.val)
  bus := w.extractLsb' 16 8
  dev := w.extractLsb' 11 5
  fn := w.extractLsb' 8 3
  reg := w.extractLsb' 0 8 &&& 0xFC#8

/-- The byte address {bus, device, function, register} (20_memory.md R61). -/
def cfgAddr (bus : BitVec 8) (dev : BitVec 5) (fn : BitVec 3) (reg : BitVec 8) : CfgAddr :=
  bus ++ dev ++ fn ++ reg

/-- The effective configuration address {bus, dev, fn, reg & 0xFC} (40_accessor.md R127). -/
def effectiveAddr (bus : BitVec 8) (dev : BitVec 5) (fn : BitVec 3) (reg : BitVec 8) : CfgAddr :=
  cfgAddr bus dev fn (reg &&& 0xFC#8)

/-- The dword `CONFIG_ADDRESS` selects, as a byte address (20_memory.md R73). -/
def selectedAddr (c : CamParams) (w : Word) : CfgAddr :=
  let a := camDec c w
  cfgAddr a.bus a.dev a.fn a.reg

end Sys2Proof.Machine
end

