-- ==== Sys2Proof/Machine/Flags.lean ====
section
/-! DEFINITION. The derived flags of 10_state.md R28, the block's only condition codes: functions of the loaded
dwords, and of a state, where they are valid only once their latch is. -/

namespace Sys2Proof.Machine

/-- `PRESENT` of dword 0x00: 16 bits against 16 bits (10_state.md R28, 30_encoding.md R100). -/
def presentOf (dword0 : Word) : Bool := halfOf dword0 0 != 0xFFFF#16

/-- `CODE` of dword 0x0C, bits 22:16: header_type & 0x7F (10_state.md R28). -/
def codeOf (dword3 : Word) : BitVec 7 := dword3.extractLsb' 16 7

/-- `MFREC` of dword 0x0C, bit 23: header_type & 0x80 (10_state.md R28). -/
def mfRecOf (dword3 : Word) : Bool := dword3.getLsbD 23

/-- `VARIANT` of a layout code (10_state.md R28, 30_encoding.md R105). -/
def variantOf (code : BitVec 7) : VariantTag :=
  if code = 0x00#7 then .standard
  else if code = 0x01#7 then .pciBridge
  else if code = 0x02#7 then .cardBus
  else .unknown

/-- Whether latch `k` holds a value (10_state.md R23, `RAWV[k]`). -/
def State.valid (s : State) (k : Fin 16) : Bool := s.rawv.getLsbD k.val

/-- `x[k]` (00_scope.md R10): no value where the latch is not valid (10_state.md R24). -/
def State.latch? (s : State) (k : Fin 16) : Option Word := if s.valid k then some s.raw[k] else none

/-- `PRESENT`, valid when `RAWV[0]` is 1. -/
def State.present? (s : State) : Option Bool := (s.latch? 0).map presentOf

/-- `CODE`, valid when `RAWV[3]` is 1. -/
def State.code? (s : State) : Option (BitVec 7) := (s.latch? 3).map codeOf

/-- `MFREC`, valid when `RAWV[3]` is 1. -/
def State.mfRec? (s : State) : Option Bool := (s.latch? 3).map mfRecOf

/-- `VARIANT`, valid when `RAWV[3]` is 1. -/
def State.variant? (s : State) : Option VariantTag := s.code?.map variantOf

end Sys2Proof.Machine
end

