-- ==== Sys2Proof/Machine/Ops.lean ====
section
/-! DEFINITION. The named operations: configuration space as memory, the state updates, the port target
(20_memory.md R73), the lock and the port-operation pair (40_accessor.md R124, R125), what happens outside
the block, and reset of a running block (70_reset_and_hazards.md R231).

TAKING AN EXCEPTION. The block has none: "There are no exceptions in this domain" (60_exceptions.md R210),
there is no trap entry (R216) and no trap return (R217), so no operation here takes one. -/

namespace Sys2Proof.Machine

/-! ### Configuration space -/

/-- The byte listed at an address, if one is. -/
def Memory.get? : Memory → Nat → Option Byte
  | [], _ => none
  | (a, b) :: m, x => if a = x then some b else Memory.get? m x

/-- Makes a byte known (`some`) or no longer known (`none`), keeping the canonical form. -/
def Memory.put : Memory → Nat → Option Byte → Memory
  | [], x, v =>
    match v with
    | some b => [(x, b)]
    | none => []
  | (a, c) :: m, x, v =>
    if x < a then
      match v with
      | some b => (x, b) :: (a, c) :: m
      | none => (a, c) :: m
    else if x = a then
      match v with
      | some b => (x, b) :: m
      | none => m
    else (a, c) :: Memory.put m x v

/-- Whether the environment has a function at the address: it lists some byte of its 256 (log 1). -/
def Memory.hasFunction (m : Memory) (a : FnAddr) : Bool := m.any (fun c => c.1 / 256 == a.toNat)

/-- What a byte reads as when the environment lists no value for it, at draw number `n`: the sentinel's byte in
the low half of register 0x00 of a function that does not exist; anywhere else the environment's background
value, and a free value where it fixes none (20_memory.md R74; log 1). -/
def unlistedByte (m : Memory) (bg : Option Byte) (n : Nat) (x : CfgAddr) : Byte :=
  if x.extractLsb' 1 7 = 0#7 ∧ m.hasFunction (x.extractLsb' 8 16) = false then 0xFF#8
  else bg.getD (Config.freeByte n x)

/-- One byte of configuration space, read at draw number `n`. -/
def Memory.byteAt (m : Memory) (bg : Option Byte) (n : Nat) (x : CfgAddr) : Byte :=
  (m.get? x.toNat).getD (unlistedByte m bg n x)

/-- `CfgRead`: the dword at a byte address whose low two bits are 0, little-endian (20_memory.md R63, R74). -/
def Memory.dwordAt (m : Memory) (bg : Option Byte) (n : Nat) (x : CfgAddr) : Word :=
  wordOfBytes (m.byteAt bg n x) (m.byteAt bg n (x + 1)) (m.byteAt bg n (x + 2)) (m.byteAt bg n (x + 3))

/-- Devices change their registers, byte by byte. -/
def Memory.change (m : Memory) : List Change → Memory
  | [] => m
  | (x, v) :: cs => Memory.change (m.put x.toNat v) cs

/-! ### State updates -/

/-- Writes `LOCK`. -/
def State.setLock (s : State) (b : Bool) : State := { s with lock := b }

/-- `x[k] <- v` (00_scope.md R10): `RAW[k] <- v`, `RAWV[k] <- 1`. -/
def State.latch (s : State) (k : Fin 16) (v : Word) : State :=
  { s with raw := s.raw.set k v, rawv := s.rawv ||| (1#16 <<< k.val) }

/-- Binds the decoder to a function with no latch valid (41_decoder.md R141, first line). -/
def State.bindTarget (s : State) (a : FnAddr) : State := { s with tgt := a, rawv := 0 }

/-- Writes `SEQ`. -/
def State.setSeq (s : State) (q : Seq) : State := { s with seq := q }

/-- Writes `SCAN`. -/
def State.setScan (s : State) (a : FnAddr) : State := { s with scan := a }

/-- Writes `MF`. -/
def State.setMf (s : State) (b : Bool) : State := { s with mf := b }

/-- Something passes on REC (10_state.md R57). -/
def State.report (s : State) (e : RecEvent) : State := { s with recOut := e :: s.recOut }

/-- The running command's issuer gets its response on RSP (10_state.md R58). -/
def State.respond (s : State) (r : Response) : State := { s with rspOut := (s.issuer, r) :: s.rspOut }

/-- A port operation passes on IO. -/
def State.logIo (s : State) (by_ : Master) (op : PortOp) : State :=
  { s with ioLog := ⟨by_, s.lock, op⟩ :: s.ioLog }

/-- Devices change their registers. -/
def State.changeDevices (s : State) (cs : List Change) : State := { s with mem := s.mem.change cs }

/-- One free value has been drawn. -/
def State.nextDraw (s : State) : State := { s with draws := s.draws + 1 }

/-- One scheduled reaction has been used. -/
def State.nextReaction (s : State) : State := { s with reactions := s.reactions.tail }

/-- One pair's scheduled events have been used. -/
def State.nextMids (s : State) : State := { s with mids := s.mids.tail }

/-- The next scheduled turn has been taken. -/
def State.nextTurn (s : State) : State := { s with turns := s.turns.tail }

/-- The words caller `i` still presents. -/
def State.queue (s : State) (i : Nat) : List Word := s.callers.getD i []

/-- A command of caller `i` is accepted: `rest` is what it still presents. -/
def State.accept (s : State) (i : Nat) (rest : List Word) : State :=
  { s with callers := s.callers.set i rest, issuer := i }

/-! ### The port target (20_memory.md R73) -/

/-- `MemWrite(IO, CAM_ADDR_PORT, 4, w)`. -/
def State.writeAddr (s : State) (by_ : Master) (w : Word) : State :=
  { s.logIo by_ (.wa w) with configAddress := w }

/-- What a `MemRead(IO, CAM_DATA_PORT, 4)` returns: the selected dword as it is now. -/
def State.dataPort (s : State) : Word := s.mem.dwordAt s.background s.draws (selectedAddr s.cam s.configAddress)

/-- The devices' reaction to a data-port read: the scheduled one, and no change where none is scheduled
("A CFGRD changes no device register as far as the source says", 20_memory.md R71; log 3). -/
def State.readReaction (s : State) : List Change := s.reactions.headD []

/-- The devices' reaction to a write of `v`: the scheduled one, and a free value where none is scheduled
(`CfgWrite`, 20_memory.md R75; log 3). -/
def State.writeReaction (s : State) (v : Word) : List Change :=
  s.reactions.headD (Config.freeReaction s.draws ((selectedAddr s.cam s.configAddress).extractLsb' 2 22) v)

/-- What stands behind a data-port operation `op` to which the devices react by `cs`. -/
def State.afterData (s : State) (by_ : Master) (op : PortOp) (cs : List Change) : State :=
  ((s.logIo by_ op).changeDevices cs).nextDraw.nextReaction

/-- `MemRead(IO, CAM_DATA_PORT, 4)`; not modelled while enable is 0 (20_memory.md R73, 93 U9). -/
def readData (by_ : Master) (s : State) : Except Refusal (Word × State) :=
  if (camDec s.cam s.configAddress).en then
    .ok (s.dataPort, s.afterData by_ (.rd s.dataPort) s.readReaction)
  else .error (.dataPortDisabled s.configAddress)

/-- `MemWrite(IO, CAM_DATA_PORT, 4, v)`; not modelled while enable is 0 (20_memory.md R73, 93 U9). -/
def writeData (by_ : Master) (v : Word) (s : State) : Except Refusal State :=
  if (camDec s.cam s.configAddress).en then .ok (s.afterData by_ (.wd v) (s.writeReaction v))
  else .error (.dataPortDisabled s.configAddress)

/-! ### Outside the block -/

/-- A port operation of a context that goes round the Accessor (60_exceptions.md R223). -/
def rogueOp (op : RogueOp) (s : State) : Except Refusal State :=
  match op with
  | .writeAddr w =>
    if w &&& camReservedBits s.cam = 0 then .ok (s.writeAddr .outside w) else .error (.camReservedBits w)
  | .readAddr => .error .addressPortRead
  | .writeData v => writeData .outside v s
  | .readData =>
    match readData .outside s with
    | .ok (_, s') => .ok s'
    | .error r => .error r

/-- Reset of a running block (70_reset_and_hazards.md R231): the block's state takes its reset values, those
the spec leaves unspecified become free values (log 19), the running command is abandoned, nothing is emitted
and no port operation is issued; the environment keeps its state (R233). -/
def State.blockReset (s : State) : State :=
  { s with
    lock := false, seq := .idle, rawv := 0, scan := 0, mf := false,
    tgt := Config.freeTgt s.draws, raw := Vector.ofFn (Config.freeLatch s.draws), draws := s.draws + 1 }

/-- How things stand after events outside the block. -/
inductive Interlude where
  | goOn (s : State)
  /-- The block was reset. -/
  | wasReset (s : State)
  | refused (r : Refusal)

/-- One event outside the block. -/
def outsideEvent (e : OutsideEvent) (s : State) : Interlude :=
  match e with
  | .port op =>
    match rogueOp op s with
    | .ok s' => .goOn s'
    | .error r => .refused r
  | .device cs => .goOn (s.changeDevices cs)
  | .reset => .wasReset s.blockReset

/-- The events between the two port operations of a pair, in order; a reset ends the pair, and the
events after it no longer fall inside it (they are dropped; log 7). -/
def interlude : List OutsideEvent → State → Interlude
  | [], s => .goOn s
  | e :: es, s =>
    match outsideEvent e s with
    | .goOn s' => interlude es s'
    | .wasReset s' => .wasReset s'
    | .refused r => .refused r

/-! ### The pair (20_memory.md R68, R70, R79) -/

/-- How a port-operation pair ended. -/
inductive PairResult (α : Type) where
  | completed (v : α) (s : State)
  /-- A reset came between the two port operations (70_reset_and_hazards.md R234). -/
  | abandoned (s : State)
  | refused (r : Refusal)

/-- The first half: `lock()` and the address-port write. -/
def openPair (w : Word) (s : State) : State := (s.setLock true).writeAddr .accessor w

/-- The first half and what happens before the second. -/
def beginPair (w : Word) (s : State) : Interlude :=
  interlude (s.mids.headD []) (openPair w s).nextMids

/-- A configuration read: `lock()`, address-port write, data-port read, `unlock()` (40_accessor.md R124). -/
def readPair (w : Word) (s : State) : PairResult Word :=
  match beginPair w s with
  | .wasReset s' => .abandoned s'
  | .refused r => .refused r
  | .goOn s' =>
    match readData .accessor s' with
    | .ok (v, s'') => .completed v (s''.setLock false)
    | .error r => .refused r

/-- A configuration write: `lock()`, address-port write, data-port write, `unlock()` (40_accessor.md R125). -/
def writePair (w : Word) (v : Word) (s : State) : PairResult Unit :=
  match beginPair w s with
  | .wasReset s' => .abandoned s'
  | .refused r => .refused r
  | .goOn s' =>
    match writeData .accessor v s' with
    | .ok s'' => .completed () (s''.setLock false)
    | .error r => .refused r

/-- The common form of the operations that perform one pair. While `LOCK` is 1 the requester is held: it has
no step (20_memory.md R79; log 12). An abandoned pair leaves what the reset left. DESIGN CHOICE (log 27): a reset
falls between the two port operations (70_reset_and_hazards.md R234) or between steps; that it can also fall between
`lock()` and the address-port write, or between the data-port operation and `unlock()` with what `finish` does (the
response on RSP, the latch), R231 leaves open and the model has no such moment. -/
def withPair {α : Type} (pair : State → PairResult α) (finish : α → State → State) (s : State) :
    Host.Outcome State Fault Refusal :=
  if s.lock then .next s
  else
    match pair s with
    | .completed v s' => .next (finish v s')
    | .abandoned s' => .next s'
    | .refused r => .refused r

/-- The template of every micro-operation (41_decoder.md R142): `x[k] <- CFGRD(TGT, o)`. -/
def load (o : BitVec 8) (k : Fin 16) (s : State) : Host.Outcome State Fault Refusal :=
  withPair (readPair (camEnc s.cam (busOf s.tgt) (devOf s.tgt) (fnOf s.tgt) o)) (fun v s' => s'.latch k v) s

end Sys2Proof.Machine
end

