-- ==== Sys2Proof/Machine/Accessor.lean ====
section
/-! DEFINITION. The ConfigSpaceAccessor commands (40_accessor.md). -/

namespace Sys2Proof.Machine

/-- `CFGRD b:d.f, reg` (40_accessor.md R124): one read pair; the raw value goes to the issuer on RSP. -/
def execCfgrd (bus : BitVec 8) (dev : BitVec 5) (fn : BitVec 3) (reg : BitVec 8) (s : State) :
    Host.Outcome State Fault Refusal :=
  withPair (readPair (camEnc s.cam bus dev fn reg)) (fun v s' => s'.respond (.value v)) s

/-- `CFGWR b:d.f, reg, value` (40_accessor.md R125): one write pair; completion goes to the issuer on RSP. -/
def execCfgwr (bus : BitVec 8) (dev : BitVec 5) (fn : BitVec 3) (reg : BitVec 8) (value : Word)
    (s : State) : Host.Outcome State Fault Refusal :=
  withPair (writePair (camEnc s.cam bus dev fn reg) value) (fun _ s' => s'.respond .completion) s

end Sys2Proof.Machine
end

