-- ==== Sys2Proof/Machine/Bridge.lean ====
section
/-! DEFINITION. The loads of a PciBridge header, code 0x01 (41_decoder.md R158 to R169): each the template `load` at its own
offset and latch. -/

namespace Sys2Proof.Machine

/-- `LD_B_BAR0` (41_decoder.md R158). -/
def execLdBBar0 (s : State) : Host.Outcome State Fault Refusal := load 0x10 4 s
/-- `LD_B_BAR1` (41_decoder.md R159). -/
def execLdBBar1 (s : State) : Host.Outcome State Fault Refusal := load 0x14 5 s
/-- `LD_B_BUS` (41_decoder.md R160). -/
def execLdBBus (s : State) : Host.Outcome State Fault Refusal := load 0x18 6 s
/-- `LD_B_IO` (41_decoder.md R161). -/
def execLdBIo (s : State) : Host.Outcome State Fault Refusal := load 0x1C 7 s
/-- `LD_B_MEM` (41_decoder.md R162). -/
def execLdBMem (s : State) : Host.Outcome State Fault Refusal := load 0x20 8 s
/-- `LD_B_PMEM` (41_decoder.md R163). -/
def execLdBPmem (s : State) : Host.Outcome State Fault Refusal := load 0x24 9 s
/-- `LD_B_PBASEU` (41_decoder.md R164). -/
def execLdBPbaseu (s : State) : Host.Outcome State Fault Refusal := load 0x28 10 s
/-- `LD_B_PLIMU` (41_decoder.md R165). -/
def execLdBPlimu (s : State) : Host.Outcome State Fault Refusal := load 0x2C 11 s
/-- `LD_B_IOU` (41_decoder.md R166). -/
def execLdBIou (s : State) : Host.Outcome State Fault Refusal := load 0x30 12 s
/-- `LD_B_CAP` (41_decoder.md R167). -/
def execLdBCap (s : State) : Host.Outcome State Fault Refusal := load 0x34 13 s
/-- `LD_B_ROM` (41_decoder.md R168). -/
def execLdBRom (s : State) : Host.Outcome State Fault Refusal := load 0x38 14 s
/-- `LD_B_INT` (41_decoder.md R169). -/
def execLdBInt (s : State) : Host.Outcome State Fault Refusal := load 0x3C 15 s

end Sys2Proof.Machine
end

