-- ==== Sys2Proof/Machine/CardBus.lean ====
section
/-! DEFINITION. The loads of a CardBus header, code 0x02 (41_decoder.md R170 to R181): each the template `load` at its own
offset and latch. -/

namespace Sys2Proof.Machine

/-- `LD_C_RAW0` (41_decoder.md R170). -/
def execLdCRaw0 (s : State) : Host.Outcome State Fault Refusal := load 0x10 4 s
/-- `LD_C_RAW1` (41_decoder.md R171). -/
def execLdCRaw1 (s : State) : Host.Outcome State Fault Refusal := load 0x14 5 s
/-- `LD_C_RAW2` (41_decoder.md R172). -/
def execLdCRaw2 (s : State) : Host.Outcome State Fault Refusal := load 0x18 6 s
/-- `LD_C_RAW3` (41_decoder.md R173). -/
def execLdCRaw3 (s : State) : Host.Outcome State Fault Refusal := load 0x1C 7 s
/-- `LD_C_RAW4` (41_decoder.md R174). -/
def execLdCRaw4 (s : State) : Host.Outcome State Fault Refusal := load 0x20 8 s
/-- `LD_C_RAW5` (41_decoder.md R175). -/
def execLdCRaw5 (s : State) : Host.Outcome State Fault Refusal := load 0x24 9 s
/-- `LD_C_RAW6` (41_decoder.md R176). -/
def execLdCRaw6 (s : State) : Host.Outcome State Fault Refusal := load 0x28 10 s
/-- `LD_C_RAW7` (41_decoder.md R177). -/
def execLdCRaw7 (s : State) : Host.Outcome State Fault Refusal := load 0x2C 11 s
/-- `LD_C_RAW8` (41_decoder.md R178). -/
def execLdCRaw8 (s : State) : Host.Outcome State Fault Refusal := load 0x30 12 s
/-- `LD_C_RAW9` (41_decoder.md R179). -/
def execLdCRaw9 (s : State) : Host.Outcome State Fault Refusal := load 0x34 13 s
/-- `LD_C_RAW10` (41_decoder.md R180). -/
def execLdCRaw10 (s : State) : Host.Outcome State Fault Refusal := load 0x38 14 s
/-- `LD_C_RAW11` (41_decoder.md R181). -/
def execLdCRaw11 (s : State) : Host.Outcome State Fault Refusal := load 0x3C 15 s

end Sys2Proof.Machine
end

