-- ==== Sys2Proof/Machine/Record.lean ====
section
/-! DEFINITION. Record assembly, step 4 of a decode (41_decoder.md R185): pure field extraction from the latches,
by the layouts of 10_state.md R34 to R55. -/

namespace Sys2Proof.Machine

/-- The common header (41_decoder.md R185; 10_state.md R34 to R37). -/
def assembleHeader (x : Vector Word 16) : Header where
  vendorId := halfOf x[0] 0
  deviceId := halfOf x[0] 1
  command := halfOf x[1] 0
  status := halfOf x[1] 1
  revisionId := byteOf x[2] 0
  progIf := byteOf x[2] 1
  subclass := byteOf x[2] 2
  classCode := byteOf x[2] 3
  cacheLineSize := byteOf x[3] 0
  latencyTimer := byteOf x[3] 1
  headerType := codeOf x[3]
  bist := byteOf x[3] 3

/-- The Standard variant (41_decoder.md R185; 10_state.md R38 to R44). -/
def assembleStandard (x : Vector Word 16) : StandardFields where
  bar := #v[x[4], x[5], x[6], x[7], x[8], x[9]]
  cardbusCisPtr := x[10]
  subsystemVendorId := halfOf x[11] 0
  subsystemId := halfOf x[11] 1
  expansionRomBase := x[12]
  capabilityPtr := byteOf x[13] 0
  interruptLine := byteOf x[15] 0
  interruptPin := byteOf x[15] 1
  minGrant := byteOf x[15] 2
  maxLatency := byteOf x[15] 3

/-- The PciBridge variant (41_decoder.md R185; 10_state.md R45 to R54). -/
def assembleBridge (x : Vector Word 16) : BridgeFields where
  bar := #v[x[4], x[5]]
  primaryBus := byteOf x[6] 0
  secondaryBus := byteOf x[6] 1
  subordinateBus := byteOf x[6] 2
  secondaryLatencyTimer := byteOf x[6] 3
  ioBase := byteOf x[7] 0
  ioLimit := byteOf x[7] 1
  memoryBase := halfOf x[8] 0
  memoryLimit := halfOf x[8] 1
  prefetchBase := halfOf x[9] 0
  prefetchLimit := halfOf x[9] 1
  prefetchBaseUpper32 := x[10]
  prefetchLimitUpper32 := x[11]
  ioBaseUpper16 := halfOf x[12] 0
  ioLimitUpper16 := halfOf x[12] 1
  capabilityPtr := byteOf x[13] 0
  expansionRomBase := x[14]
  interruptLine := byteOf x[15] 0
  interruptPin := byteOf x[15] 1
  bridgeControl := halfOf x[15] 1

/-- The CardBus variant: twelve opaque dwords (10_state.md R55). -/
def assembleCardBus (x : Vector Word 16) : Vector Word 12 :=
  #v[x[4], x[5], x[6], x[7], x[8], x[9], x[10], x[11], x[12], x[13], x[14], x[15]]

/-- The variant the layout code selects (41_decoder.md R185). -/
def assembleVariant (x : Vector Word 16) (code : BitVec 7) : Variant :=
  match variantOf code with
  | .standard => .standard (assembleStandard x)
  | .pciBridge => .pciBridge (assembleBridge x)
  | .cardBus => .cardBus (assembleCardBus x)
  | .unknown => .unknown code

/-- `assemble(TGT, RAW, code, mf)` (41_decoder.md R185). -/
def assemble (tgt : FnAddr) (x : Vector Word 16) (code : BitVec 7) (mf : Bool) : DiscoveredDevice where
  address := tgt
  multifunction := mf
  header := assembleHeader x
  variant := assembleVariant x code

/-- The latches the layouts of a code read beyond `RAW[0..3]` (41_decoder.md R185, "Valid entries on entry"). -/
def groupLatches (code : BitVec 7) : List (Fin 16) :=
  match variantOf code with
  | .standard => [4, 5, 6, 7, 8, 9, 10, 11, 12, 13, 15]
  | .pciBridge => [4, 5, 6, 7, 8, 9, 10, 11, 12, 13, 14, 15]
  | .cardBus => [4, 5, 6, 7, 8, 9, 10, 11, 12, 13, 14, 15]
  | .unknown => []

/-- Record assembly from the latches of a state; reading one that is not valid is a fault (10_state.md R24). -/
def assembleLatched (s : State) : Except Fault DiscoveredDevice :=
  let code := codeOf s.raw[3]
  match ([0, 1, 2, 3] ++ groupLatches code).find? (fun k => !s.valid k) with
  | some k => .error (.invalidLatch k)
  | none => .ok (assemble s.tgt s.raw code (mfRecOf s.raw[3]))

end Sys2Proof.Machine
end

