-- ==== Sys2Proof/Machine/Decoder.lean ====
section
/-! DEFINITION. The ConfigSpaceDecoder: the `DECODE` command and the four common loads (41_decoder.md R141 to
R146), the order of the loads, and the result of a decode. -/

namespace Sys2Proof.Machine

/-- `DECODE b:d.f` (41_decoder.md R141, R187): accepted only when `SEQ` is IDLE, and held until then
(60_exceptions.md R217; log 12). Accepting it sets `SEQ`, binds `TGT` and clears `RAWV`; the loads, the
dispatch and the result are the sequencer's next steps (42_enumerator.md R192; log 8). -/
def execDecode (bus : BitVec 8) (dev : BitVec 5) (fn : BitVec 3) (s : State) :
    Host.Outcome State Fault Refusal :=
  if s.seq = .idle then .next ((s.setSeq .decoding).bindTarget (fnAddr bus dev fn)) else .next s

/-- `LD_ID` (41_decoder.md R143). -/
def execLdId (s : State) : Host.Outcome State Fault Refusal := load 0x00 0 s
/-- `LD_CMDSTS` (41_decoder.md R144). -/
def execLdCmdsts (s : State) : Host.Outcome State Fault Refusal := load 0x04 1 s
/-- `LD_CLASS` (41_decoder.md R145). -/
def execLdClass (s : State) : Host.Outcome State Fault Refusal := load 0x08 2 s
/-- `LD_HDR` (41_decoder.md R146). -/
def execLdHdr (s : State) : Host.Outcome State Fault Refusal := load 0x0C 3 s

/-- The loads after `LD_HDR`, in order, as latch indices: step 3 of 41_decoder.md R141, R183. -/
def groupLoads (code : BitVec 7) : List (Fin 16) :=
  if code = 0x00#7 then [4, 5, 6, 7, 8, 9, 10, 11, 12, 13, 15]
  else if code = 0x01#7 then [4, 5, 6, 7, 8, 9, 10, 11, 12, 13, 14, 15]
  else if code = 0x02#7 then [4, 5, 6, 7, 8, 9, 10, 11, 12, 13, 14, 15]
  else []

/-- The key of the load of latch `k`: offset 4k (41_decoder.md R141, `off(k) = 4k`). -/
def loadKey (code : BitVec 7) (k : Fin 16) : Key := keyOf code (BitVec.ofNat 8 (4 * k.val))

/-- The first of some loads that this decode has not done yet. -/
def State.firstUnloaded (s : State) (ks : List (Fin 16)) : Option (Fin 16) :=
  ks.find? (fun k => !s.valid k)

/-- The key of the next load of the running decode, or `none` when the decode has read all it reads: steps 1
to 3 of 41_decoder.md R141. The position in the sequence is what `RAWV` says has been loaded. A common load
ignores the key's code field, which is formed as 0 while the code is not known (log 24). -/
def State.nextKey (s : State) : Option Key :=
  match s.present? with
  | none => some (loadKey 0 0)
  | some false => none
  | some true =>
    match s.firstUnloaded [1, 2, 3] with
    | some k => some (loadKey 0 k)
    | none => (s.firstUnloaded (groupLoads (codeOf s.raw[3]))).map (loadKey (codeOf s.raw[3]))

/-- What the finished decode returns: `Absent`, or the record assembled from the latches (41_decoder.md R141,
R184, R185). -/
def decodeOutcome (s : State) : Except Fault DecodeResult :=
  match s.present? with
  | none => .error (.invalidLatch 0)
  | some false => .ok .absent
  | some true =>
    match assembleLatched s with
    | .ok r => .ok (.present r)
    | .error f => .error f

end Sys2Proof.Machine
end

