-- ==== Sys2Proof/Machine/Enumerator.lean ====
section
/-! DEFINITION. The BusEnumerator: the `ENUM` command, the two advances of `SCAN` and the rules that choose
between them (42_enumerator.md R191 to R197). -/

namespace Sys2Proof.Machine

/-- `ENUM` (42_enumerator.md R191, R192 "Start"): accepted only when `SEQ` is IDLE, and held until then
(60_exceptions.md R217; log 12). Accepting it sets `SEQ`, `SCAN` and `MF` and binds the decoder to the first
function; the scan itself is the sequencer's next steps (R192; log 8). -/
def execEnum (s : State) : Host.Outcome State Fault Refusal :=
  if s.seq = .idle then
    .next (((((s.setSeq .enumerating).setScan 0).setMf false).bindTarget 0).report .began)
  else .next s

/-- *Next function*: `SCAN + 1`, a 17-bit addition (10_state.md R26). -/
def nextFunctionOf (scan : FnAddr) : BitVec 17 := scan.zeroExtend 17 + 1#17

/-- *Next device*: `(SCAN & 0xFFF8) + 8`, a 17-bit addition (10_state.md R26). -/
def nextDeviceOf (scan : FnAddr) : BitVec 17 := (scan &&& 0xFFF8#16).zeroExtend 17 + 8#17

/-- End of the scan (42_enumerator.md R197): done on REC, `SEQ` IDLE, `SCAN` left at 0. DESIGN CHOICE (log 27): it is
one step with the last `emit`, so no reset falls between the two; 70_reset_and_hazards.md R231 leaves that open. -/
def endScan (s : State) : State := ((s.report .done).setSeq .idle).setScan 0

/-- `pc <- target`: a carry into bit 16 ends the scan; otherwise `SCAN` moves and the next decode begins there,
`TGT <- SCAN` (10_state.md R26, 42_enumerator.md R192, R197). -/
def advanceTo (target : BitVec 17) (s : State) : State :=
  if target.getLsbD 16 then endScan s
  else (s.setScan (target.setWidth 16)).bindTarget (target.setWidth 16)

/-- What the scan does with the result of the decode of the function it is at: exactly one of 42_enumerator.md
R193 (function 0 absent), R194 (function 0 present), R195 (function 1 to 7 absent), R196 (function 1 to 7
present). -/
def scanStep (r : DecodeResult) (s : State) : State :=
  if fnOf s.scan = 0 then
    match r with
    | .absent => advanceTo (nextDeviceOf s.scan) (s.setMf false)
    | .present d =>
      if d.multifunction then advanceTo (nextFunctionOf s.scan) ((s.report (.emit d)).setMf true)
      else advanceTo (nextDeviceOf s.scan) ((s.report (.emit d)).setMf false)
  else
    match r with
    | .absent => advanceTo (nextFunctionOf s.scan) s
    | .present d => advanceTo (nextFunctionOf s.scan) (s.report (.emit d))

end Sys2Proof.Machine
end

