-- ==== Sys2Proof/Machine/Standard.lean ====
section
/-! DEFINITION. The loads of a Standard header, code 0x00 (41_decoder.md R147 to R157): each the template `load` at its own
offset and latch. -/

namespace Sys2Proof.Machine

/-- `LD_S_BAR0` (41_decoder.md R147). -/
def execLdSBar0 (s : State) : Host.Outcome State Fault Refusal := load 0x10 4 s
/-- `LD_S_BAR1` (41_decoder.md R148). -/
def execLdSBar1 (s : State) : Host.Outcome State Fault Refusal := load 0x14 5 s
/-- `LD_S_BAR2` (41_decoder.md R149). -/
def execLdSBar2 (s : State) : Host.Outcome State Fault Refusal := load 0x18 6 s
/-- `LD_S_BAR3` (41_decoder.md R150). -/
def execLdSBar3 (s : State) : Host.Outcome State Fault Refusal := load 0x1C 7 s
/-- `LD_S_BAR4` (41_decoder.md R151). -/
def execLdSBar4 (s : State) : Host.Outcome State Fault Refusal := load 0x20 8 s
/-- `LD_S_BAR5` (41_decoder.md R152). -/
def execLdSBar5 (s : State) : Host.Outcome State Fault Refusal := load 0x24 9 s
/-- `LD_S_CIS` (41_decoder.md R153). -/
def execLdSCis (s : State) : Host.Outcome State Fault Refusal := load 0x28 10 s
/-- `LD_S_SUBSYS` (41_decoder.md R154). -/
def execLdSSubsys (s : State) : Host.Outcome State Fault Refusal := load 0x2C 11 s
/-- `LD_S_ROM` (41_decoder.md R155). -/
def execLdSRom (s : State) : Host.Outcome State Fault Refusal := load 0x30 12 s
/-- `LD_S_CAP` (41_decoder.md R156). -/
def execLdSCap (s : State) : Host.Outcome State Fault Refusal := load 0x34 13 s
/-- `LD_S_INT` (41_decoder.md R157). -/
def execLdSInt (s : State) : Host.Outcome State Fault Refusal := load 0x3C 15 s

end Sys2Proof.Machine
end

