-- ==== Sys2Proof/Machine/Dispatch.lean ====
section
/-! DEFINITION. The dispatch: one arm per constructor of Instr, each one direct call of its meaning. -/

namespace Sys2Proof.Machine

def exec (i : Instr) (s : State) : Host.Outcome State Fault Refusal :=
  match i with
  | .cfgrd bus dev fn reg => Sys2Proof.Machine.execCfgrd bus dev fn reg s
  | .cfgwr bus dev fn reg value => Sys2Proof.Machine.execCfgwr bus dev fn reg value s
  | .decode bus dev fn => Sys2Proof.Machine.execDecode bus dev fn s
  | .enum => Sys2Proof.Machine.execEnum s
  | .ldId => Sys2Proof.Machine.execLdId s
  | .ldCmdsts => Sys2Proof.Machine.execLdCmdsts s
  | .ldClass => Sys2Proof.Machine.execLdClass s
  | .ldHdr => Sys2Proof.Machine.execLdHdr s
  | .ldSBar0 => Sys2Proof.Machine.execLdSBar0 s
  | .ldSBar1 => Sys2Proof.Machine.execLdSBar1 s
  | .ldSBar2 => Sys2Proof.Machine.execLdSBar2 s
  | .ldSBar3 => Sys2Proof.Machine.execLdSBar3 s
  | .ldSBar4 => Sys2Proof.Machine.execLdSBar4 s
  | .ldSBar5 => Sys2Proof.Machine.execLdSBar5 s
  | .ldSCis => Sys2Proof.Machine.execLdSCis s
  | .ldSSubsys => Sys2Proof.Machine.execLdSSubsys s
  | .ldSRom => Sys2Proof.Machine.execLdSRom s
  | .ldSCap => Sys2Proof.Machine.execLdSCap s
  | .ldSInt => Sys2Proof.Machine.execLdSInt s
  | .ldBBar0 => Sys2Proof.Machine.execLdBBar0 s
  | .ldBBar1 => Sys2Proof.Machine.execLdBBar1 s
  | .ldBBus => Sys2Proof.Machine.execLdBBus s
  | .ldBIo => Sys2Proof.Machine.execLdBIo s
  | .ldBMem => Sys2Proof.Machine.execLdBMem s
  | .ldBPmem => Sys2Proof.Machine.execLdBPmem s
  | .ldBPbaseu => Sys2Proof.Machine.execLdBPbaseu s
  | .ldBPlimu => Sys2Proof.Machine.execLdBPlimu s
  | .ldBIou => Sys2Proof.Machine.execLdBIou s
  | .ldBCap => Sys2Proof.Machine.execLdBCap s
  | .ldBRom => Sys2Proof.Machine.execLdBRom s
  | .ldBInt => Sys2Proof.Machine.execLdBInt s
  | .ldCRaw0 => Sys2Proof.Machine.execLdCRaw0 s
  | .ldCRaw1 => Sys2Proof.Machine.execLdCRaw1 s
  | .ldCRaw2 => Sys2Proof.Machine.execLdCRaw2 s
  | .ldCRaw3 => Sys2Proof.Machine.execLdCRaw3 s
  | .ldCRaw4 => Sys2Proof.Machine.execLdCRaw4 s
  | .ldCRaw5 => Sys2Proof.Machine.execLdCRaw5 s
  | .ldCRaw6 => Sys2Proof.Machine.execLdCRaw6 s
  | .ldCRaw7 => Sys2Proof.Machine.execLdCRaw7 s
  | .ldCRaw8 => Sys2Proof.Machine.execLdCRaw8 s
  | .ldCRaw9 => Sys2Proof.Machine.execLdCRaw9 s
  | .ldCRaw10 => Sys2Proof.Machine.execLdCRaw10 s
  | .ldCRaw11 => Sys2Proof.Machine.execLdCRaw11 s

end Sys2Proof.Machine
end

