-- ==== Sys2Proof/Machine/Sequencer.lean ====
section
/-! DEFINITION. Who moves and what a turn does: the sequencer's next load or closing step, a caller's command,
an event outside the block (42_enumerator.md R192, 20_memory.md R77, R79). Step.lean only calls this file. -/

namespace Sys2Proof.Machine

/-- The closing step of a decode. For a `DECODE` command: the result on REC and `SEQ` IDLE (41_decoder.md R187).
Inside a scan: one of 42_enumerator.md R193 to R196. -/
def conclude (s : State) : Host.Outcome State Fault Refusal :=
  match decodeOutcome s with
  | .error f => .fault f
  | .ok r =>
    match s.seq with
    | .idle => .next s
    | .decoding => .next ((s.report (.result r)).setSeq .idle)
    | .enumerating => .next (scanStep r s)

/-- Whether an instruction presented now is accepted: an access needs `LOCK` 0 (20_memory.md R79), `DECODE` and
`ENUM` need `SEQ` IDLE (10_state.md R22). R22 says of accesses "from other callers" that `SEQ` does not gate them;
that it gates none of the issuer whose own `DECODE` or `ENUM` is running either is a DESIGN CHOICE (log 28). -/
def accepts (i : Instr) (s : State) : Bool :=
  match i with
  | .decode _ _ _ => s.seq == .idle
  | .enum => s.seq == .idle
  | _ => !s.lock

/-- The sequencer's turn: nothing while IDLE; otherwise the next load of the running decode, looked up in the
micro-operation table by its key, or the closing step. A load waits while `LOCK` is 1. -/
def sequencerTurn (s : State) : Host.Outcome State Fault Refusal :=
  if s.seq = .idle then .next s
  else
    match s.nextKey with
    | none => conclude s
    | some k =>
      match decodeKey k with
      | .ok i => if accepts i s then exec i s else .next s
      | .error r => .refused (.noMicroOp r)

/-- A caller's turn: the command at the head of what it presents on CMD, if it is whole and is accepted; a word
that is a reserved encoding is refused (30_encoding.md R104). A command that is not accepted stays presented. The
issuer of a running `DECODE` or `ENUM` has its turns as any other caller (log 28). -/
def callerTurn (n : Nat) (s : State) : Host.Outcome State Fault Refusal :=
  match decodeCmd (s.queue n) with
  | .error .noCommand => .next s
  | .error .missingValue => .next s
  | .error r => .refused (.reservedCommand r)
  | .ok (i, rest) => if accepts i s then exec i (s.accept n rest) else .next s

/-- One turn. -/
def takeTurn (t : Turn) (s : State) : Host.Outcome State Fault Refusal :=
  match t with
  | .sequencer => sequencerTurn s
  | .caller n => callerTurn n s
  | .outside e =>
    match outsideEvent e s with
    | .goOn s' => .next s'
    | .wasReset s' => .next s'
    | .refused r => .refused r

/-- Whether the sequencer has a step. -/
def sequencerReady (s : State) : Bool :=
  s.seq != .idle && (s.nextKey.isNone || !s.lock)

/-- Whether caller `n` has a step: it presents a whole command that is accepted, or a reserved word. -/
def callerReady (s : State) (n : Nat) : Bool :=
  match decodeCmd (s.queue n) with
  | .error .noCommand => false
  | .error .missingValue => false
  | .error _ => true
  | .ok (i, _) => accepts i s

/-- The agents that have a step now. -/
def readyTurns (s : State) : List Turn :=
  (if sequencerReady s then [.sequencer] else []) ++
    ((List.range s.callers.length).filter (callerReady s)).map .caller

/-- The next turn: the scheduled one; where none is scheduled, the one agent that has a step, and where several
have, the one a free value picks ("Which of several held requesters is granted next is OPEN",
20_memory.md R79; log 9). No turn: the block waits for a command (70_reset_and_hazards.md R232). -/
def chooseTurn (s : State) : Option (Turn × State) :=
  match s.turns with
  | t :: _ => some (t, s.nextTurn)
  | [] =>
    match readyTurns s with
    | [] => none
    | [t] => some (t, s)
    | t :: ts => some ((t :: ts).getD (Config.freeGrant s.draws % (ts.length + 1)) t, s.nextDraw)

/-- Presents the words of one command, alone, on caller 0's CMD queue and gives it the next turn; what would
hold the command is cleared (log 16). -/
def State.presentCommand (s : State) (ws : List Word) : State :=
  let needsIdle : Bool := match decodeCmd ws with
    | .ok (.decode _ _ _, _) => true
    | .ok (.enum, _) => true
    | _ => false
  { s with
    callers := ws :: s.callers.tail
    turns := .caller 0 :: s.turns
    lock := false
    seq := if needsIdle then .idle else s.seq }

/-- The dwords a decode must have loaded before the load of latch `k` under a code: a mask for `RAWV`. -/
def loadedBefore (code : BitVec 7) (k : Nat) : BitVec 16 :=
  ((([0, 1, 2, 3] : List (Fin 16)) ++ groupLoads code).filter (fun j => j.val < k)).foldl
    (fun m j => m ||| (1#16 <<< j.val)) 0

/-- Puts the sequencer at the micro-operation with the key `{code, 4k}`: a decode is running, everything before
it has been loaded, the function is present and has that layout code; the sequencer has the next turn (log 16). -/
def State.presentKey (s : State) (key : Key) : State :=
  let code : BitVec 7 := key.extractLsb' 8 7
  let k : Nat := (key.extractLsb' 2 6).toNat
  let x0 : Word := if presentOf s.raw[0] then s.raw[0] else 0
  let x3 : Word := (s.raw[3] &&& 0xFF80FFFF#32) ||| (code.zeroExtend 32 <<< 16)
  { s with
    turns := .sequencer :: s.turns
    lock := false
    seq := if s.seq = .idle then .decoding else s.seq
    rawv := loadedBefore code k
    raw := if k ≤ 3 then s.raw.set 0 x0 else (s.raw.set 0 x0).set 3 x3 }

end Sys2Proof.Machine
end

