-- ==== Sys2Proof/Machine/Step.lean ====
section
/-! DEFINITION. One step of the machine: the next turn is taken, or the block waits. And the host's way of
placing one instruction where the next step runs it. -/

namespace Sys2Proof.Machine

def step (s : State) : Host.Outcome State Fault Refusal :=
  match chooseTurn s with
  | none => .next s
  | some (t, s') => takeTurn t s'

/-- The instruction whose bits are `w` is the one the very next step runs: a command is presented on CMD, a key
is where the sequencer stands (log 16). -/
def State.withFetchWord (s : State) (nbits w : Nat) : State :=
  match tableEncoded nbits w with
  | none => s
  | some (.cmd ws) => s.presentCommand ws
  | some (.key k) => s.presentKey k

end Sys2Proof.Machine
end

