-- ==== Sys2Proof/Safety.lean ====
section
/-! DEFINITION. What counts as a safe state and a safe run, in the terms the statements use. -/

namespace Sys2Proof.Machine

/-- Nothing outside the block happens inside the next pair: no rogue context, no reset (the launch premise of
60_exceptions.md R223). -/
def State.undisturbed (s : State) : Prop := s.mids.headD [] = []

/-- Nobody but the sequencer has anything to do: no turn is scheduled, no caller presents a word, nothing is
scheduled inside a pair, and no pair is open. -/
structure State.Alone (s : State) : Prop where
  turns : s.turns = []
  callers : ∀ q ∈ s.callers, q = []
  mids : s.mids = []
  lock : s.lock = false

/-- The order of the loads of a decode under a layout code, as latch indices (41_decoder.md R141, R183). -/
def loadOrder (code : BitVec 7) : List (Fin 16) := [0, 1, 2, 3] ++ groupLoads code

/-- The `RAWV` of a decode that has loaded these latches. -/
def loadedMask (ks : List (Fin 16)) : BitVec 16 := ks.foldr (fun k m => m ||| (1#16 <<< k.val)) 0

/-- `RAWV` is what a decode leaves that has done its first loads in order; beyond the first the function is
present (41_decoder.md R141, R184; 95_test_vectors.md V7). -/
def State.loadedInOrder (s : State) : Prop :=
  ∃ n ≤ 16, s.rawv = loadedMask ((loadOrder (codeOf s.raw[3])).take n) ∧
    (1 < n → presentOf s.raw[0] = true)

/-- The invariant of the machine between steps. -/
structure State.Inv (s : State) : Prop where
  /-- `LOCK` is never held across two pairs (10_state.md R21). -/
  unlocked : s.lock = false
  /-- Configuration space keeps its canonical form. -/
  memory : s.mem.wf
  /-- The two ports are distinct (00_scope.md R6). -/
  ports : s.cam.addrPort ≠ s.cam.dataPort
  /-- The reserved bits of `CONFIG_ADDRESS`, 30:24 at the default enable bit, are 0 (30_encoding.md R102, 93 U16). -/
  camReserved : s.configAddress &&& camReservedBits s.cam = 0
  /-- During a scan the decoder is bound to the function the scan is at (42_enumerator.md R192). -/
  target : s.seq = .enumerating → s.tgt = s.scan
  /-- Outside a scan `SCAN` is 0 (42_enumerator.md R197). -/
  scanAtRest : s.seq ≠ .enumerating → s.scan = 0
  /-- A function 1 to 7 is visited only when `MF` is 1 (42_enumerator.md R194). -/
  probed : s.seq = .enumerating → fnOf s.scan ≠ 0 → s.mf = true
  /-- Loads happen in order, each once (41_decoder.md R141, R142). -/
  loads : s.loadedInOrder
  /-- The Accessor issues port operations only while `LOCK` is 1 (40_accessor.md R124, R125). -/
  ioLocked : ∀ e ∈ s.ioLog, e.by_ = .accessor → e.locked = true

/-- The addresses of the records emitted since the last `ENUM` was accepted, newest first. -/
def passAddrs : List RecEvent → List FnAddr
  | [] => []
  | .began :: _ => []
  | .emit r :: es => r.address :: passAddrs es
  | .result _ :: es => passAddrs es
  | .done :: es => passAddrs es

/-- Function 0 of the device of `a`. -/
def functionZeroOf (a : FnAddr) : FnAddr := a &&& 0xFFF8#16

/-- The records of the pass stand in strictly ascending address order (newest first: descending), all of them below the
function the scan is at, and with function 0 of every device a record is from (42_enumerator.md R198). -/
structure State.ScanOrdered (s : State) : Prop where
  ascending : (passAddrs s.recOut).Pairwise (fun newer older => older.toNat < newer.toNat)
  functionZero : ∀ a ∈ passAddrs s.recOut, functionZeroOf a ∈ passAddrs s.recOut
  below : s.seq = .enumerating →
    s.tgt = s.scan ∧ (∀ a ∈ passAddrs s.recOut, a.toNat < s.scan.toNat) ∧
      (fnOf s.scan ≠ 0 → functionZeroOf s.scan ∈ passAddrs s.recOut)

/-- What a finished decode of function `a` returns, from the latches it leaves (41_decoder.md R141, R185). -/
def resultOf (a : FnAddr) (x : Vector Word 16) : DecodeResult :=
  if presentOf x[0] then .present (assemble a x (codeOf x[3]) (mfRecOf x[3])) else .absent

/-- The latches a decode loads, in order, from what it finds (41_decoder.md R183). -/
def loadsOf (x : Vector Word 16) : List (Fin 16) :=
  if presentOf x[0] then loadOrder (codeOf x[3]) else [0]

/-- What the loads of latches `ks` of function `a` put on IO, newest first: for each `WA`, then `RD`
(41_decoder.md R142). -/
def loadTrace (c : CamParams) (a : FnAddr) (x : Vector Word 16) (ks : List (Fin 16)) : List IoEvent :=
  (ks.flatMap (fun k =>
    [⟨.accessor, true, .wa (camEnc c (busOf a) (devOf a) (fnOf a) (BitVec.ofNat 8 (4 * k.val)))⟩,
     ⟨.accessor, true, .rd x[k]⟩])).reverse

/-- Whether the environment answers the identifier register of `a` as present, at draw `n`. -/
def State.answersPresent (s : State) (n : Nat) (a : FnAddr) : Bool :=
  presentOf (s.mem.dwordAt s.background n (cfgAddr (busOf a) (devOf a) (fnOf a) 0x00))

/-- Whether the environment answers the header-type register of `a` with the multifunction bit, at draw `n`. -/
def State.answersMultifunction (s : State) (n : Nat) (a : FnAddr) : Bool :=
  mfRecOf (s.mem.dwordAt s.background n (cfgAddr (busOf a) (devOf a) (fnOf a) 0x0C))

/-- Presence of every function, and the multifunction bit of a present one, do not depend on the draw. -/
def State.steadyAnswers (s : State) : Prop :=
  ∀ n n' a, s.answersPresent n a = s.answersPresent n' a ∧
    (s.answersPresent n a = true → s.answersMultifunction n a = s.answersMultifunction n' a)

/-- What a scan finds (42_enumerator.md R191): a present function that is function 0, or belongs to a device
whose function 0 is present and multifunction. -/
def State.discoverable (s : State) (a : FnAddr) : Prop :=
  s.answersPresent 0 a = true ∧
    (fnOf a = 0 ∨
      (s.answersPresent 0 (functionZeroOf a) = true ∧
        s.answersMultifunction 0 (functionZeroOf a) = true))

/-- A row of the micro-operation table as 41_decoder.md R143 to R181 give it: the layout code (`none`: any), the
register offset `o`, the latch index `k`. -/
structure MicroOp where
  op : Instr
  code : Option (BitVec 7)
  offset : BitVec 8
  latch : Fin 16

/-- The common loads. -/
def microOpsCommon : List MicroOp :=
  [⟨.ldId, none, 0x00, 0⟩,
   ⟨.ldCmdsts, none, 0x04, 1⟩,
   ⟨.ldClass, none, 0x08, 2⟩,
   ⟨.ldHdr, none, 0x0C, 3⟩]

/-- The Standard loads. -/
def microOpsStandard : List MicroOp :=
  [⟨.ldSBar0, some 0x00, 0x10, 4⟩,
   ⟨.ldSBar1, some 0x00, 0x14, 5⟩,
   ⟨.ldSBar2, some 0x00, 0x18, 6⟩,
   ⟨.ldSBar3, some 0x00, 0x1C, 7⟩,
   ⟨.ldSBar4, some 0x00, 0x20, 8⟩,
   ⟨.ldSBar5, some 0x00, 0x24, 9⟩,
   ⟨.ldSCis, some 0x00, 0x28, 10⟩,
   ⟨.ldSSubsys, some 0x00, 0x2C, 11⟩,
   ⟨.ldSRom, some 0x00, 0x30, 12⟩,
   ⟨.ldSCap, some 0x00, 0x34, 13⟩,
   ⟨.ldSInt, some 0x00, 0x3C, 15⟩]

/-- The PciBridge loads. -/
def microOpsBridge : List MicroOp :=
  [⟨.ldBBar0, some 0x01, 0x10, 4⟩,
   ⟨.ldBBar1, some 0x01, 0x14, 5⟩,
   ⟨.ldBBus, some 0x01, 0x18, 6⟩,
   ⟨.ldBIo, some 0x01, 0x1C, 7⟩,
   ⟨.ldBMem, some 0x01, 0x20, 8⟩,
   ⟨.ldBPmem, some 0x01, 0x24, 9⟩,
   ⟨.ldBPbaseu, some 0x01, 0x28, 10⟩,
   ⟨.ldBPlimu, some 0x01, 0x2C, 11⟩,
   ⟨.ldBIou, some 0x01, 0x30, 12⟩,
   ⟨.ldBCap, some 0x01, 0x34, 13⟩,
   ⟨.ldBRom, some 0x01, 0x38, 14⟩,
   ⟨.ldBInt, some 0x01, 0x3C, 15⟩]

/-- The CardBus loads. -/
def microOpsCardBus : List MicroOp :=
  [⟨.ldCRaw0, some 0x02, 0x10, 4⟩,
   ⟨.ldCRaw1, some 0x02, 0x14, 5⟩,
   ⟨.ldCRaw2, some 0x02, 0x18, 6⟩,
   ⟨.ldCRaw3, some 0x02, 0x1C, 7⟩,
   ⟨.ldCRaw4, some 0x02, 0x20, 8⟩,
   ⟨.ldCRaw5, some 0x02, 0x24, 9⟩,
   ⟨.ldCRaw6, some 0x02, 0x28, 10⟩,
   ⟨.ldCRaw7, some 0x02, 0x2C, 11⟩,
   ⟨.ldCRaw8, some 0x02, 0x30, 12⟩,
   ⟨.ldCRaw9, some 0x02, 0x34, 13⟩,
   ⟨.ldCRaw10, some 0x02, 0x38, 14⟩,
   ⟨.ldCRaw11, some 0x02, 0x3C, 15⟩]

/-- The 39 micro-operations of 30_encoding.md R101. -/
def microOps : List MicroOp :=
  microOpsCommon ++ microOpsStandard ++ microOpsBridge ++ microOpsCardBus

/-- `i` performs one port-operation pair from `s`, and `w` is the address word the Accessor writes for it: a `CFGRD`, a `CFGWR`
or a load (40_accessor.md R124, R125, 41_decoder.md R142). -/
def State.pairWord (s : State) (i : Instr) (w : Word) : Prop :=
  (∃ b d f r, i = .cfgrd b d f r ∧ w = camEnc s.cam b d f r) ∨
    (∃ b d f r v, i = .cfgwr b d f r v ∧ w = camEnc s.cam b d f r) ∨
    ∃ row ∈ microOps, i = row.op ∧ w = camEnc s.cam (busOf s.tgt) (devOf s.tgt) (fnOf s.tgt) row.offset

/-- A reserved command word (30_encoding.md R104): bits 31:26 not 0, or `DECODE` with `reg` not 0, or `ENUM` with
any of bits 23:0 set. -/
def reservedWord (w : Word) : Prop :=
  w.extractLsb' 26 6 ≠ 0#6 ∨ (w.extractLsb' 24 2 = 2#2 ∧ w.extractLsb' 0 8 ≠ 0#8) ∨
    (w.extractLsb' 24 2 = 3#2 ∧ w.extractLsb' 0 24 ≠ 0#24)

end Sys2Proof.Machine
end

