-- ==== Sys2Proof/Certificates/Slice0/Obligations.lean ====
section
/-! DEFINITION. The statements for the provers. Each docstring names the rule of spec/ it formalises; where a clause is the
model's own choice, the docstring names the log entry. -/

open Sys2Proof Sys2Proof.Machine

/-! ### Encodings -/

/-- Every instruction, with every operand at every value, decodes back from its encoding (30_encoding.md R93, R95). -/
def Obligations.DecodeOfEncodeIsTheInstruction : Prop :=
  ∀ i : Instr, decode (encode i) = .ok i

/-- A command read from CMD is encoded by exactly the words that were read: no bit of a command word is dropped
(30_encoding.md R93, R94). -/
def Obligations.DecodedCommandEncodesToItsWords : Prop :=
  ∀ (ws rest : List Word) (i : Instr), decodeCmd ws = .ok (i, rest) →
    ∃ used, ws = used ++ rest ∧ encode i = .cmd used

/-- No two rows of the key table match the same key (30_encoding.md R95). -/
def Obligations.MicroOpRowsAreDisjoint : Prop :=
  keyTable.Pairwise (fun r r' => (r.pattern ^^^ r'.pattern) &&& r.mask &&& r'.mask ≠ 0#15)

/-- The keys that have a row, and which: a key {code, offset} decodes to a micro-operation exactly when the table of
41_decoder.md R143 to R181 has a row with that offset and that code, or with that offset and any code
(30_encoding.md R95, R101). -/
def Obligations.KeyDecodesExactlyByTheTable : Prop :=
  ∀ (code : BitVec 7) (offset : BitVec 8) (i : Instr),
    decodeKey (keyOf code offset) = .ok i ↔
      ∃ row ∈ microOps, row.op = i ∧ row.offset = offset ∧ (row.code = none ∨ row.code = some code)

/-- A reserved word at the head of a caller's queue is refused, whatever the state; any other word, with a value word
behind it, is a command. The refusal is the spec's decision D25 (30_encoding.md R104; log 14). -/
def Obligations.ReservedWordsAreExactlyTheRefused : Prop :=
  (∀ (s : State) (n : Nat) (w : Word) (rest : List Word), s.callers.getD n [] = w :: rest → reservedWord w →
    ∃ r, callerTurn n s = .refused (.reservedCommand r)) ∧
  (∀ (w v : Word) (rest : List Word), ¬ reservedWord w →
    ∃ i rest', decodeCmd (w :: v :: rest) = .ok (i, rest'))

/-- Words and keys of 95_test_vectors.md V2 and opcode_table.json decode to the instructions they stand for. -/
def Obligations.SampleWordsDecode : Prop :=
  decodeCmd [0x00011310#32] = .ok (.cfgrd 1 2 3 0x10, []) ∧
  decodeCmd [0x01011310#32, 0xFFFFFFFF#32] = .ok (.cfgwr 1 2 3 0x10 0xFFFFFFFF, []) ∧
  decodeCmd [0x02011300#32] = .ok (.decode 1 2 3, []) ∧
  decodeCmd [0x03000000#32] = .ok (.enum, []) ∧
  decodeCmd [0x00011313#32] = .ok (.cfgrd 1 2 3 0x13, []) ∧
  decodeKey 0x000C#15 = .ok .ldHdr ∧ decodeKey 0x7F0C#15 = .ok .ldHdr ∧
  decodeKey 0x003C#15 = .ok .ldSInt ∧ decodeKey 0x0118#15 = .ok .ldBBus ∧
  decodeKey 0x0238#15 = .ok .ldCRaw10 ∧ decodeKey 0x0038#15 = .error (.noRow 0x0038#15)

/-- The bits of the address word the block writes, for every value of the parameters (00_scope.md R6; 30_encoding.md R90, R91,
R102, R103): of bits 31:24 `CAM_ENABLE` alone, then the fields, bits 1:0 clear; and `CAMDEC` reads them back and looks at no other bit
(40_accessor.md R122; that its enable bit follows `CAM_ENABLE` is DEDUCED, log 10). Bit 31 as the default of the enable bit is
general knowledge of the spec (its decision D2; log 10). -/
def Obligations.AddressWordFields : Prop :=
  (∀ (c : CamParams) (b : BitVec 8) (d : BitVec 5) (f : BitVec 3) (r : BitVec 8),
    camEnc c b d f r &&& 0xFF000000#32 = camEnable c ∧
    (camEnc c b d f r).extractLsb' 16 8 = b ∧ (camEnc c b d f r).extractLsb' 11 5 = d ∧
    (camEnc c b d f r).extractLsb' 8 3 = f ∧ (camEnc c b d f r).extractLsb' 2 6 = r.extractLsb' 2 6 ∧
    (camEnc c b d f r).extractLsb' 0 2 = 0#2 ∧
    camDec c (camEnc c b d f r) = ⟨true, b, d, f, r &&& 0xFC#8⟩) ∧
  (∀ (c : CamParams) (w w' : Word),
    w &&& (camEnable c ||| 0x00FFFFFC#32) = w' &&& (camEnable c ||| 0x00FFFFFC#32) → camDec c w = camDec c w') ∧
  camEnable Config.cam = 0x80000000#32

/-- 40_accessor.md R122: what `CAMDEC` takes from a word, that it ignores bits 30:24 and 1:0 and so is not injective,
that it inverts `CAMENC` up to the low two bits of the offset, and the rule's example. R122 writes the enable bit as bit 31,
so all of this is at the parameters' defaults (00_scope.md R6). -/
def Obligations.AddressWordRoundTrip : Prop :=
  (∀ w : Word, camDec Config.cam w = ⟨w.getLsbD 31, w.extractLsb' 16 8, w.extractLsb' 11 5, w.extractLsb' 8 3,
    w.extractLsb' 0 8 &&& 0xFC#8⟩) ∧
  (∀ w w' : Word, w &&& 0x80FFFFFC#32 = w' &&& 0x80FFFFFC#32 → camDec Config.cam w = camDec Config.cam w') ∧
  (∃ w w' : Word, w ≠ w' ∧ camDec Config.cam w = camDec Config.cam w') ∧
  (∀ (b : BitVec 8) (d : BitVec 5) (f : BitVec 3) (r : BitVec 8),
    camDec Config.cam (camEnc Config.cam b d f r) = ⟨true, b, d, f, r &&& 0xFC#8⟩) ∧
  camDec Config.cam 0x80011310#32 = ⟨true, 1, 2, 3, 0x10⟩

/-- "The encoding is injective on (bus, dev, fn, reg >> 2)", and the low two bits of the offset do not enter the word
(30_encoding.md R99). -/
def Obligations.AddressWordsEqualExactlyForOneDword : Prop :=
  ∀ (c : CamParams) (b b' : BitVec 8) (d d' : BitVec 5) (f f' : BitVec 3) (r r' : BitVec 8),
    camEnc c b d f r = camEnc c b' d' f' r' ↔ b = b' ∧ d = d' ∧ f = f' ∧ r >>> 2 = r' >>> 2

/-! ### Configuration space -/

/-- 20_memory.md R63: of the value a `CFGRD` returns, byte j is the configuration byte at offset j of the dword, and of a
16-bit field the lower-addressed byte is the less significant. -/
def Obligations.ReadValuesAreLittleEndian : Prop :=
  ∀ (s : State) (b : BitVec 8) (d : BitVec 5) (f : BitVec 3) (r : BitVec 8),
    s.lock = false → s.mids.headD [] = [] →
    let byteAtOffset (j : Nat) : Byte :=
      s.mem.byteAt s.background s.draws (cfgAddr b d f (r &&& 0xFC#8) + BitVec.ofNat 24 j)
    ∃ t v, exec (.cfgrd b d f r) s = .next t ∧ t.rspOut = (s.issuer, .value v) :: s.rspOut ∧
      (∀ j < 4, v.extractLsb' (8 * j) 8 = byteAtOffset j) ∧
      (∀ j < 2, v.extractLsb' (16 * j) 16 = byteAtOffset (2 * j + 1) ++ byteAtOffset (2 * j))

/-- The one obligation of the environment (20_memory.md R74): a function that does not exist answers register 0x00 with
0xFFFF in the low half, whatever is drawn. That a function exists when the environment lists a byte of it is the model's
convention (log 1). -/
def Obligations.MissingFunctionAnswersTheSentinel : Prop :=
  ∀ (m : Memory) (bg : Option Byte) (n : Nat) (b : BitVec 8) (d : BitVec 5) (f : BitVec 3),
    m.hasFunction (fnAddr b d f) = false →
    (m.dwordAt bg n (cfgAddr b d f 0x00)).extractLsb' 0 16 = 0xFFFF#16

/-- Device changes and nothing else: after a list of changes a byte that none names is listed as before, and a byte
holds what the last change of it gave (10_state.md R33; log 1). -/
def Obligations.DeviceChangesTouchOnlyTheirBytes : Prop :=
  ∀ (m : Memory) (cs : List Change) (y : CfgAddr), m.wf →
    (m.change cs).wf ∧
    ((∀ c ∈ cs, c.1 ≠ y) → (m.change cs).get? y.toNat = m.get? y.toNat) ∧
    (∀ before after v, cs = before ++ (y, v) :: after → (∀ c ∈ after, c.1 ≠ y) →
      (m.change cs).get? y.toNat = v)

/-! ### The Accessor -/

/-- `CFGRD` (40_accessor.md R124): the whole next state. Two port operations under `LOCK`, always both, the value of the
selected dword on RSP unmodified, `CONFIG_ADDRESS` left at the pair's word, devices as they react (20_memory.md R68, R71);
everything else as before. -/
def Obligations.CfgrdReturnsTheSelectedDword : Prop :=
  ∀ (s : State) (b : BitVec 8) (d : BitVec 5) (f : BitVec 3) (r : BitVec 8),
    s.lock = false → s.mids.headD [] = [] →
    let w := camEnc s.cam b d f r
    let v := s.mem.dwordAt s.background s.draws (cfgAddr b d f (r &&& 0xFC#8))
    exec (.cfgrd b d f r) s = .next
      { s with
        configAddress := w
        mem := s.mem.change (s.reactions.headD [])
        draws := s.draws + 1
        reactions := s.reactions.tail
        mids := s.mids.tail
        ioLog := ⟨.accessor, true, .rd v⟩ :: ⟨.accessor, true, .wa w⟩ :: s.ioLog
        rspOut := (s.issuer, .value v) :: s.rspOut }

/-- `CFGWR` (40_accessor.md R125): the whole next state. All 32 bits of the value go to the data port under `LOCK`,
completion on RSP; the devices change as they react to that write, which is scheduled or a free value (20_memory.md R75;
log 3); everything else as before. -/
def Obligations.CfgwrSendsTheWholeValue : Prop :=
  ∀ (s : State) (b : BitVec 8) (d : BitVec 5) (f : BitVec 3) (r : BitVec 8) (v : Word),
    s.lock = false → s.mids.headD [] = [] →
    let w := camEnc s.cam b d f r
    let reaction :=
      s.reactions.headD (Config.freeReaction s.draws ((cfgAddr b d f (r &&& 0xFC#8)).extractLsb' 2 22) v)
    exec (.cfgwr b d f r v) s = .next
      { s with
        configAddress := w
        mem := s.mem.change reaction
        draws := s.draws + 1
        reactions := s.reactions.tail
        mids := s.mids.tail
        ioLog := ⟨.accessor, true, .wd v⟩ :: ⟨.accessor, true, .wa w⟩ :: s.ioLog
        rspOut := (s.issuer, .completion) :: s.rspOut }

/-- Configuration space changes only by what the devices do (20_memory.md R69, R71, R75). A `CFGRD` or a load to which no device
reacts leaves every byte reading as before, at every draw; whatever the reaction to any access is, a byte it does not name is listed
as before. That a read with no scheduled reaction changes nothing is log 3. -/
def Obligations.AccessesChangeOnlyWhatDevicesChange : Prop :=
  ∀ s : State, s.lock = false → s.mids.headD [] = [] → s.mem.wf →
    (∀ b d f r, ∃ t, exec (.cfgrd b d f r) s = .next t ∧
      (s.reactions.headD [] = [] → ∀ n y, t.mem.byteAt t.background n y = s.mem.byteAt s.background n y) ∧
      (∀ y : CfgAddr, (∀ c ∈ s.reactions.headD [], c.1 ≠ y) → t.mem.get? y.toNat = s.mem.get? y.toNat)) ∧
    (∀ row ∈ microOps, ∃ t, exec row.op s = .next t ∧
      (s.reactions.headD [] = [] → ∀ n y, t.mem.byteAt t.background n y = s.mem.byteAt s.background n y) ∧
      (∀ y : CfgAddr, (∀ c ∈ s.reactions.headD [], c.1 ≠ y) → t.mem.get? y.toNat = s.mem.get? y.toNat)) ∧
    (∀ b d f r v, ∃ t, exec (.cfgwr b d f r v) s = .next t ∧
      ∀ y : CfgAddr,
        (∀ c ∈ s.reactions.headD
          (Config.freeReaction s.draws ((cfgAddr b d f (r &&& 0xFC#8)).extractLsb' 2 22) v), c.1 ≠ y) →
        t.mem.get? y.toNat = s.mem.get? y.toNat)

/-- A register offset that is not a multiple of 4 accesses the containing dword, all of it (20_memory.md R66; the spec's
decision D8; log 13): the command does what the masked one does. -/
def Obligations.MisalignedOffsetAccessesItsDword : Prop :=
  ∀ (s : State) (b : BitVec 8) (d : BitVec 5) (f : BitVec 3) (r : BitVec 8) (v : Word),
    exec (.cfgrd b d f r) s = exec (.cfgrd b d f (r &&& 0xFC#8)) s ∧
    exec (.cfgwr b d f r v) s = exec (.cfgwr b d f (r &&& 0xFC#8) v) s

/-- What `CFGRD` and `CFGWR` leave alone, whatever happens between their port operations short of a reset: the decoder's
and the enumerator's state, the records, what is still presented and scheduled (10_state.md R23, R25; 40_accessor.md R124, R125).
RSP gets the one response of the command behind all that passed there before, and nothing while the requester is held (log 12). -/
def Obligations.AccessorCommandsLeaveTheSequencerAlone : Prop :=
  ∀ (s t : State) (b : BitVec 8) (d : BitVec 5) (f : BitVec 3) (r : BitVec 8) (v : Word),
    OutsideEvent.reset ∉ s.mids.headD [] →
    (exec (.cfgrd b d f r) s = .next t ∨ exec (.cfgwr b d f r v) s = .next t) →
    t.lock = s.lock ∧ t.seq = s.seq ∧ t.tgt = s.tgt ∧ t.raw = s.raw ∧ t.rawv = s.rawv ∧ t.scan = s.scan ∧
      t.mf = s.mf ∧ t.cam = s.cam ∧ t.background = s.background ∧ t.recOut = s.recOut ∧ t.callers = s.callers ∧
      t.turns = s.turns ∧ t.issuer = s.issuer ∧
      (s.lock = true → t.rspOut = s.rspOut) ∧
      (s.lock = false → exec (.cfgrd b d f r) s = .next t → ∃ x, t.rspOut = (s.issuer, .value x) :: s.rspOut) ∧
      (s.lock = false → exec (.cfgwr b d f r v) s = .next t → t.rspOut = (s.issuer, .completion) :: s.rspOut)

/-- While `LOCK` is 1 a requester is held: it has no step (20_memory.md R79; that holding is the state unchanged is log 12). -/
def Obligations.RequestersAreHeldWhileLocked : Prop :=
  ∀ s : State, s.lock = true →
    (∀ b d f r, exec (.cfgrd b d f r) s = .next s) ∧
    (∀ b d f r v, exec (.cfgwr b d f r v) s = .next s) ∧
    (∀ row ∈ microOps, exec row.op s = .next s)

/-- The broken pair (20_memory.md R70, 70_reset_and_hazards.md R239): another context writes the address port between
the two operations. A read returns, and a load latches, the register that context selected; a write reaches that register; nothing
reports it; `CONFIG_ADDRESS` keeps the other word. -/
def Obligations.BrokenPairReachesTheOtherRegister : Prop :=
  ∀ (s : State) (b : BitVec 8) (d : BitVec 5) (f : BitVec 3) (r : BitVec 8) (w' : Word),
    s.lock = false → s.mids.headD [] = [.port (.writeAddr w')] → w' &&& camReservedBits s.cam = 0 →
    (camDec s.cam w').en = true →
    let other := cfgAddr (w'.extractLsb' 16 8) (w'.extractLsb' 11 5) (w'.extractLsb' 8 3) (w'.extractLsb' 0 8 &&& 0xFC#8)
    let v' := s.mem.dwordAt s.background s.draws other
    let broken (w : Word) (op : PortOp) (cs : List Change) : State :=
      { s with
        configAddress := w'
        mem := s.mem.change cs
        draws := s.draws + 1
        reactions := s.reactions.tail
        mids := s.mids.tail
        ioLog := ⟨.accessor, true, op⟩ :: ⟨.outside, true, .wa w'⟩ :: ⟨.accessor, true, .wa w⟩ :: s.ioLog }
    exec (.cfgrd b d f r) s = .next
      { broken (camEnc s.cam b d f r) (.rd v') (s.reactions.headD []) with
        rspOut := (s.issuer, .value v') :: s.rspOut } ∧
    (∀ v : Word, exec (.cfgwr b d f r v) s = .next
      { broken (camEnc s.cam b d f r) (.wd v)
          (s.reactions.headD (Config.freeReaction s.draws (other.extractLsb' 2 22) v)) with
        rspOut := (s.issuer, .completion) :: s.rspOut }) ∧
    (∀ row ∈ microOps, exec row.op s = .next
      { broken (camEnc s.cam (busOf s.tgt) (devOf s.tgt) (fnOf s.tgt) row.offset) (.rd v') (s.reactions.headD []) with
        raw := s.raw.set row.latch v'
        rawv := s.rawv ||| (1#16 <<< row.latch.val) })

/-- Reset inside a pair of a `CFGRD`, a `CFGWR` or a load, also behind other events inside it (70_reset_and_hazards.md R234, R231;
the spec's decision D16): the Accessor's data-port operation is not issued and nothing is written by it, `LOCK` returns to 0,
`CONFIG_ADDRESS` keeps the word that was written last, no response is given, the block is reset. `u` is how things stand when the
reset comes. -/
def Obligations.ResetInsideAPairAbandonsIt : Prop :=
  ∀ (s u : State) (i : Instr) (w : Word) (before after : List OutsideEvent),
    s.pairWord i w → s.lock = false → s.mids.headD [] = before ++ .reset :: after →
    interlude before (openPair w s).nextMids = .goOn u →
    ∃ t, exec i s = .next t ∧
      t.lock = false ∧ t.seq = .idle ∧ t.rawv = 0 ∧ t.scan = 0 ∧ t.mf = false ∧
      t.configAddress = u.configAddress ∧ t.mem = u.mem ∧ t.ioLog = u.ioLog ∧
      t.rspOut = s.rspOut ∧ t.recOut = s.recOut ∧
      (∃ new, t.ioLog = new ++ ⟨.accessor, true, .wa w⟩ :: s.ioLog ∧ ∀ e ∈ new, e.by_ = .outside) ∧
      (before = [] →
        t.configAddress = w ∧ t.mem = s.mem ∧ t.ioLog = ⟨.accessor, true, .wa w⟩ :: s.ioLog)

/-- Pairs of two callers do not disturb each other (20_memory.md R77): where no device reacts and the environment fixes
what an unlisted byte reads as, two reads in a row give each its own register's value, the value it would get alone. -/
def Obligations.ReadPairsDoNotDisturbEachOther : Prop :=
  ∀ (s : State) (x : Byte) (b b' : BitVec 8) (d d' : BitVec 5) (f f' : BitVec 3) (r r' : BitVec 8),
    s.lock = false → s.mids = [] → s.reactions = [] → s.background = some x →
    ∃ t u u' v v', exec (.cfgrd b d f r) s = .next t ∧ exec (.cfgrd b' d' f' r') t = .next u ∧
      exec (.cfgrd b' d' f' r') s = .next u' ∧
      t.rspOut = (s.issuer, .value v) :: s.rspOut ∧
      u'.rspOut = (s.issuer, .value v') :: s.rspOut ∧
      u.rspOut = (s.issuer, .value v') :: (s.issuer, .value v) :: s.rspOut ∧
      u.configAddress = camEnc s.cam b' d' f' r'

/-- Port operations the block never issues and the spec does not model (20_memory.md R73, 93 U9, U16; log 15): from a context
outside, a read of the address port, a data-port operation while enable is 0, and an address word with reserved bits set are
refused, each by its own name. The same inside the pair of a `CFGRD`, a `CFGWR` or a load, behind whatever else happens there; and
where the address word left to the Accessor's own data-port operation has enable 0, the pair is refused. -/
def Obligations.UnmodelledPortOperationsAreRefused : Prop :=
  (∀ (s : State),
    takeTurn (.outside (.port .readAddr)) s = .refused .addressPortRead ∧
    ((camDec s.cam s.configAddress).en = false →
      takeTurn (.outside (.port .readData)) s = .refused (.dataPortDisabled s.configAddress) ∧
      ∀ v, takeTurn (.outside (.port (.writeData v))) s = .refused (.dataPortDisabled s.configAddress)) ∧
    (∀ w, w &&& camReservedBits s.cam ≠ 0 →
      takeTurn (.outside (.port (.writeAddr w))) s = .refused (.camReservedBits w))) ∧
  (∀ (s u : State) (i : Instr) (w : Word) (before : List OutsideEvent),
    s.pairWord i w → s.lock = false → interlude before (openPair w s).nextMids = .goOn u →
    (s.mids.headD [] = before → (camDec s.cam u.configAddress).en = false →
      exec i s = .refused (.dataPortDisabled u.configAddress)) ∧
    (∀ after, s.mids.headD [] = before ++ .port .readAddr :: after → exec i s = .refused .addressPortRead) ∧
    (∀ w' after, s.mids.headD [] = before ++ .port (.writeAddr w') :: after → w' &&& camReservedBits s.cam ≠ 0 →
      exec i s = .refused (.camReservedBits w')) ∧
    (∀ after, s.mids.headD [] = before ++ .port .readData :: after → (camDec s.cam u.configAddress).en = false →
      exec i s = .refused (.dataPortDisabled u.configAddress)) ∧
    (∀ v after, s.mids.headD [] = before ++ .port (.writeData v) :: after →
      (camDec s.cam u.configAddress).en = false → exec i s = .refused (.dataPortDisabled u.configAddress)))

/-! ### The micro-operations -/

/-- Every micro-operation (41_decoder.md R142, with the offset and latch of R143 to R181): the whole next state. One pair at
its own offset of `TGT`, the whole value latched unmodified in its own entry, its valid bit set; everything else as before. -/
def Obligations.LoadsLatchTheirRegister : Prop :=
  ∀ row ∈ microOps, ∀ s : State, s.lock = false → s.mids.headD [] = [] →
    let w := camEnc s.cam (busOf s.tgt) (devOf s.tgt) (fnOf s.tgt) row.offset
    let v := s.mem.dwordAt s.background s.draws (cfgAddr (busOf s.tgt) (devOf s.tgt) (fnOf s.tgt) row.offset)
    exec row.op s = .next
      { s with
        raw := s.raw.set row.latch v
        rawv := s.rawv ||| (1#16 <<< row.latch.val)
        configAddress := w
        mem := s.mem.change (s.reactions.headD [])
        draws := s.draws + 1
        reactions := s.reactions.tail
        mids := s.mids.tail
        ioLog := ⟨.accessor, true, .rd v⟩ :: ⟨.accessor, true, .wa w⟩ :: s.ioLog }

/-- What a load leaves alone, whatever happens between its port operations short of a reset (41_decoder.md R141, R142): `SEQ`,
`TGT`, `SCAN`, `MF`, every other latch and valid bit, RSP and REC. -/
def Obligations.LoadsLeaveEverythingElseAlone : Prop :=
  ∀ row ∈ microOps, ∀ s t : State, OutsideEvent.reset ∉ s.mids.headD [] → exec row.op s = .next t →
    t.lock = s.lock ∧ t.seq = s.seq ∧ t.tgt = s.tgt ∧ t.scan = s.scan ∧ t.mf = s.mf ∧
      (∀ j : Fin 16, j ≠ row.latch → t.raw[j] = s.raw[j] ∧ t.valid j = s.valid j) ∧
      t.cam = s.cam ∧ t.background = s.background ∧ t.rspOut = s.rspOut ∧ t.recOut = s.recOut ∧ t.callers = s.callers ∧
      t.turns = s.turns ∧ t.issuer = s.issuer

/-! ### The Decoder -/

/-- `DECODE` in IDLE is accepted: `SEQ`, `TGT`, `RAWV` as 41_decoder.md R141 and R187 say, nothing else; in any other phase it
is held (10_state.md R22, 60_exceptions.md R217). That accepting is one step is the model's (log 8). -/
def Obligations.DecodeIsAcceptedOnlyWhenIdle : Prop :=
  ∀ (s : State) (b : BitVec 8) (d : BitVec 5) (f : BitVec 3),
    (s.seq = .idle → exec (.decode b d f) s = .next { s with seq := .decoding, tgt := fnAddr b d f, rawv := 0 }) ∧
    (s.seq ≠ .idle → exec (.decode b d f) s = .next s)

/-- The next load (41_decoder.md R141, R183): none loaded yet, `LD_ID`; absent, none; present with the first n loads of its
layout's order done, the n-th of that order, and none after the last. That the key of a common load is formed with code 0 is the
model's choice (log 24), as is reading the position from `RAWV`; R141 and R183 give the order. -/
def Obligations.NextLoadFollowsTheOrder : Prop :=
  ∀ s : State,
    (s.rawv = 0 → s.nextKey = some (keyOf 0 0x00)) ∧
    (s.rawv.getLsbD 0 = true → s.raw[0].extractLsb' 0 16 = 0xFFFF#16 → s.nextKey = none) ∧
    (∀ n, 1 ≤ n → n ≤ 16 → s.raw[0].extractLsb' 0 16 ≠ 0xFFFF#16 →
      s.rawv = loadedMask ((loadOrder (codeOf s.raw[3])).take n) →
      s.nextKey = ((loadOrder (codeOf s.raw[3]))[n]?).map
        (fun k => keyOf (if n < 4 then 0 else codeOf s.raw[3]) (BitVec.ofNat 8 (4 * k.val))))

/-- The number and order of the reads of each outcome (41_decoder.md R183): 1, 4, 15, 16 or 16, at ascending offsets, 0x38 skipped
for a Standard header. -/
def Obligations.ReadsPerOutcome : Prop :=
  ∀ x : Vector Word 16,
    (loadsOf x).Pairwise (· < ·) ∧
    (presentOf x[0] = false → loadsOf x = [0]) ∧
    (presentOf x[0] = true → codeOf x[3] = 0x00#7 →
      (loadsOf x).length = 15 ∧ ∀ k : Fin 16, k ∈ loadsOf x ↔ k ≠ 14) ∧
    (presentOf x[0] = true → codeOf x[3] = 0x01#7 ∨ codeOf x[3] = 0x02#7 →
      (loadsOf x).length = 16 ∧ ∀ k : Fin 16, k ∈ loadsOf x) ∧
    (presentOf x[0] = true → 3 ≤ (codeOf x[3]).toNat → loadsOf x = [0, 1, 2, 3])

/-- `DECODE` with nobody else acting (41_decoder.md R141, R183, R185, R187): it is accepted, and after its loads and the
closing step `SEQ` is IDLE again, IO shows exactly the reads of its outcome in order, each value latched, and REC has the
result assembled from what was read. One step per load and one to close is the model's granularity (log 8). -/
def Obligations.DecodeAloneReturnsItsResult : Prop :=
  ∀ (s : State) (b : BitVec 8) (d : BitVec 5) (f : BitVec 3), s.Alone → s.seq = .idle →
    ∃ t, exec (.decode b d f) s = .next t ∧
      ∃ u, Host.Core.run Sys2Proof.core ((loadsOf u.raw).length + 1) t = .next u ∧
        u.seq = .idle ∧ u.lock = false ∧ u.tgt = fnAddr b d f ∧ u.rawv = loadedMask (loadsOf u.raw) ∧
        u.ioLog = loadTrace s.cam (fnAddr b d f) u.raw (loadsOf u.raw) ++ s.ioLog ∧
        u.recOut = .result (resultOf (fnAddr b d f) u.raw) :: s.recOut ∧
        u.scan = s.scan ∧ u.mf = s.mf ∧ u.rspOut = s.rspOut ∧ u.callers = s.callers

/-- 41_decoder.md R184: when `LD_ID` yields vendor id 0xFFFF the decode ends at once: the outcome is `Absent`, `RAWV` is
left at 0x0001, there is no next load and the sequencer's next turn puts nothing on IO. The device id is not examined. -/
def Obligations.AbsentEndsTheDecodeAtOnce : Prop :=
  ∀ s t : State, s.seq ≠ .idle → s.rawv = 0 → OutsideEvent.reset ∉ s.mids.headD [] → s.lock = false →
    exec .ldId s = .next t → t.raw[0].extractLsb' 0 16 = 0xFFFF#16 →
    t.rawv = 0x0001#16 ∧ t.nextKey = none ∧ decodeOutcome t = .ok .absent ∧
      ∃ u, sequencerTurn t = .next u ∧ u.ioLog = t.ioLog ∧
        (t.seq = .decoding → u.rawv = 0x0001#16 ∧ u.seq = .idle ∧ u.recOut = .result .absent :: t.recOut)

/-- The sentinel is 16 bits of register 0x00 and nothing else (30_encoding.md R100, 70_reset_and_hazards.md R243). -/
def Obligations.SentinelIsTheVendorHalf : Prop :=
  ∀ w : Word, presentOf w = false ↔ w &&& 0x0000FFFF#32 = 0x0000FFFF#32

/-- 41_decoder.md R186: `code` alone selects the record's variant, `mf` fills `multifunction`, neither influences the other; the
record's header_type is the 7-bit code; header_type 0x80 is Standard, 0x81 is PciBridge with multifunction 1. -/
def Obligations.HeaderTypePartsAreIndependent : Prop :=
  (∀ (a : FnAddr) (x : Vector Word 16) (code : BitVec 7) (mf mf' : Bool),
    (assemble a x code mf).multifunction = mf ∧ (assemble a x code mf).variant = (assemble a x code mf').variant ∧
    (assemble a x code mf).header = (assemble a x code mf').header ∧
    (assemble a x code mf).header.headerType = x[3].extractLsb' 16 7 ∧
    (code = 0x00#7 → ∃ g, (assemble a x code mf).variant = .standard g) ∧
    (code = 0x01#7 → ∃ g, (assemble a x code mf).variant = .pciBridge g) ∧
    (code = 0x02#7 → ∃ g, (assemble a x code mf).variant = .cardBus g) ∧
    (3 ≤ code.toNat → (assemble a x code mf).variant = .unknown code)) ∧
  (∀ w : Word, codeOf (w ||| 0x00800000#32) = codeOf w ∧ codeOf (w &&& 0xFF7FFFFF#32) = codeOf w ∧
    mfRecOf (w ||| 0x00800000#32) = true ∧ mfRecOf (w &&& 0xFF7FFFFF#32) = false) ∧
  (∀ w : Word, w.extractLsb' 16 8 = 0x80#8 → variantOf (codeOf w) = .standard ∧ mfRecOf w = true) ∧
  (∀ w : Word, w.extractLsb' 16 8 = 0x81#8 → variantOf (codeOf w) = .pciBridge ∧ mfRecOf w = true)

/-- 30_encoding.md R105: of the 128 layout codes three select a layout and the other 125 are the Unknown variant with that code,
never an error, the raw common fields in its header as for any other; bit 7 of the header_type byte is not part of the code. -/
def Obligations.LayoutCodesSelectVariants : Prop :=
  ∀ (a : FnAddr) (x : Vector Word 16) (mf : Bool) (code : BitVec 7),
    (code = 0x00#7 → ∃ g, (assemble a x code mf).variant = .standard g) ∧
    (code = 0x01#7 → ∃ g, (assemble a x code mf).variant = .pciBridge g) ∧
    (code = 0x02#7 → ∃ g, (assemble a x code mf).variant = .cardBus g) ∧
    (3 ≤ code.toNat → (assemble a x code mf).variant = .unknown code ∧
      (assemble a x code mf).header = (assemble a x 0x00#7 mf).header) ∧
    (∀ w : Word, codeOf (w ||| 0x00800000#32) = codeOf w ∧ codeOf (w &&& 0xFF7FFFFF#32) = codeOf w) ∧
    (∀ w : Word, w.extractLsb' 16 8 = 0x80#8 → codeOf w = 0x00#7)

/-- The common header, field by field as shifts and masks of the loaded dwords (41_decoder.md R185, 30_encoding.md R100, 10_state.md
R34 to R37). -/
def Obligations.CommonHeaderFields : Prop :=
  ∀ (a : FnAddr) (x : Vector Word 16) (code : BitVec 7) (mf : Bool),
    let h := (assemble a x code mf).header
    (assemble a x code mf).address = a ∧
    h.vendorId.zeroExtend 32 = x[0] &&& 0xFFFF#32 ∧ h.deviceId.zeroExtend 32 = x[0] >>> 16 ∧
    h.command.zeroExtend 32 = x[1] &&& 0xFFFF#32 ∧ h.status.zeroExtend 32 = x[1] >>> 16 ∧
    h.revisionId.zeroExtend 32 = x[2] &&& 0xFF#32 ∧ h.progIf.zeroExtend 32 = (x[2] >>> 8) &&& 0xFF#32 ∧
    h.subclass.zeroExtend 32 = (x[2] >>> 16) &&& 0xFF#32 ∧ h.classCode.zeroExtend 32 = x[2] >>> 24 ∧
    h.cacheLineSize.zeroExtend 32 = x[3] &&& 0xFF#32 ∧ h.latencyTimer.zeroExtend 32 = (x[3] >>> 8) &&& 0xFF#32 ∧
    h.headerType.zeroExtend 32 = (x[3] >>> 16) &&& 0x7F#32 ∧ h.bist.zeroExtend 32 = x[3] >>> 24

/-- The Standard variant, field by field (41_decoder.md R185, 10_state.md R38 to R44): six BARs, the interrupt bytes from 0x3C and
not from 0x30 (70_reset_and_hazards.md R242), nothing from 0x38. -/
def Obligations.StandardVariantFields : Prop :=
  ∀ (a : FnAddr) (x : Vector Word 16) (mf : Bool),
    ∃ g, (assemble a x 0x00 mf).variant = .standard g ∧
      g.bar = #v[x[4], x[5], x[6], x[7], x[8], x[9]] ∧ g.cardbusCisPtr = x[10] ∧
      g.subsystemVendorId.zeroExtend 32 = x[11] &&& 0xFFFF#32 ∧ g.subsystemId.zeroExtend 32 = x[11] >>> 16 ∧
      g.expansionRomBase = x[12] ∧ g.capabilityPtr.zeroExtend 32 = x[13] &&& 0xFF#32 ∧
      g.interruptLine.zeroExtend 32 = x[15] &&& 0xFF#32 ∧ g.interruptPin.zeroExtend 32 = (x[15] >>> 8) &&& 0xFF#32 ∧
      g.minGrant.zeroExtend 32 = (x[15] >>> 16) &&& 0xFF#32 ∧ g.maxLatency.zeroExtend 32 = x[15] >>> 24

/-- The PciBridge variant, field by field (41_decoder.md R185, 10_state.md R45 to R54). -/
def Obligations.BridgeVariantFields : Prop :=
  ∀ (a : FnAddr) (x : Vector Word 16) (mf : Bool),
    ∃ g, (assemble a x 0x01 mf).variant = .pciBridge g ∧
      g.bar = #v[x[4], x[5]] ∧
      g.primaryBus.zeroExtend 32 = x[6] &&& 0xFF#32 ∧ g.secondaryBus.zeroExtend 32 = (x[6] >>> 8) &&& 0xFF#32 ∧
      g.subordinateBus.zeroExtend 32 = (x[6] >>> 16) &&& 0xFF#32 ∧
      g.secondaryLatencyTimer.zeroExtend 32 = x[6] >>> 24 ∧
      g.ioBase.zeroExtend 32 = x[7] &&& 0xFF#32 ∧ g.ioLimit.zeroExtend 32 = (x[7] >>> 8) &&& 0xFF#32 ∧
      g.memoryBase.zeroExtend 32 = x[8] &&& 0xFFFF#32 ∧ g.memoryLimit.zeroExtend 32 = x[8] >>> 16 ∧
      g.prefetchBase.zeroExtend 32 = x[9] &&& 0xFFFF#32 ∧ g.prefetchLimit.zeroExtend 32 = x[9] >>> 16 ∧
      g.prefetchBaseUpper32 = x[10] ∧ g.prefetchLimitUpper32 = x[11] ∧
      g.ioBaseUpper16.zeroExtend 32 = x[12] &&& 0xFFFF#32 ∧ g.ioLimitUpper16.zeroExtend 32 = x[12] >>> 16 ∧
      g.capabilityPtr.zeroExtend 32 = x[13] &&& 0xFF#32 ∧ g.expansionRomBase = x[14] ∧
      g.interruptLine.zeroExtend 32 = x[15] &&& 0xFF#32 ∧ g.interruptPin.zeroExtend 32 = (x[15] >>> 8) &&& 0xFF#32 ∧
      g.bridgeControl.zeroExtend 32 = x[15] >>> 16

/-- The CardBus variant holds the twelve dwords 0x10 to 0x3C and no field (10_state.md R55; the spec's decision D10). -/
def Obligations.CardBusVariantIsOpaque : Prop :=
  ∀ (a : FnAddr) (x : Vector Word 16) (mf : Bool),
    ∃ g, (assemble a x 0x02 mf).variant = .cardBus g ∧
      ∀ i : Fin 12, g[i] = x[4 + i.val]'(by have := i.isLt; omega)

/-- A latch without a value is never read as one (10_state.md R24, 93 U6; log 18): assembly faults exactly when a latch its
layout reads is not valid, and otherwise gives the record of 41_decoder.md R185. -/
def Obligations.InvalidLatchesFault : Prop :=
  ∀ s : State,
    ((∃ k ∈ loadOrder (codeOf s.raw[3]), s.valid k = false) → ∃ k, s.valid k = false ∧
      assembleLatched s = .error (.invalidLatch k)) ∧
    ((∀ k ∈ loadOrder (codeOf s.raw[3]), s.valid k = true) →
      assembleLatched s = .ok (assemble s.tgt s.raw (codeOf s.raw[3]) (mfRecOf s.raw[3])))

/-! ### The Enumerator -/

/-- `ENUM` in IDLE is accepted: `SEQ`, `SCAN`, `MF` as 42_enumerator.md R192 says, the decoder bound to function 0:0.0, nothing
else (REC's mark is the model's own, log 17); in any other phase it is held (10_state.md R22, 60_exceptions.md R217; log 8). -/
def Obligations.EnumIsAcceptedOnlyWhenIdle : Prop :=
  ∀ s : State,
    (s.seq = .idle → exec .enum s = .next
      { s with seq := .enumerating, scan := 0, mf := false, tgt := 0, rawv := 0, recOut := .began :: s.recOut }) ∧
    (s.seq ≠ .idle → exec .enum s = .next s)

/-- The two advances of `SCAN` as numbers (10_state.md R26): next function is one up; next device is function 0 of the next
device; each carries into bit 16 exactly at the end of the scan. -/
def Obligations.ScanAdvancesByFunctionOrDevice : Prop :=
  ∀ a : FnAddr,
    (nextFunctionOf a).toNat = a.toNat + 1 ∧ (nextDeviceOf a).toNat = 8 * (a.toNat / 8 + 1) ∧
    ((nextFunctionOf a).getLsbD 16 = true ↔ a = 0xFFFF#16) ∧
    ((nextDeviceOf a).getLsbD 16 = true ↔ busOf a = 255 ∧ devOf a = 31)

/-- 42_enumerator.md R193: function 0 absent. Nothing is emitted, `MF` is 0, the scan is at function 0 of the next device, and
the decode of that begins (R192). At the last device R197 applies instead. -/
def Obligations.FunctionZeroAbsentSkipsTheDevice : Prop :=
  ∀ (s : State) (ts : List Turn), s.turns = .sequencer :: ts → s.seq = .enumerating → fnOf s.scan = 0 →
    s.rawv.getLsbD 0 = true → s.raw[0].extractLsb' 0 16 = 0xFFFF#16 → s.scan ≠ 0xFFF8#16 →
    step s = .next
      { s with turns := ts, mf := false, scan := (s.scan &&& 0xFFF8#16) + 8, tgt := (s.scan &&& 0xFFF8#16) + 8, rawv := 0 }

/-- 42_enumerator.md R194: function 0 present. The record is emitted, `MF` takes its multifunction bit, and on that bit alone,
whatever the variant, the scan goes to function 1 or to the next device (for the last device R197 applies instead). -/
def Obligations.FunctionZeroPresentIsEmitted : Prop :=
  ∀ (s : State) (ts : List Turn), s.turns = .sequencer :: ts → s.seq = .enumerating → fnOf s.scan = 0 →
    s.raw[0].extractLsb' 0 16 ≠ 0xFFFF#16 → (∀ k ∈ loadOrder (codeOf s.raw[3]), s.valid k = true) →
    let mf := s.raw[3].getLsbD 23
    let rec' := assemble s.tgt s.raw (codeOf s.raw[3]) mf
    (mf = true → step s = .next
      { s with turns := ts, mf := true, scan := s.scan + 1, tgt := s.scan + 1, rawv := 0, recOut := .emit rec' :: s.recOut }) ∧
    (mf = false → s.scan ≠ 0xFFF8#16 → step s = .next
      { s with
        turns := ts, mf := false, scan := (s.scan &&& 0xFFF8#16) + 8, tgt := (s.scan &&& 0xFFF8#16) + 8, rawv := 0,
        recOut := .emit rec' :: s.recOut })

/-- 42_enumerator.md R195: function 1 to 7 absent. Nothing is emitted, `MF` stays, the scan goes on to the next function, and the
decode of that begins (R192; that `TGT` is bound and `RAWV` cleared in the same step is the model's granularity, log 8); from
255:31.7 the advance carries and the scan ends by R197, done being all that passes on REC. -/
def Obligations.OtherFunctionAbsentIsExcluded : Prop :=
  ∀ (s : State) (ts : List Turn), s.turns = .sequencer :: ts → s.seq = .enumerating → fnOf s.scan ≠ 0 →
    s.rawv.getLsbD 0 = true → s.raw[0].extractLsb' 0 16 = 0xFFFF#16 →
    (s.scan ≠ 0xFFFF#16 → step s = .next { s with turns := ts, scan := s.scan + 1, tgt := s.scan + 1, rawv := 0 }) ∧
    (s.scan = 0xFFFF#16 → step s = .next { s with turns := ts, seq := .idle, scan := 0, recOut := .done :: s.recOut })

/-- 42_enumerator.md R196: function 1 to 7 present. The record is emitted, `MF` is not written (the spec's decision D24), the scan
goes on to the next function (for 255:31.7 R197 applies instead). -/
def Obligations.OtherFunctionPresentIsEmitted : Prop :=
  ∀ (s : State) (ts : List Turn), s.turns = .sequencer :: ts → s.seq = .enumerating → fnOf s.scan ≠ 0 →
    s.raw[0].extractLsb' 0 16 ≠ 0xFFFF#16 → (∀ k ∈ loadOrder (codeOf s.raw[3]), s.valid k = true) →
    s.scan ≠ 0xFFFF#16 →
    step s = .next
      { s with
        turns := ts, scan := s.scan + 1, tgt := s.scan + 1, rawv := 0,
        recOut := .emit (assemble s.tgt s.raw (codeOf s.raw[3]) (s.raw[3].getLsbD 23)) :: s.recOut }

/-- 42_enumerator.md R197: at 255:31, where the advance carries out of bit 15, the scan is complete: done on REC after the last
record, `SEQ` IDLE, `SCAN` 0, the latches and `TGT` as the last decode left them. -/
def Obligations.ScanEndsAtTheLastDevice : Prop :=
  ∀ (s : State) (ts : List Turn), s.turns = .sequencer :: ts → s.seq = .enumerating →
    (s.scan = 0xFFF8#16 → s.rawv.getLsbD 0 = true → s.raw[0].extractLsb' 0 16 = 0xFFFF#16 →
      step s = .next { s with turns := ts, mf := false, seq := .idle, scan := 0, recOut := .done :: s.recOut }) ∧
    (s.scan = 0xFFFF#16 → s.rawv.getLsbD 0 = true → s.raw[0].extractLsb' 0 16 = 0xFFFF#16 →
      step s = .next { s with turns := ts, seq := .idle, scan := 0, recOut := .done :: s.recOut }) ∧
    (s.raw[0].extractLsb' 0 16 ≠ 0xFFFF#16 → (∀ k ∈ loadOrder (codeOf s.raw[3]), s.valid k = true) →
      let rec' := assemble s.tgt s.raw (codeOf s.raw[3]) (s.raw[3].getLsbD 23)
      (s.scan = 0xFFF8#16 → s.raw[3].getLsbD 23 = false → step s = .next
        { s with turns := ts, mf := false, seq := .idle, scan := 0, recOut := .done :: .emit rec' :: s.recOut }) ∧
      (s.scan = 0xFFFF#16 → step s = .next
        { s with turns := ts, seq := .idle, scan := 0, recOut := .done :: .emit rec' :: s.recOut }))

/-- The sequencer never writes configuration space: no turn of it puts a data-port write of the Accessor on IO, whatever else
happens (41_decoder.md R140, 42_enumerator.md R190). -/
def Obligations.SequencerNeverWritesConfiguration : Prop :=
  ∀ s t : State, sequencerTurn s = .next t →
    ∃ new, t.ioLog = new ++ s.ioLog ∧ ∀ e ∈ new, e.by_ = .accessor → ∀ v, e.op ≠ .wd v

/-- `ENUM` with nobody else acting ends (42_enumerator.md R191, R197): it is accepted, and within 65,536 decodes of at most 16
loads and a closing step `SEQ` is IDLE, `SCAN` is 0 and done is on REC. -/
def Obligations.EnumAloneRunsToDone : Prop :=
  ∀ s : State, s.Alone → s.seq = .idle →
    ∃ t, exec .enum s = .next t ∧
      ∃ n ≤ 65536 * 17, ∃ u, Host.Core.run Sys2Proof.core n t = .next u ∧
        u.seq = .idle ∧ u.scan = 0 ∧ u.lock = false ∧ u.recOut.head? = some .done

/-- What a pass finds (42_enumerator.md R191, R193 to R196, R199): with nobody else acting, no device reacting and the answers
to the identifier and header-type registers steady, the functions a pass emits are exactly the present ones that are function 0 or
belong to a device whose function 0 is present and multifunction. -/
def Obligations.EnumAloneFindsExactlyTheDiscoverable : Prop :=
  ∀ s : State, s.Alone → s.seq = .idle → s.reactions = [] → s.steadyAnswers →
    ∃ t, exec .enum s = .next t ∧
      ∃ n u, Host.Core.run Sys2Proof.core n t = .next u ∧ u.seq = .idle ∧ u.recOut.head? = some .done ∧
        (passAddrs u.recOut).Pairwise (fun newer older => older.toNat < newer.toNat) ∧
        ∀ a : FnAddr, a ∈ passAddrs u.recOut ↔ s.discoverable a

/-! ### The machine as a whole -/

/-- Every step keeps the invariant, whoever moves and whatever happens outside. -/
def Obligations.StepKeepsTheInvariant : Prop :=
  ∀ s t : State, s.Inv → step s = .next t → t.Inv

/-- The invariant holds right after reset (10_state.md R20 for `LOCK`, `SEQ`, `RAWV`, `SCAN`). Its clause on the reserved bits of
`CONFIG_ADDRESS` holds because the model sets that register to 0 at reset, the model's own choice (log 5): 70_reset_and_hazards.md
R233 leaves it unspecified. Its clause on the ports is about their defaults (log 10). -/
def Obligations.ResetMeetsTheInvariant : Prop := State.reset.Inv

/-- Every step keeps the order of a pass (42_enumerator.md R198): its records in strictly ascending address order, each function at
most once, all below the function the scan is at, and function 0 of a device among them when any of its functions is. -/
def Obligations.StepKeepsThePassOrdered : Prop :=
  ∀ s t : State, s.ScanOrdered → step s = .next t → t.ScanOrdered

/-- The order of a pass holds right after reset. -/
def Obligations.ResetMeetsThePassOrder : Prop := State.reset.ScanOrdered

/-- The sequencer and a caller with no reserved word never stop the machine, where nothing outside the block disturbs the next
pair: there is no fault in this domain (60_exceptions.md R210). -/
def Obligations.UndisturbedTurnsNeverStop : Prop :=
  ∀ s : State, s.mids.headD [] = [] →
    (∃ t, sequencerTurn s = .next t) ∧
    (∀ n, (∀ w rest, s.callers.getD n [] = w :: rest → ¬ reservedWord w) → ∃ t, callerTurn n s = .next t)

/-- A running command cannot be stopped, restarted or redirected from outside (10_state.md R22, R23, R25; 42_enumerator.md R197): while
`SEQ` is not IDLE, whatever a caller presents, its turn leaves the phase, the decoder's and the enumerator's state and REC as they
are, unless the reset input comes inside its pair. -/
def Obligations.CallersCannotDisturbARunningCommand : Prop :=
  ∀ (s t : State) (n : Nat), s.seq ≠ .idle → OutsideEvent.reset ∉ s.mids.headD [] → callerTurn n s = .next t →
    t.lock = s.lock ∧ t.seq = s.seq ∧ t.tgt = s.tgt ∧ t.raw = s.raw ∧ t.rawv = s.rawv ∧ t.scan = s.scan ∧ t.mf = s.mf ∧
      t.recOut = s.recOut

/-- When the words at the head of the queue of the caller whose turn it is decode to an instruction that is accepted, the step is
that instruction's meaning on the state with the turn taken and the words consumed (10_state.md R58; log 9, log 16). `SEQ` does not
gate `CFGRD` and `CFGWR`: R22 says so of other callers; that it holds of the running command's own issuer too is the model's choice
(log 28). -/
def Obligations.StepRunsTheDecodedCommand : Prop :=
  ∀ (s : State) (n : Nat) (ts : List Turn) (i : Instr) (rest : List Word),
    s.turns = .caller n :: ts → decodeCmd (s.callers.getD n []) = .ok (i, rest) →
    (((∃ b d f, i = .decode b d f) ∨ i = .enum) → s.seq = .idle) →
    (((∃ b d f r, i = .cfgrd b d f r) ∨ ∃ b d f r v, i = .cfgwr b d f r v) → s.lock = false) →
    step s = exec i { s with turns := ts, callers := s.callers.set n rest, issuer := n }

/-- When it is the sequencer's turn, a decode is running and `LOCK` is 0, the step is the meaning of the micro-operation whose key
is next, on the state with the turn taken (42_enumerator.md R192; log 9, log 24). -/
def Obligations.StepRunsTheNextMicroOp : Prop :=
  ∀ (s : State) (ts : List Turn) (k : Key) (i : Instr),
    s.turns = .sequencer :: ts → s.seq ≠ .idle → s.lock = false → s.nextKey = some k → decodeKey k = .ok i →
    step s = exec i { s with turns := ts }

/-- With nothing scheduled, no command presented and the sequencer IDLE the block waits (70_reset_and_hazards.md R232). With nothing
scheduled and exactly one agent ready, that agent moves: the model's choice (log 9), since 20_memory.md R79 leaves the order OPEN. -/
def Obligations.UnscheduledStepsWaitOrServeTheOneReady : Prop :=
  ∀ s : State, s.turns = [] →
    (s.seq = .idle → (∀ q ∈ s.callers, q = []) → step s = .next s) ∧
    (∀ t, readyTurns s = [t] → step s = takeTurn t s)

/-- What reset leaves (10_state.md R20): the five values the spec gives (its decision D16), and nothing passed on any interface
(70_reset_and_hazards.md R231). -/
def Obligations.ResetStateAsGiven : Prop :=
  State.reset.lock = false ∧ State.reset.seq = .idle ∧ State.reset.rawv = 0 ∧ State.reset.scan = 0 ∧
    State.reset.mf = false ∧ State.reset.ioLog = [] ∧ State.reset.rspOut = [] ∧ State.reset.recOut = []

/-- Reset of a running block (70_reset_and_hazards.md R231, R233; the spec's decision D16): the block's five values, nothing emitted,
no port operation, the environment untouched. That the commands presented on CMD stay presented is the model's choice (log 19). -/
def Obligations.ResetTurnAbandonsTheCommand : Prop :=
  ∀ s : State, ∃ t, takeTurn (.outside .reset) s = .next t ∧
    t.lock = false ∧ t.seq = .idle ∧ t.rawv = 0 ∧ t.scan = 0 ∧ t.mf = false ∧
    t.configAddress = s.configAddress ∧ t.mem = s.mem ∧ t.background = s.background ∧ t.ioLog = s.ioLog ∧
    t.rspOut = s.rspOut ∧ t.recOut = s.recOut ∧ t.callers = s.callers ∧ t.reactions = s.reactions ∧ t.cam = s.cam

/-- No step writes the platform's parameters: they belong to the machine and are no state of it (00_scope.md R6; that `State` carries
them is the model's choice, log 10). -/
def Obligations.PlatformParametersStayFixed : Prop :=
  ∀ s t : State, step s = .next t → t.cam = s.cam
end

