-- ==== Sys2Proof/Laws/Encoding.lean ====
section
/-! SUPPORT. Laws of the CAM address word, of function and configuration addresses, and of the bytes of a word:
each bit is where the spec puts it. -/

namespace Sys2Proof.Machine

theorem fnAddr_fields (a : FnAddr) : fnAddr (busOf a) (devOf a) (fnOf a) = a := by
  apply BitVec.eq_of_getLsbD_eq
  intro i hi
  simp only [fnAddr, busOf, devOf, fnOf, BitVec.getLsbD_append, BitVec.getLsbD_extractLsb']
  interval_cases i <;> rfl

@[simp] theorem busOf_fnAddr (b : BitVec 8) (d : BitVec 5) (f : BitVec 3) : busOf (fnAddr b d f) = b := by
  apply BitVec.eq_of_getLsbD_eq
  intro i hi
  simp only [fnAddr, busOf, BitVec.getLsbD_append, BitVec.getLsbD_extractLsb']
  interval_cases i <;> simp

@[simp] theorem devOf_fnAddr (b : BitVec 8) (d : BitVec 5) (f : BitVec 3) : devOf (fnAddr b d f) = d := by
  apply BitVec.eq_of_getLsbD_eq
  intro i hi
  simp only [fnAddr, devOf, BitVec.getLsbD_append, BitVec.getLsbD_extractLsb']
  interval_cases i <;> simp

@[simp] theorem fnOf_fnAddr (b : BitVec 8) (d : BitVec 5) (f : BitVec 3) : fnOf (fnAddr b d f) = f := by
  apply BitVec.eq_of_getLsbD_eq
  intro i hi
  simp only [fnAddr, fnOf, BitVec.getLsbD_append, BitVec.getLsbD_extractLsb']
  interval_cases i <;> simp

/-- Byte j of a word put together from bytes is the j-th byte. -/
theorem byteOf_wordOfBytes (b0 b1 b2 b3 : Byte) :
    byteOf (wordOfBytes b0 b1 b2 b3) 0 = b0 ∧ byteOf (wordOfBytes b0 b1 b2 b3) 1 = b1 ∧
      byteOf (wordOfBytes b0 b1 b2 b3) 2 = b2 ∧ byteOf (wordOfBytes b0 b1 b2 b3) 3 = b3 := by
  refine ⟨?_, ?_, ?_, ?_⟩ <;>
  · apply BitVec.eq_of_getLsbD_eq
    intro i hi
    simp only [byteOf, wordOfBytes, BitVec.getLsbD_append, BitVec.getLsbD_extractLsb']
    interval_cases i <;> simp

/-- `CAM_ENABLE` is the one bit 24 + `enableAt` (00_scope.md R6). -/
theorem camEnable_getLsbD (c : CamParams) (i : Nat) :
    (camEnable c).getLsbD i = decide (i = 24 + c.enableAt.val) := by
  have h := c.enableAt.isLt
  rw [camEnable, BitVec.getLsbD_shiftLeft, BitVec.getLsbD_one, Bool.eq_iff_iff]
  simp
  omega

/-- `CAM_ENABLE` is disjoint from bits 23:0 (00_scope.md R6). -/
@[simp] theorem camEnable_low (c : CamParams) {i : Nat} (h : i < 24) : (camEnable c).getLsbD i = false := by
  rw [camEnable_getLsbD]
  simp
  omega

/-- Below bit 24 an address word holds its operands, above it `CAM_ENABLE` and nothing else (40_accessor.md R121). -/
theorem camEnc_getLsbD (c : CamParams) (b : BitVec 8) (d : BitVec 5) (f : BitVec 3) (r : BitVec 8) (i : Nat) :
    (camEnc c b d f r).getLsbD i =
      if i < 24 then (effectiveAddr b d f r).getLsbD i else decide (i = 24 + c.enableAt.val) := by
  split
  · have h : i < 24 := ‹_›
    simp only [camEnc, effectiveAddr, cfgAddr, BitVec.getLsbD_or, camEnable_low c h, BitVec.getLsbD_append]
    interval_cases i <;> simp
  · have h : 24 ≤ i := by omega
    rw [← camEnable_getLsbD]
    simp only [camEnc, BitVec.getLsbD_or, BitVec.zeroExtend, BitVec.getLsbD_shiftLeft, BitVec.getLsbD_setWidth,
      BitVec.getLsbD_and]
    have h1 : b.getLsbD (i - 16) = false := BitVec.getLsbD_of_ge _ _ (by omega)
    have h2 : d.getLsbD (i - 11) = false := BitVec.getLsbD_of_ge _ _ (by omega)
    have h3 : f.getLsbD (i - 8) = false := BitVec.getLsbD_of_ge _ _ (by omega)
    have h4 : r.getLsbD i = false := BitVec.getLsbD_of_ge _ _ (by omega)
    simp [h1, h2, h3, h4]

/-- Every address word the encoder makes has enable set (40_accessor.md R121, 30_encoding.md R90). -/
@[simp] theorem camDec_camEnc_en (c : CamParams) (b : BitVec 8) (d : BitVec 5) (f : BitVec 3) (r : BitVec 8) :
    (camDec c (camEnc c b d f r)).en = true := by
  simp [camDec, camEnc_getLsbD]

/-- Every address word the encoder makes has the reserved bits clear (30_encoding.md R102). -/
theorem camEnc_reserved (c : CamParams) (b : BitVec 8) (d : BitVec 5) (f : BitVec 3) (r : BitVec 8) :
    camEnc c b d f r &&& camReservedBits c = 0 := by
  apply BitVec.eq_of_getLsbD_eq
  intro i hi
  rw [camReservedBits, BitVec.getLsbD_and, camEnc_getLsbD, BitVec.getLsbD_and, BitVec.getLsbD_not, camEnable_getLsbD]
  split
  · interval_cases i <;> simp
  · by_cases h : i = 24 + c.enableAt.val <;> simp [h]

/-- The dword an encoded address word selects is the effective address of the access (40_accessor.md R127). -/
@[simp] theorem selectedAddr_camEnc (c : CamParams) (b : BitVec 8) (d : BitVec 5) (f : BitVec 3) (r : BitVec 8) :
    selectedAddr c (camEnc c b d f r) = effectiveAddr b d f r := by
  apply BitVec.eq_of_getLsbD_eq
  intro i hi
  simp only [selectedAddr, camDec, cfgAddr, BitVec.getLsbD_append, BitVec.getLsbD_extractLsb', BitVec.getLsbD_and,
    camEnc_getLsbD]
  simp only [effectiveAddr, cfgAddr, BitVec.getLsbD_append, BitVec.getLsbD_and]
  interval_cases i <;> simp

end Sys2Proof.Machine
end

