-- ==== Sys2Proof/Laws/Memory.lean ====
section
/-! SUPPORT. Laws of configuration space as memory: a change is seen at its own address and nowhere else, every
operation keeps the canonical form, and the bytes of a dword stand in little-endian order. -/

namespace Sys2Proof.Machine

@[simp] theorem Memory.get?_nil (x : Nat) : Memory.get? [] x = none := rfl

theorem Memory.get?_of_lt {m : Memory} {x : Nat} (h : ∀ c ∈ m, x < c.1) : m.get? x = none := by
  induction m with
  | nil => rfl
  | cons c m ih =>
    obtain ⟨a, b⟩ := c
    have ha : x < a := h (a, b) (by simp)
    simp only [Memory.get?]
    rw [if_neg (by omega)]
    exact ih (fun c hc => h c (by simp [hc]))

/-- Where the addresses after a cell all lie above it, a lookup below skips them. -/
theorem Memory.wf_cons {a : Nat} {b : Byte} {m : Memory} (h : Memory.wf ((a, b) :: m)) :
    m.wf ∧ a < 2 ^ 24 ∧ ∀ c ∈ m, a < c.1 := by
  obtain ⟨h1, h2⟩ := h
  rw [List.pairwise_cons] at h1
  exact ⟨⟨h1.2, fun c hc => h2 c (by simp [hc])⟩, h2 (a, b) (by simp), fun c hc => h1.1 c hc⟩

theorem Memory.get?_put_same (m : Memory) (hm : m.wf) (x : Nat) (v : Option Byte) :
    (m.put x v).get? x = v := by
  induction m with
  | nil => cases v <;> simp [Memory.put, Memory.get?]
  | cons c m ih =>
    obtain ⟨a, b⟩ := c
    obtain ⟨hm', -, hlt⟩ := Memory.wf_cons hm
    by_cases h1 : x < a
    · cases v with
      | none =>
        simp only [Memory.put, if_pos h1, Memory.get?, if_neg (Nat.ne_of_gt h1)]
        exact Memory.get?_of_lt (fun c hc => Nat.lt_trans h1 (hlt c hc))
      | some b' => simp [Memory.put, h1, Memory.get?]
    · by_cases h2 : x = a
      · subst h2
        cases v with
        | none =>
          simp only [Memory.put, Nat.lt_irrefl, if_false, if_true]
          exact Memory.get?_of_lt hlt
        | some b' => simp [Memory.put, Memory.get?]
      · simp only [Memory.put, if_neg h1, if_neg h2, Memory.get?, if_neg (Ne.symm h2)]
        exact ih hm'

theorem Memory.get?_put_other (m : Memory) (hm : m.wf) {x y : Nat} (hne : x ≠ y) (v : Option Byte) :
    (m.put x v).get? y = m.get? y := by
  induction m with
  | nil => cases v <;> simp [Memory.put, Memory.get?, hne]
  | cons c m ih =>
    obtain ⟨a, b⟩ := c
    obtain ⟨hm', -, hlt⟩ := Memory.wf_cons hm
    by_cases h1 : x < a
    · cases v <;> simp [Memory.put, h1, Memory.get?, hne]
    · by_cases h2 : x = a
      · subst h2
        cases v <;> simp [Memory.put, Memory.get?, hne]
      · simp only [Memory.put, if_neg h1, if_neg h2, Memory.get?]
        split
        · rfl
        · exact ih hm'

/-- Every cell of the memory after a `put` was there before, or is the one put. -/
theorem Memory.mem_put {m : Memory} {x : Nat} {v : Option Byte} {c : Host.Cell} (h : c ∈ m.put x v) :
    c ∈ m ∨ c.1 = x := by
  induction m with
  | nil => cases v <;> simp_all [Memory.put]
  | cons d m ih =>
    obtain ⟨a, b⟩ := d
    by_cases h1 : x < a
    · cases v
      · simp only [Memory.put, if_pos h1] at h
        exact .inl h
      · simp only [Memory.put, if_pos h1, List.mem_cons] at h
        rcases h with h | h
        · exact .inr (by rw [h])
        · exact .inl (List.mem_cons.mpr h)
    · by_cases h2 : x = a
      · subst h2
        cases v
        · simp only [Memory.put, Nat.lt_irrefl, if_false, if_true] at h
          exact .inl (List.mem_cons_of_mem _ h)
        · simp only [Memory.put, Nat.lt_irrefl, if_false, if_true, List.mem_cons] at h
          rcases h with h | h
          · exact .inr (by rw [h])
          · exact .inl (List.mem_cons_of_mem _ h)
      · simp only [Memory.put, if_neg h1, if_neg h2, List.mem_cons] at h
        rcases h with h | h
        · exact .inl (List.mem_cons.mpr (.inl h))
        · rcases ih h with h | h
          · exact .inl (List.mem_cons_of_mem _ h)
          · exact .inr h

theorem Memory.put_wf {m : Memory} (hm : m.wf) {x : Nat} (hx : x < 2 ^ 24) (v : Option Byte) :
    (m.put x v).wf := by
  induction m with
  | nil => cases v <;> simp_all [Memory.put, Memory.wf]
  | cons d m ih =>
    obtain ⟨a, b⟩ := d
    obtain ⟨hm', ha, hlt⟩ := Memory.wf_cons hm
    by_cases h1 : x < a
    · cases v with
      | none => simpa only [Memory.put, if_pos h1] using hm
      | some b' =>
        simp only [Memory.put, if_pos h1]
        refine ⟨List.pairwise_cons.mpr ⟨?_, hm.1⟩, ?_⟩
        · intro c hc
          rcases List.mem_cons.mp hc with rfl | hc
          · exact h1
          · exact Nat.lt_trans h1 (hlt c hc)
        · intro c hc
          rcases List.mem_cons.mp hc with rfl | hc
          · exact hx
          · exact hm.2 c hc
    · by_cases h2 : x = a
      · subst h2
        cases v with
        | none => simpa [Memory.put] using hm'
        | some b' =>
          simp only [Memory.put, Nat.lt_irrefl, if_false, if_true]
          refine ⟨List.pairwise_cons.mpr ⟨hlt, hm'.1⟩, ?_⟩
          intro c hc
          rcases List.mem_cons.mp hc with rfl | hc
          · exact hx
          · exact hm'.2 c hc
      · simp only [Memory.put, if_neg h1, if_neg h2]
        have h' := ih hm'
        refine ⟨List.pairwise_cons.mpr ⟨?_, h'.1⟩, ?_⟩
        · intro c hc
          rcases Memory.mem_put hc with hc | hc
          · exact hlt c hc
          · show a < c.1
            omega
        · intro c hc
          rcases List.mem_cons.mp hc with rfl | hc
          · exact ha
          · exact h'.2 c hc

theorem Memory.change_wf {m : Memory} (hm : m.wf) (cs : List Change) : (m.change cs).wf := by
  induction cs generalizing m with
  | nil => exact hm
  | cons c cs ih =>
    obtain ⟨x, v⟩ := c
    exact ih (Memory.put_wf hm x.isLt v)

/-- A byte that no change names stays listed as it was. -/
theorem Memory.get?_change_other {m : Memory} (hm : m.wf) {cs : List Change} {y : CfgAddr}
    (h : ∀ c ∈ cs, c.1 ≠ y) : (m.change cs).get? y.toNat = m.get? y.toNat := by
  induction cs generalizing m with
  | nil => rfl
  | cons c cs ih =>
    obtain ⟨x, v⟩ := c
    have hx : x ≠ y := h (x, v) (by simp)
    have hn : x.toNat ≠ y.toNat := fun e => hx (BitVec.eq_of_toNat_eq e)
    simp only [Memory.change]
    rw [ih (Memory.put_wf hm x.isLt v) (fun c hc => h c (by simp [hc])), Memory.get?_put_other m hm hn]

/-- The last change of a byte is the one that stays. -/
theorem Memory.get?_change_last {m : Memory} (hm : m.wf) (cs ds : List Change) {y : CfgAddr} {v : Option Byte}
    (h : ∀ c ∈ ds, c.1 ≠ y) : (m.change (cs ++ (y, v) :: ds)).get? y.toNat = v := by
  induction cs generalizing m with
  | nil =>
    simp only [List.nil_append, Memory.change]
    rw [Memory.get?_change_other (Memory.put_wf hm y.isLt v) h, Memory.get?_put_same m hm]
  | cons c cs ih =>
    obtain ⟨x, w⟩ := c
    exact ih (Memory.put_wf hm x.isLt w)

theorem Memory.reset_wf : State.reset.mem.wf := by decide

end Sys2Proof.Machine
end

