-- ==== Sys2Proof/Laws/State.lean ====
section
/-! SUPPORT. One lemma per field per state update, each true by rfl, so that no later proof unfolds an update. -/

namespace Sys2Proof.Machine

/-! `State.setLock` -/

@[simp] theorem State.setLock_lock (s : State) (b : Bool) :
    (s.setLock b).lock = b := rfl
@[simp] theorem State.setLock_seq (s : State) (b : Bool) :
    (s.setLock b).seq = s.seq := rfl
@[simp] theorem State.setLock_tgt (s : State) (b : Bool) :
    (s.setLock b).tgt = s.tgt := rfl
@[simp] theorem State.setLock_raw (s : State) (b : Bool) :
    (s.setLock b).raw = s.raw := rfl
@[simp] theorem State.setLock_rawv (s : State) (b : Bool) :
    (s.setLock b).rawv = s.rawv := rfl
@[simp] theorem State.setLock_scan (s : State) (b : Bool) :
    (s.setLock b).scan = s.scan := rfl
@[simp] theorem State.setLock_mf (s : State) (b : Bool) :
    (s.setLock b).mf = s.mf := rfl
@[simp] theorem State.setLock_cam (s : State) (b : Bool) :
    (s.setLock b).cam = s.cam := rfl
@[simp] theorem State.setLock_configAddress (s : State) (b : Bool) :
    (s.setLock b).configAddress = s.configAddress := rfl
@[simp] theorem State.setLock_mem (s : State) (b : Bool) :
    (s.setLock b).mem = s.mem := rfl
@[simp] theorem State.setLock_background (s : State) (b : Bool) :
    (s.setLock b).background = s.background := rfl
@[simp] theorem State.setLock_draws (s : State) (b : Bool) :
    (s.setLock b).draws = s.draws := rfl
@[simp] theorem State.setLock_reactions (s : State) (b : Bool) :
    (s.setLock b).reactions = s.reactions := rfl
@[simp] theorem State.setLock_callers (s : State) (b : Bool) :
    (s.setLock b).callers = s.callers := rfl
@[simp] theorem State.setLock_turns (s : State) (b : Bool) :
    (s.setLock b).turns = s.turns := rfl
@[simp] theorem State.setLock_mids (s : State) (b : Bool) :
    (s.setLock b).mids = s.mids := rfl
@[simp] theorem State.setLock_issuer (s : State) (b : Bool) :
    (s.setLock b).issuer = s.issuer := rfl
@[simp] theorem State.setLock_ioLog (s : State) (b : Bool) :
    (s.setLock b).ioLog = s.ioLog := rfl
@[simp] theorem State.setLock_rspOut (s : State) (b : Bool) :
    (s.setLock b).rspOut = s.rspOut := rfl
@[simp] theorem State.setLock_recOut (s : State) (b : Bool) :
    (s.setLock b).recOut = s.recOut := rfl

/-! `State.latch` -/

@[simp] theorem State.latch_lock (s : State) (k : Fin 16) (v : Word) :
    (s.latch k v).lock = s.lock := rfl
@[simp] theorem State.latch_seq (s : State) (k : Fin 16) (v : Word) :
    (s.latch k v).seq = s.seq := rfl
@[simp] theorem State.latch_tgt (s : State) (k : Fin 16) (v : Word) :
    (s.latch k v).tgt = s.tgt := rfl
@[simp] theorem State.latch_raw (s : State) (k : Fin 16) (v : Word) :
    (s.latch k v).raw = s.raw.set k v := rfl
@[simp] theorem State.latch_rawv (s : State) (k : Fin 16) (v : Word) :
    (s.latch k v).rawv = s.rawv ||| (1#16 <<< k.val) := rfl
@[simp] theorem State.latch_scan (s : State) (k : Fin 16) (v : Word) :
    (s.latch k v).scan = s.scan := rfl
@[simp] theorem State.latch_mf (s : State) (k : Fin 16) (v : Word) :
    (s.latch k v).mf = s.mf := rfl
@[simp] theorem State.latch_cam (s : State) (k : Fin 16) (v : Word) :
    (s.latch k v).cam = s.cam := rfl
@[simp] theorem State.latch_configAddress (s : State) (k : Fin 16) (v : Word) :
    (s.latch k v).configAddress = s.configAddress := rfl
@[simp] theorem State.latch_mem (s : State) (k : Fin 16) (v : Word) :
    (s.latch k v).mem = s.mem := rfl
@[simp] theorem State.latch_background (s : State) (k : Fin 16) (v : Word) :
    (s.latch k v).background = s.background := rfl
@[simp] theorem State.latch_draws (s : State) (k : Fin 16) (v : Word) :
    (s.latch k v).draws = s.draws := rfl
@[simp] theorem State.latch_reactions (s : State) (k : Fin 16) (v : Word) :
    (s.latch k v).reactions = s.reactions := rfl
@[simp] theorem State.latch_callers (s : State) (k : Fin 16) (v : Word) :
    (s.latch k v).callers = s.callers := rfl
@[simp] theorem State.latch_turns (s : State) (k : Fin 16) (v : Word) :
    (s.latch k v).turns = s.turns := rfl
@[simp] theorem State.latch_mids (s : State) (k : Fin 16) (v : Word) :
    (s.latch k v).mids = s.mids := rfl
@[simp] theorem State.latch_issuer (s : State) (k : Fin 16) (v : Word) :
    (s.latch k v).issuer = s.issuer := rfl
@[simp] theorem State.latch_ioLog (s : State) (k : Fin 16) (v : Word) :
    (s.latch k v).ioLog = s.ioLog := rfl
@[simp] theorem State.latch_rspOut (s : State) (k : Fin 16) (v : Word) :
    (s.latch k v).rspOut = s.rspOut := rfl
@[simp] theorem State.latch_recOut (s : State) (k : Fin 16) (v : Word) :
    (s.latch k v).recOut = s.recOut := rfl

/-! `State.bindTarget` -/

@[simp] theorem State.bindTarget_lock (s : State) (a : FnAddr) :
    (s.bindTarget a).lock = s.lock := rfl
@[simp] theorem State.bindTarget_seq (s : State) (a : FnAddr) :
    (s.bindTarget a).seq = s.seq := rfl
@[simp] theorem State.bindTarget_tgt (s : State) (a : FnAddr) :
    (s.bindTarget a).tgt = a := rfl
@[simp] theorem State.bindTarget_raw (s : State) (a : FnAddr) :
    (s.bindTarget a).raw = s.raw := rfl
@[simp] theorem State.bindTarget_rawv (s : State) (a : FnAddr) :
    (s.bindTarget a).rawv = 0 := rfl
@[simp] theorem State.bindTarget_scan (s : State) (a : FnAddr) :
    (s.bindTarget a).scan = s.scan := rfl
@[simp] theorem State.bindTarget_mf (s : State) (a : FnAddr) :
    (s.bindTarget a).mf = s.mf := rfl
@[simp] theorem State.bindTarget_cam (s : State) (a : FnAddr) :
    (s.bindTarget a).cam = s.cam := rfl
@[simp] theorem State.bindTarget_configAddress (s : State) (a : FnAddr) :
    (s.bindTarget a).configAddress = s.configAddress := rfl
@[simp] theorem State.bindTarget_mem (s : State) (a : FnAddr) :
    (s.bindTarget a).mem = s.mem := rfl
@[simp] theorem State.bindTarget_background (s : State) (a : FnAddr) :
    (s.bindTarget a).background = s.background := rfl
@[simp] theorem State.bindTarget_draws (s : State) (a : FnAddr) :
    (s.bindTarget a).draws = s.draws := rfl
@[simp] theorem State.bindTarget_reactions (s : State) (a : FnAddr) :
    (s.bindTarget a).reactions = s.reactions := rfl
@[simp] theorem State.bindTarget_callers (s : State) (a : FnAddr) :
    (s.bindTarget a).callers = s.callers := rfl
@[simp] theorem State.bindTarget_turns (s : State) (a : FnAddr) :
    (s.bindTarget a).turns = s.turns := rfl
@[simp] theorem State.bindTarget_mids (s : State) (a : FnAddr) :
    (s.bindTarget a).mids = s.mids := rfl
@[simp] theorem State.bindTarget_issuer (s : State) (a : FnAddr) :
    (s.bindTarget a).issuer = s.issuer := rfl
@[simp] theorem State.bindTarget_ioLog (s : State) (a : FnAddr) :
    (s.bindTarget a).ioLog = s.ioLog := rfl
@[simp] theorem State.bindTarget_rspOut (s : State) (a : FnAddr) :
    (s.bindTarget a).rspOut = s.rspOut := rfl
@[simp] theorem State.bindTarget_recOut (s : State) (a : FnAddr) :
    (s.bindTarget a).recOut = s.recOut := rfl

/-! `State.setSeq` -/

@[simp] theorem State.setSeq_lock (s : State) (q : Seq) :
    (s.setSeq q).lock = s.lock := rfl
@[simp] theorem State.setSeq_seq (s : State) (q : Seq) :
    (s.setSeq q).seq = q := rfl
@[simp] theorem State.setSeq_tgt (s : State) (q : Seq) :
    (s.setSeq q).tgt = s.tgt := rfl
@[simp] theorem State.setSeq_raw (s : State) (q : Seq) :
    (s.setSeq q).raw = s.raw := rfl
@[simp] theorem State.setSeq_rawv (s : State) (q : Seq) :
    (s.setSeq q).rawv = s.rawv := rfl
@[simp] theorem State.setSeq_scan (s : State) (q : Seq) :
    (s.setSeq q).scan = s.scan := rfl
@[simp] theorem State.setSeq_mf (s : State) (q : Seq) :
    (s.setSeq q).mf = s.mf := rfl
@[simp] theorem State.setSeq_cam (s : State) (q : Seq) :
    (s.setSeq q).cam = s.cam := rfl
@[simp] theorem State.setSeq_configAddress (s : State) (q : Seq) :
    (s.setSeq q).configAddress = s.configAddress := rfl
@[simp] theorem State.setSeq_mem (s : State) (q : Seq) :
    (s.setSeq q).mem = s.mem := rfl
@[simp] theorem State.setSeq_background (s : State) (q : Seq) :
    (s.setSeq q).background = s.background := rfl
@[simp] theorem State.setSeq_draws (s : State) (q : Seq) :
    (s.setSeq q).draws = s.draws := rfl
@[simp] theorem State.setSeq_reactions (s : State) (q : Seq) :
    (s.setSeq q).reactions = s.reactions := rfl
@[simp] theorem State.setSeq_callers (s : State) (q : Seq) :
    (s.setSeq q).callers = s.callers := rfl
@[simp] theorem State.setSeq_turns (s : State) (q : Seq) :
    (s.setSeq q).turns = s.turns := rfl
@[simp] theorem State.setSeq_mids (s : State) (q : Seq) :
    (s.setSeq q).mids = s.mids := rfl
@[simp] theorem State.setSeq_issuer (s : State) (q : Seq) :
    (s.setSeq q).issuer = s.issuer := rfl
@[simp] theorem State.setSeq_ioLog (s : State) (q : Seq) :
    (s.setSeq q).ioLog = s.ioLog := rfl
@[simp] theorem State.setSeq_rspOut (s : State) (q : Seq) :
    (s.setSeq q).rspOut = s.rspOut := rfl
@[simp] theorem State.setSeq_recOut (s : State) (q : Seq) :
    (s.setSeq q).recOut = s.recOut := rfl

/-! `State.setScan` -/

@[simp] theorem State.setScan_lock (s : State) (a : FnAddr) :
    (s.setScan a).lock = s.lock := rfl
@[simp] theorem State.setScan_seq (s : State) (a : FnAddr) :
    (s.setScan a).seq = s.seq := rfl
@[simp] theorem State.setScan_tgt (s : State) (a : FnAddr) :
    (s.setScan a).tgt = s.tgt := rfl
@[simp] theorem State.setScan_raw (s : State) (a : FnAddr) :
    (s.setScan a).raw = s.raw := rfl
@[simp] theorem State.setScan_rawv (s : State) (a : FnAddr) :
    (s.setScan a).rawv = s.rawv := rfl
@[simp] theorem State.setScan_scan (s : State) (a : FnAddr) :
    (s.setScan a).scan = a := rfl
@[simp] theorem State.setScan_mf (s : State) (a : FnAddr) :
    (s.setScan a).mf = s.mf := rfl
@[simp] theorem State.setScan_cam (s : State) (a : FnAddr) :
    (s.setScan a).cam = s.cam := rfl
@[simp] theorem State.setScan_configAddress (s : State) (a : FnAddr) :
    (s.setScan a).configAddress = s.configAddress := rfl
@[simp] theorem State.setScan_mem (s : State) (a : FnAddr) :
    (s.setScan a).mem = s.mem := rfl
@[simp] theorem State.setScan_background (s : State) (a : FnAddr) :
    (s.setScan a).background = s.background := rfl
@[simp] theorem State.setScan_draws (s : State) (a : FnAddr) :
    (s.setScan a).draws = s.draws := rfl
@[simp] theorem State.setScan_reactions (s : State) (a : FnAddr) :
    (s.setScan a).reactions = s.reactions := rfl
@[simp] theorem State.setScan_callers (s : State) (a : FnAddr) :
    (s.setScan a).callers = s.callers := rfl
@[simp] theorem State.setScan_turns (s : State) (a : FnAddr) :
    (s.setScan a).turns = s.turns := rfl
@[simp] theorem State.setScan_mids (s : State) (a : FnAddr) :
    (s.setScan a).mids = s.mids := rfl
@[simp] theorem State.setScan_issuer (s : State) (a : FnAddr) :
    (s.setScan a).issuer = s.issuer := rfl
@[simp] theorem State.setScan_ioLog (s : State) (a : FnAddr) :
    (s.setScan a).ioLog = s.ioLog := rfl
@[simp] theorem State.setScan_rspOut (s : State) (a : FnAddr) :
    (s.setScan a).rspOut = s.rspOut := rfl
@[simp] theorem State.setScan_recOut (s : State) (a : FnAddr) :
    (s.setScan a).recOut = s.recOut := rfl

/-! `State.setMf` -/

@[simp] theorem State.setMf_lock (s : State) (b : Bool) :
    (s.setMf b).lock = s.lock := rfl
@[simp] theorem State.setMf_seq (s : State) (b : Bool) :
    (s.setMf b).seq = s.seq := rfl
@[simp] theorem State.setMf_tgt (s : State) (b : Bool) :
    (s.setMf b).tgt = s.tgt := rfl
@[simp] theorem State.setMf_raw (s : State) (b : Bool) :
    (s.setMf b).raw = s.raw := rfl
@[simp] theorem State.setMf_rawv (s : State) (b : Bool) :
    (s.setMf b).rawv = s.rawv := rfl
@[simp] theorem State.setMf_scan (s : State) (b : Bool) :
    (s.setMf b).scan = s.scan := rfl
@[simp] theorem State.setMf_mf (s : State) (b : Bool) :
    (s.setMf b).mf = b := rfl
@[simp] theorem State.setMf_cam (s : State) (b : Bool) :
    (s.setMf b).cam = s.cam := rfl
@[simp] theorem State.setMf_configAddress (s : State) (b : Bool) :
    (s.setMf b).configAddress = s.configAddress := rfl
@[simp] theorem State.setMf_mem (s : State) (b : Bool) :
    (s.setMf b).mem = s.mem := rfl
@[simp] theorem State.setMf_background (s : State) (b : Bool) :
    (s.setMf b).background = s.background := rfl
@[simp] theorem State.setMf_draws (s : State) (b : Bool) :
    (s.setMf b).draws = s.draws := rfl
@[simp] theorem State.setMf_reactions (s : State) (b : Bool) :
    (s.setMf b).reactions = s.reactions := rfl
@[simp] theorem State.setMf_callers (s : State) (b : Bool) :
    (s.setMf b).callers = s.callers := rfl
@[simp] theorem State.setMf_turns (s : State) (b : Bool) :
    (s.setMf b).turns = s.turns := rfl
@[simp] theorem State.setMf_mids (s : State) (b : Bool) :
    (s.setMf b).mids = s.mids := rfl
@[simp] theorem State.setMf_issuer (s : State) (b : Bool) :
    (s.setMf b).issuer = s.issuer := rfl
@[simp] theorem State.setMf_ioLog (s : State) (b : Bool) :
    (s.setMf b).ioLog = s.ioLog := rfl
@[simp] theorem State.setMf_rspOut (s : State) (b : Bool) :
    (s.setMf b).rspOut = s.rspOut := rfl
@[simp] theorem State.setMf_recOut (s : State) (b : Bool) :
    (s.setMf b).recOut = s.recOut := rfl

/-! `State.report` -/

@[simp] theorem State.report_lock (s : State) (e : RecEvent) :
    (s.report e).lock = s.lock := rfl
@[simp] theorem State.report_seq (s : State) (e : RecEvent) :
    (s.report e).seq = s.seq := rfl
@[simp] theorem State.report_tgt (s : State) (e : RecEvent) :
    (s.report e).tgt = s.tgt := rfl
@[simp] theorem State.report_raw (s : State) (e : RecEvent) :
    (s.report e).raw = s.raw := rfl
@[simp] theorem State.report_rawv (s : State) (e : RecEvent) :
    (s.report e).rawv = s.rawv := rfl
@[simp] theorem State.report_scan (s : State) (e : RecEvent) :
    (s.report e).scan = s.scan := rfl
@[simp] theorem State.report_mf (s : State) (e : RecEvent) :
    (s.report e).mf = s.mf := rfl
@[simp] theorem State.report_cam (s : State) (e : RecEvent) :
    (s.report e).cam = s.cam := rfl
@[simp] theorem State.report_configAddress (s : State) (e : RecEvent) :
    (s.report e).configAddress = s.configAddress := rfl
@[simp] theorem State.report_mem (s : State) (e : RecEvent) :
    (s.report e).mem = s.mem := rfl
@[simp] theorem State.report_background (s : State) (e : RecEvent) :
    (s.report e).background = s.background := rfl
@[simp] theorem State.report_draws (s : State) (e : RecEvent) :
    (s.report e).draws = s.draws := rfl
@[simp] theorem State.report_reactions (s : State) (e : RecEvent) :
    (s.report e).reactions = s.reactions := rfl
@[simp] theorem State.report_callers (s : State) (e : RecEvent) :
    (s.report e).callers = s.callers := rfl
@[simp] theorem State.report_turns (s : State) (e : RecEvent) :
    (s.report e).turns = s.turns := rfl
@[simp] theorem State.report_mids (s : State) (e : RecEvent) :
    (s.report e).mids = s.mids := rfl
@[simp] theorem State.report_issuer (s : State) (e : RecEvent) :
    (s.report e).issuer = s.issuer := rfl
@[simp] theorem State.report_ioLog (s : State) (e : RecEvent) :
    (s.report e).ioLog = s.ioLog := rfl
@[simp] theorem State.report_rspOut (s : State) (e : RecEvent) :
    (s.report e).rspOut = s.rspOut := rfl
@[simp] theorem State.report_recOut (s : State) (e : RecEvent) :
    (s.report e).recOut = e :: s.recOut := rfl

/-! `State.respond` -/

@[simp] theorem State.respond_lock (s : State) (r : Response) :
    (s.respond r).lock = s.lock := rfl
@[simp] theorem State.respond_seq (s : State) (r : Response) :
    (s.respond r).seq = s.seq := rfl
@[simp] theorem State.respond_tgt (s : State) (r : Response) :
    (s.respond r).tgt = s.tgt := rfl
@[simp] theorem State.respond_raw (s : State) (r : Response) :
    (s.respond r).raw = s.raw := rfl
@[simp] theorem State.respond_rawv (s : State) (r : Response) :
    (s.respond r).rawv = s.rawv := rfl
@[simp] theorem State.respond_scan (s : State) (r : Response) :
    (s.respond r).scan = s.scan := rfl
@[simp] theorem State.respond_mf (s : State) (r : Response) :
    (s.respond r).mf = s.mf := rfl
@[simp] theorem State.respond_cam (s : State) (r : Response) :
    (s.respond r).cam = s.cam := rfl
@[simp] theorem State.respond_configAddress (s : State) (r : Response) :
    (s.respond r).configAddress = s.configAddress := rfl
@[simp] theorem State.respond_mem (s : State) (r : Response) :
    (s.respond r).mem = s.mem := rfl
@[simp] theorem State.respond_background (s : State) (r : Response) :
    (s.respond r).background = s.background := rfl
@[simp] theorem State.respond_draws (s : State) (r : Response) :
    (s.respond r).draws = s.draws := rfl
@[simp] theorem State.respond_reactions (s : State) (r : Response) :
    (s.respond r).reactions = s.reactions := rfl
@[simp] theorem State.respond_callers (s : State) (r : Response) :
    (s.respond r).callers = s.callers := rfl
@[simp] theorem State.respond_turns (s : State) (r : Response) :
    (s.respond r).turns = s.turns := rfl
@[simp] theorem State.respond_mids (s : State) (r : Response) :
    (s.respond r).mids = s.mids := rfl
@[simp] theorem State.respond_issuer (s : State) (r : Response) :
    (s.respond r).issuer = s.issuer := rfl
@[simp] theorem State.respond_ioLog (s : State) (r : Response) :
    (s.respond r).ioLog = s.ioLog := rfl
@[simp] theorem State.respond_rspOut (s : State) (r : Response) :
    (s.respond r).rspOut = (s.issuer, r) :: s.rspOut := rfl
@[simp] theorem State.respond_recOut (s : State) (r : Response) :
    (s.respond r).recOut = s.recOut := rfl

/-! `State.logIo` -/

@[simp] theorem State.logIo_lock (s : State) (m : Master) (op : PortOp) :
    (s.logIo m op).lock = s.lock := rfl
@[simp] theorem State.logIo_seq (s : State) (m : Master) (op : PortOp) :
    (s.logIo m op).seq = s.seq := rfl
@[simp] theorem State.logIo_tgt (s : State) (m : Master) (op : PortOp) :
    (s.logIo m op).tgt = s.tgt := rfl
@[simp] theorem State.logIo_raw (s : State) (m : Master) (op : PortOp) :
    (s.logIo m op).raw = s.raw := rfl
@[simp] theorem State.logIo_rawv (s : State) (m : Master) (op : PortOp) :
    (s.logIo m op).rawv = s.rawv := rfl
@[simp] theorem State.logIo_scan (s : State) (m : Master) (op : PortOp) :
    (s.logIo m op).scan = s.scan := rfl
@[simp] theorem State.logIo_mf (s : State) (m : Master) (op : PortOp) :
    (s.logIo m op).mf = s.mf := rfl
@[simp] theorem State.logIo_cam (s : State) (m : Master) (op : PortOp) :
    (s.logIo m op).cam = s.cam := rfl
@[simp] theorem State.logIo_configAddress (s : State) (m : Master) (op : PortOp) :
    (s.logIo m op).configAddress = s.configAddress := rfl
@[simp] theorem State.logIo_mem (s : State) (m : Master) (op : PortOp) :
    (s.logIo m op).mem = s.mem := rfl
@[simp] theorem State.logIo_background (s : State) (m : Master) (op : PortOp) :
    (s.logIo m op).background = s.background := rfl
@[simp] theorem State.logIo_draws (s : State) (m : Master) (op : PortOp) :
    (s.logIo m op).draws = s.draws := rfl
@[simp] theorem State.logIo_reactions (s : State) (m : Master) (op : PortOp) :
    (s.logIo m op).reactions = s.reactions := rfl
@[simp] theorem State.logIo_callers (s : State) (m : Master) (op : PortOp) :
    (s.logIo m op).callers = s.callers := rfl
@[simp] theorem State.logIo_turns (s : State) (m : Master) (op : PortOp) :
    (s.logIo m op).turns = s.turns := rfl
@[simp] theorem State.logIo_mids (s : State) (m : Master) (op : PortOp) :
    (s.logIo m op).mids = s.mids := rfl
@[simp] theorem State.logIo_issuer (s : State) (m : Master) (op : PortOp) :
    (s.logIo m op).issuer = s.issuer := rfl
@[simp] theorem State.logIo_ioLog (s : State) (m : Master) (op : PortOp) :
    (s.logIo m op).ioLog = ⟨m, s.lock, op⟩ :: s.ioLog := rfl
@[simp] theorem State.logIo_rspOut (s : State) (m : Master) (op : PortOp) :
    (s.logIo m op).rspOut = s.rspOut := rfl
@[simp] theorem State.logIo_recOut (s : State) (m : Master) (op : PortOp) :
    (s.logIo m op).recOut = s.recOut := rfl

/-! `State.changeDevices` -/

@[simp] theorem State.changeDevices_lock (s : State) (cs : List Change) :
    (s.changeDevices cs).lock = s.lock := rfl
@[simp] theorem State.changeDevices_seq (s : State) (cs : List Change) :
    (s.changeDevices cs).seq = s.seq := rfl
@[simp] theorem State.changeDevices_tgt (s : State) (cs : List Change) :
    (s.changeDevices cs).tgt = s.tgt := rfl
@[simp] theorem State.changeDevices_raw (s : State) (cs : List Change) :
    (s.changeDevices cs).raw = s.raw := rfl
@[simp] theorem State.changeDevices_rawv (s : State) (cs : List Change) :
    (s.changeDevices cs).rawv = s.rawv := rfl
@[simp] theorem State.changeDevices_scan (s : State) (cs : List Change) :
    (s.changeDevices cs).scan = s.scan := rfl
@[simp] theorem State.changeDevices_mf (s : State) (cs : List Change) :
    (s.changeDevices cs).mf = s.mf := rfl
@[simp] theorem State.changeDevices_cam (s : State) (cs : List Change) :
    (s.changeDevices cs).cam = s.cam := rfl
@[simp] theorem State.changeDevices_configAddress (s : State) (cs : List Change) :
    (s.changeDevices cs).configAddress = s.configAddress := rfl
@[simp] theorem State.changeDevices_mem (s : State) (cs : List Change) :
    (s.changeDevices cs).mem = s.mem.change cs := rfl
@[simp] theorem State.changeDevices_background (s : State) (cs : List Change) :
    (s.changeDevices cs).background = s.background := rfl
@[simp] theorem State.changeDevices_draws (s : State) (cs : List Change) :
    (s.changeDevices cs).draws = s.draws := rfl
@[simp] theorem State.changeDevices_reactions (s : State) (cs : List Change) :
    (s.changeDevices cs).reactions = s.reactions := rfl
@[simp] theorem State.changeDevices_callers (s : State) (cs : List Change) :
    (s.changeDevices cs).callers = s.callers := rfl
@[simp] theorem State.changeDevices_turns (s : State) (cs : List Change) :
    (s.changeDevices cs).turns = s.turns := rfl
@[simp] theorem State.changeDevices_mids (s : State) (cs : List Change) :
    (s.changeDevices cs).mids = s.mids := rfl
@[simp] theorem State.changeDevices_issuer (s : State) (cs : List Change) :
    (s.changeDevices cs).issuer = s.issuer := rfl
@[simp] theorem State.changeDevices_ioLog (s : State) (cs : List Change) :
    (s.changeDevices cs).ioLog = s.ioLog := rfl
@[simp] theorem State.changeDevices_rspOut (s : State) (cs : List Change) :
    (s.changeDevices cs).rspOut = s.rspOut := rfl
@[simp] theorem State.changeDevices_recOut (s : State) (cs : List Change) :
    (s.changeDevices cs).recOut = s.recOut := rfl

/-! `State.nextDraw` -/

@[simp] theorem State.nextDraw_lock (s : State) :
    (s.nextDraw).lock = s.lock := rfl
@[simp] theorem State.nextDraw_seq (s : State) :
    (s.nextDraw).seq = s.seq := rfl
@[simp] theorem State.nextDraw_tgt (s : State) :
    (s.nextDraw).tgt = s.tgt := rfl
@[simp] theorem State.nextDraw_raw (s : State) :
    (s.nextDraw).raw = s.raw := rfl
@[simp] theorem State.nextDraw_rawv (s : State) :
    (s.nextDraw).rawv = s.rawv := rfl
@[simp] theorem State.nextDraw_scan (s : State) :
    (s.nextDraw).scan = s.scan := rfl
@[simp] theorem State.nextDraw_mf (s : State) :
    (s.nextDraw).mf = s.mf := rfl
@[simp] theorem State.nextDraw_cam (s : State) :
    (s.nextDraw).cam = s.cam := rfl
@[simp] theorem State.nextDraw_configAddress (s : State) :
    (s.nextDraw).configAddress = s.configAddress := rfl
@[simp] theorem State.nextDraw_mem (s : State) :
    (s.nextDraw).mem = s.mem := rfl
@[simp] theorem State.nextDraw_background (s : State) :
    (s.nextDraw).background = s.background := rfl
@[simp] theorem State.nextDraw_draws (s : State) :
    (s.nextDraw).draws = s.draws + 1 := rfl
@[simp] theorem State.nextDraw_reactions (s : State) :
    (s.nextDraw).reactions = s.reactions := rfl
@[simp] theorem State.nextDraw_callers (s : State) :
    (s.nextDraw).callers = s.callers := rfl
@[simp] theorem State.nextDraw_turns (s : State) :
    (s.nextDraw).turns = s.turns := rfl
@[simp] theorem State.nextDraw_mids (s : State) :
    (s.nextDraw).mids = s.mids := rfl
@[simp] theorem State.nextDraw_issuer (s : State) :
    (s.nextDraw).issuer = s.issuer := rfl
@[simp] theorem State.nextDraw_ioLog (s : State) :
    (s.nextDraw).ioLog = s.ioLog := rfl
@[simp] theorem State.nextDraw_rspOut (s : State) :
    (s.nextDraw).rspOut = s.rspOut := rfl
@[simp] theorem State.nextDraw_recOut (s : State) :
    (s.nextDraw).recOut = s.recOut := rfl

/-! `State.nextReaction` -/

@[simp] theorem State.nextReaction_lock (s : State) :
    (s.nextReaction).lock = s.lock := rfl
@[simp] theorem State.nextReaction_seq (s : State) :
    (s.nextReaction).seq = s.seq := rfl
@[simp] theorem State.nextReaction_tgt (s : State) :
    (s.nextReaction).tgt = s.tgt := rfl
@[simp] theorem State.nextReaction_raw (s : State) :
    (s.nextReaction).raw = s.raw := rfl
@[simp] theorem State.nextReaction_rawv (s : State) :
    (s.nextReaction).rawv = s.rawv := rfl
@[simp] theorem State.nextReaction_scan (s : State) :
    (s.nextReaction).scan = s.scan := rfl
@[simp] theorem State.nextReaction_mf (s : State) :
    (s.nextReaction).mf = s.mf := rfl
@[simp] theorem State.nextReaction_cam (s : State) :
    (s.nextReaction).cam = s.cam := rfl
@[simp] theorem State.nextReaction_configAddress (s : State) :
    (s.nextReaction).configAddress = s.configAddress := rfl
@[simp] theorem State.nextReaction_mem (s : State) :
    (s.nextReaction).mem = s.mem := rfl
@[simp] theorem State.nextReaction_background (s : State) :
    (s.nextReaction).background = s.background := rfl
@[simp] theorem State.nextReaction_draws (s : State) :
    (s.nextReaction).draws = s.draws := rfl
@[simp] theorem State.nextReaction_reactions (s : State) :
    (s.nextReaction).reactions = s.reactions.tail := rfl
@[simp] theorem State.nextReaction_callers (s : State) :
    (s.nextReaction).callers = s.callers := rfl
@[simp] theorem State.nextReaction_turns (s : State) :
    (s.nextReaction).turns = s.turns := rfl
@[simp] theorem State.nextReaction_mids (s : State) :
    (s.nextReaction).mids = s.mids := rfl
@[simp] theorem State.nextReaction_issuer (s : State) :
    (s.nextReaction).issuer = s.issuer := rfl
@[simp] theorem State.nextReaction_ioLog (s : State) :
    (s.nextReaction).ioLog = s.ioLog := rfl
@[simp] theorem State.nextReaction_rspOut (s : State) :
    (s.nextReaction).rspOut = s.rspOut := rfl
@[simp] theorem State.nextReaction_recOut (s : State) :
    (s.nextReaction).recOut = s.recOut := rfl

/-! `State.nextMids` -/

@[simp] theorem State.nextMids_lock (s : State) :
    (s.nextMids).lock = s.lock := rfl
@[simp] theorem State.nextMids_seq (s : State) :
    (s.nextMids).seq = s.seq := rfl
@[simp] theorem State.nextMids_tgt (s : State) :
    (s.nextMids).tgt = s.tgt := rfl
@[simp] theorem State.nextMids_raw (s : State) :
    (s.nextMids).raw = s.raw := rfl
@[simp] theorem State.nextMids_rawv (s : State) :
    (s.nextMids).rawv = s.rawv := rfl
@[simp] theorem State.nextMids_scan (s : State) :
    (s.nextMids).scan = s.scan := rfl
@[simp] theorem State.nextMids_mf (s : State) :
    (s.nextMids).mf = s.mf := rfl
@[simp] theorem State.nextMids_cam (s : State) :
    (s.nextMids).cam = s.cam := rfl
@[simp] theorem State.nextMids_configAddress (s : State) :
    (s.nextMids).configAddress = s.configAddress := rfl
@[simp] theorem State.nextMids_mem (s : State) :
    (s.nextMids).mem = s.mem := rfl
@[simp] theorem State.nextMids_background (s : State) :
    (s.nextMids).background = s.background := rfl
@[simp] theorem State.nextMids_draws (s : State) :
    (s.nextMids).draws = s.draws := rfl
@[simp] theorem State.nextMids_reactions (s : State) :
    (s.nextMids).reactions = s.reactions := rfl
@[simp] theorem State.nextMids_callers (s : State) :
    (s.nextMids).callers = s.callers := rfl
@[simp] theorem State.nextMids_turns (s : State) :
    (s.nextMids).turns = s.turns := rfl
@[simp] theorem State.nextMids_mids (s : State) :
    (s.nextMids).mids = s.mids.tail := rfl
@[simp] theorem State.nextMids_issuer (s : State) :
    (s.nextMids).issuer = s.issuer := rfl
@[simp] theorem State.nextMids_ioLog (s : State) :
    (s.nextMids).ioLog = s.ioLog := rfl
@[simp] theorem State.nextMids_rspOut (s : State) :
    (s.nextMids).rspOut = s.rspOut := rfl
@[simp] theorem State.nextMids_recOut (s : State) :
    (s.nextMids).recOut = s.recOut := rfl

/-! `State.nextTurn` -/

@[simp] theorem State.nextTurn_lock (s : State) :
    (s.nextTurn).lock = s.lock := rfl
@[simp] theorem State.nextTurn_seq (s : State) :
    (s.nextTurn).seq = s.seq := rfl
@[simp] theorem State.nextTurn_tgt (s : State) :
    (s.nextTurn).tgt = s.tgt := rfl
@[simp] theorem State.nextTurn_raw (s : State) :
    (s.nextTurn).raw = s.raw := rfl
@[simp] theorem State.nextTurn_rawv (s : State) :
    (s.nextTurn).rawv = s.rawv := rfl
@[simp] theorem State.nextTurn_scan (s : State) :
    (s.nextTurn).scan = s.scan := rfl
@[simp] theorem State.nextTurn_mf (s : State) :
    (s.nextTurn).mf = s.mf := rfl
@[simp] theorem State.nextTurn_cam (s : State) :
    (s.nextTurn).cam = s.cam := rfl
@[simp] theorem State.nextTurn_configAddress (s : State) :
    (s.nextTurn).configAddress = s.configAddress := rfl
@[simp] theorem State.nextTurn_mem (s : State) :
    (s.nextTurn).mem = s.mem := rfl
@[simp] theorem State.nextTurn_background (s : State) :
    (s.nextTurn).background = s.background := rfl
@[simp] theorem State.nextTurn_draws (s : State) :
    (s.nextTurn).draws = s.draws := rfl
@[simp] theorem State.nextTurn_reactions (s : State) :
    (s.nextTurn).reactions = s.reactions := rfl
@[simp] theorem State.nextTurn_callers (s : State) :
    (s.nextTurn).callers = s.callers := rfl
@[simp] theorem State.nextTurn_turns (s : State) :
    (s.nextTurn).turns = s.turns.tail := rfl
@[simp] theorem State.nextTurn_mids (s : State) :
    (s.nextTurn).mids = s.mids := rfl
@[simp] theorem State.nextTurn_issuer (s : State) :
    (s.nextTurn).issuer = s.issuer := rfl
@[simp] theorem State.nextTurn_ioLog (s : State) :
    (s.nextTurn).ioLog = s.ioLog := rfl
@[simp] theorem State.nextTurn_rspOut (s : State) :
    (s.nextTurn).rspOut = s.rspOut := rfl
@[simp] theorem State.nextTurn_recOut (s : State) :
    (s.nextTurn).recOut = s.recOut := rfl

/-! `State.accept` -/

@[simp] theorem State.accept_lock (s : State) (i : Nat) (rest : List Word) :
    (s.accept i rest).lock = s.lock := rfl
@[simp] theorem State.accept_seq (s : State) (i : Nat) (rest : List Word) :
    (s.accept i rest).seq = s.seq := rfl
@[simp] theorem State.accept_tgt (s : State) (i : Nat) (rest : List Word) :
    (s.accept i rest).tgt = s.tgt := rfl
@[simp] theorem State.accept_raw (s : State) (i : Nat) (rest : List Word) :
    (s.accept i rest).raw = s.raw := rfl
@[simp] theorem State.accept_rawv (s : State) (i : Nat) (rest : List Word) :
    (s.accept i rest).rawv = s.rawv := rfl
@[simp] theorem State.accept_scan (s : State) (i : Nat) (rest : List Word) :
    (s.accept i rest).scan = s.scan := rfl
@[simp] theorem State.accept_mf (s : State) (i : Nat) (rest : List Word) :
    (s.accept i rest).mf = s.mf := rfl
@[simp] theorem State.accept_cam (s : State) (i : Nat) (rest : List Word) :
    (s.accept i rest).cam = s.cam := rfl
@[simp] theorem State.accept_configAddress (s : State) (i : Nat) (rest : List Word) :
    (s.accept i rest).configAddress = s.configAddress := rfl
@[simp] theorem State.accept_mem (s : State) (i : Nat) (rest : List Word) :
    (s.accept i rest).mem = s.mem := rfl
@[simp] theorem State.accept_background (s : State) (i : Nat) (rest : List Word) :
    (s.accept i rest).background = s.background := rfl
@[simp] theorem State.accept_draws (s : State) (i : Nat) (rest : List Word) :
    (s.accept i rest).draws = s.draws := rfl
@[simp] theorem State.accept_reactions (s : State) (i : Nat) (rest : List Word) :
    (s.accept i rest).reactions = s.reactions := rfl
@[simp] theorem State.accept_callers (s : State) (i : Nat) (rest : List Word) :
    (s.accept i rest).callers = s.callers.set i rest := rfl
@[simp] theorem State.accept_turns (s : State) (i : Nat) (rest : List Word) :
    (s.accept i rest).turns = s.turns := rfl
@[simp] theorem State.accept_mids (s : State) (i : Nat) (rest : List Word) :
    (s.accept i rest).mids = s.mids := rfl
@[simp] theorem State.accept_issuer (s : State) (i : Nat) (rest : List Word) :
    (s.accept i rest).issuer = i := rfl
@[simp] theorem State.accept_ioLog (s : State) (i : Nat) (rest : List Word) :
    (s.accept i rest).ioLog = s.ioLog := rfl
@[simp] theorem State.accept_rspOut (s : State) (i : Nat) (rest : List Word) :
    (s.accept i rest).rspOut = s.rspOut := rfl
@[simp] theorem State.accept_recOut (s : State) (i : Nat) (rest : List Word) :
    (s.accept i rest).recOut = s.recOut := rfl

/-! `State.writeAddr` -/

@[simp] theorem State.writeAddr_lock (s : State) (m : Master) (w : Word) :
    (s.writeAddr m w).lock = s.lock := rfl
@[simp] theorem State.writeAddr_seq (s : State) (m : Master) (w : Word) :
    (s.writeAddr m w).seq = s.seq := rfl
@[simp] theorem State.writeAddr_tgt (s : State) (m : Master) (w : Word) :
    (s.writeAddr m w).tgt = s.tgt := rfl
@[simp] theorem State.writeAddr_raw (s : State) (m : Master) (w : Word) :
    (s.writeAddr m w).raw = s.raw := rfl
@[simp] theorem State.writeAddr_rawv (s : State) (m : Master) (w : Word) :
    (s.writeAddr m w).rawv = s.rawv := rfl
@[simp] theorem State.writeAddr_scan (s : State) (m : Master) (w : Word) :
    (s.writeAddr m w).scan = s.scan := rfl
@[simp] theorem State.writeAddr_mf (s : State) (m : Master) (w : Word) :
    (s.writeAddr m w).mf = s.mf := rfl
@[simp] theorem State.writeAddr_cam (s : State) (m : Master) (w : Word) :
    (s.writeAddr m w).cam = s.cam := rfl
@[simp] theorem State.writeAddr_configAddress (s : State) (m : Master) (w : Word) :
    (s.writeAddr m w).configAddress = w := rfl
@[simp] theorem State.writeAddr_mem (s : State) (m : Master) (w : Word) :
    (s.writeAddr m w).mem = s.mem := rfl
@[simp] theorem State.writeAddr_background (s : State) (m : Master) (w : Word) :
    (s.writeAddr m w).background = s.background := rfl
@[simp] theorem State.writeAddr_draws (s : State) (m : Master) (w : Word) :
    (s.writeAddr m w).draws = s.draws := rfl
@[simp] theorem State.writeAddr_reactions (s : State) (m : Master) (w : Word) :
    (s.writeAddr m w).reactions = s.reactions := rfl
@[simp] theorem State.writeAddr_callers (s : State) (m : Master) (w : Word) :
    (s.writeAddr m w).callers = s.callers := rfl
@[simp] theorem State.writeAddr_turns (s : State) (m : Master) (w : Word) :
    (s.writeAddr m w).turns = s.turns := rfl
@[simp] theorem State.writeAddr_mids (s : State) (m : Master) (w : Word) :
    (s.writeAddr m w).mids = s.mids := rfl
@[simp] theorem State.writeAddr_issuer (s : State) (m : Master) (w : Word) :
    (s.writeAddr m w).issuer = s.issuer := rfl
@[simp] theorem State.writeAddr_ioLog (s : State) (m : Master) (w : Word) :
    (s.writeAddr m w).ioLog = ⟨m, s.lock, .wa w⟩ :: s.ioLog := rfl
@[simp] theorem State.writeAddr_rspOut (s : State) (m : Master) (w : Word) :
    (s.writeAddr m w).rspOut = s.rspOut := rfl
@[simp] theorem State.writeAddr_recOut (s : State) (m : Master) (w : Word) :
    (s.writeAddr m w).recOut = s.recOut := rfl

/-! `State.afterData` -/

@[simp] theorem State.afterData_lock (s : State) (m : Master) (op : PortOp) (cs : List Change) :
    (s.afterData m op cs).lock = s.lock := rfl
@[simp] theorem State.afterData_seq (s : State) (m : Master) (op : PortOp) (cs : List Change) :
    (s.afterData m op cs).seq = s.seq := rfl
@[simp] theorem State.afterData_tgt (s : State) (m : Master) (op : PortOp) (cs : List Change) :
    (s.afterData m op cs).tgt = s.tgt := rfl
@[simp] theorem State.afterData_raw (s : State) (m : Master) (op : PortOp) (cs : List Change) :
    (s.afterData m op cs).raw = s.raw := rfl
@[simp] theorem State.afterData_rawv (s : State) (m : Master) (op : PortOp) (cs : List Change) :
    (s.afterData m op cs).rawv = s.rawv := rfl
@[simp] theorem State.afterData_scan (s : State) (m : Master) (op : PortOp) (cs : List Change) :
    (s.afterData m op cs).scan = s.scan := rfl
@[simp] theorem State.afterData_mf (s : State) (m : Master) (op : PortOp) (cs : List Change) :
    (s.afterData m op cs).mf = s.mf := rfl
@[simp] theorem State.afterData_cam (s : State) (m : Master) (op : PortOp) (cs : List Change) :
    (s.afterData m op cs).cam = s.cam := rfl
@[simp] theorem State.afterData_configAddress (s : State) (m : Master) (op : PortOp) (cs : List Change) :
    (s.afterData m op cs).configAddress = s.configAddress := rfl
@[simp] theorem State.afterData_mem (s : State) (m : Master) (op : PortOp) (cs : List Change) :
    (s.afterData m op cs).mem = s.mem.change cs := rfl
@[simp] theorem State.afterData_background (s : State) (m : Master) (op : PortOp) (cs : List Change) :
    (s.afterData m op cs).background = s.background := rfl
@[simp] theorem State.afterData_draws (s : State) (m : Master) (op : PortOp) (cs : List Change) :
    (s.afterData m op cs).draws = s.draws + 1 := rfl
@[simp] theorem State.afterData_reactions (s : State) (m : Master) (op : PortOp) (cs : List Change) :
    (s.afterData m op cs).reactions = s.reactions.tail := rfl
@[simp] theorem State.afterData_callers (s : State) (m : Master) (op : PortOp) (cs : List Change) :
    (s.afterData m op cs).callers = s.callers := rfl
@[simp] theorem State.afterData_turns (s : State) (m : Master) (op : PortOp) (cs : List Change) :
    (s.afterData m op cs).turns = s.turns := rfl
@[simp] theorem State.afterData_mids (s : State) (m : Master) (op : PortOp) (cs : List Change) :
    (s.afterData m op cs).mids = s.mids := rfl
@[simp] theorem State.afterData_issuer (s : State) (m : Master) (op : PortOp) (cs : List Change) :
    (s.afterData m op cs).issuer = s.issuer := rfl
@[simp] theorem State.afterData_ioLog (s : State) (m : Master) (op : PortOp) (cs : List Change) :
    (s.afterData m op cs).ioLog = ⟨m, s.lock, op⟩ :: s.ioLog := rfl
@[simp] theorem State.afterData_rspOut (s : State) (m : Master) (op : PortOp) (cs : List Change) :
    (s.afterData m op cs).rspOut = s.rspOut := rfl
@[simp] theorem State.afterData_recOut (s : State) (m : Master) (op : PortOp) (cs : List Change) :
    (s.afterData m op cs).recOut = s.recOut := rfl

/-! `State.blockReset` -/

@[simp] theorem State.blockReset_lock (s : State) :
    (s.blockReset).lock = false := rfl
@[simp] theorem State.blockReset_seq (s : State) :
    (s.blockReset).seq = Seq.idle := rfl
@[simp] theorem State.blockReset_tgt (s : State) :
    (s.blockReset).tgt = Config.freeTgt s.draws := rfl
@[simp] theorem State.blockReset_raw (s : State) :
    (s.blockReset).raw = Vector.ofFn (Config.freeLatch s.draws) := rfl
@[simp] theorem State.blockReset_rawv (s : State) :
    (s.blockReset).rawv = 0 := rfl
@[simp] theorem State.blockReset_scan (s : State) :
    (s.blockReset).scan = 0 := rfl
@[simp] theorem State.blockReset_mf (s : State) :
    (s.blockReset).mf = false := rfl
@[simp] theorem State.blockReset_cam (s : State) :
    (s.blockReset).cam = s.cam := rfl
@[simp] theorem State.blockReset_configAddress (s : State) :
    (s.blockReset).configAddress = s.configAddress := rfl
@[simp] theorem State.blockReset_mem (s : State) :
    (s.blockReset).mem = s.mem := rfl
@[simp] theorem State.blockReset_background (s : State) :
    (s.blockReset).background = s.background := rfl
@[simp] theorem State.blockReset_draws (s : State) :
    (s.blockReset).draws = s.draws + 1 := rfl
@[simp] theorem State.blockReset_reactions (s : State) :
    (s.blockReset).reactions = s.reactions := rfl
@[simp] theorem State.blockReset_callers (s : State) :
    (s.blockReset).callers = s.callers := rfl
@[simp] theorem State.blockReset_turns (s : State) :
    (s.blockReset).turns = s.turns := rfl
@[simp] theorem State.blockReset_mids (s : State) :
    (s.blockReset).mids = s.mids := rfl
@[simp] theorem State.blockReset_issuer (s : State) :
    (s.blockReset).issuer = s.issuer := rfl
@[simp] theorem State.blockReset_ioLog (s : State) :
    (s.blockReset).ioLog = s.ioLog := rfl
@[simp] theorem State.blockReset_rspOut (s : State) :
    (s.blockReset).rspOut = s.rspOut := rfl
@[simp] theorem State.blockReset_recOut (s : State) :
    (s.blockReset).recOut = s.recOut := rfl

end Sys2Proof.Machine
end

