-- ==== Sys2Proof/Laws/Pair.lean ====
section
/-! SUPPORT. What the port target, the events outside the block and a port-operation pair can do: one lemma each, which
later proofs cite instead of unfolding the operation. -/

namespace Sys2Proof.Machine

/-- `t` comes from `s` by events outside the block that are no reset: the block, its inputs and its outputs on RSP
and REC stand as they were, configuration space stays canonical, the reserved bits of `CONFIG_ADDRESS` stay clear, and
what passed on IO was issued outside the Accessor. -/
structure OutsideOnly (s t : State) : Prop where
  lock : t.lock = s.lock
  seq : t.seq = s.seq
  tgt : t.tgt = s.tgt
  raw : t.raw = s.raw
  rawv : t.rawv = s.rawv
  scan : t.scan = s.scan
  mf : t.mf = s.mf
  cam : t.cam = s.cam
  background : t.background = s.background
  callers : t.callers = s.callers
  turns : t.turns = s.turns
  mids : t.mids = s.mids
  issuer : t.issuer = s.issuer
  rspOut : t.rspOut = s.rspOut
  recOut : t.recOut = s.recOut
  memory : s.mem.wf → t.mem.wf
  camReserved : s.configAddress &&& camReservedBits s.cam = 0 → t.configAddress &&& camReservedBits t.cam = 0
  io : ∃ new, t.ioLog = new ++ s.ioLog ∧ ∀ e ∈ new, e.by_ = .outside

theorem OutsideOnly.refl (s : State) : OutsideOnly s s := by
  constructor <;> first | rfl | exact id | exact ⟨[], rfl, by simp⟩

theorem OutsideOnly.trans {s t u : State} (h : OutsideOnly s t) (h' : OutsideOnly t u) : OutsideOnly s u := by
  obtain ⟨n, hn, hn'⟩ := h.io
  obtain ⟨m, hm, hm'⟩ := h'.io
  constructor
  case memory => exact h'.memory ∘ h.memory
  case camReserved => exact h'.camReserved ∘ h.camReserved
  case io =>
    refine ⟨m ++ n, by rw [hm, hn, List.append_assoc], fun e he => ?_⟩
    rcases List.mem_append.mp he with he | he
    · exact hm' e he
    · exact hn' e he
  all_goals first
    | exact h'.lock.trans h.lock | exact h'.seq.trans h.seq | exact h'.tgt.trans h.tgt
    | exact h'.raw.trans h.raw | exact h'.rawv.trans h.rawv | exact h'.scan.trans h.scan
    | exact h'.mf.trans h.mf | exact h'.cam.trans h.cam
    | exact h'.background.trans h.background
    | exact h'.callers.trans h.callers | exact h'.turns.trans h.turns | exact h'.mids.trans h.mids
    | exact h'.issuer.trans h.issuer | exact h'.rspOut.trans h.rspOut | exact h'.recOut.trans h.recOut

/-- A data-port read answers exactly when enable is set, with the selected dword. -/
theorem readData_eq_ok {m : Master} {s t : State} {v : Word} :
    readData m s = .ok (v, t) ↔
      (camDec s.cam s.configAddress).en = true ∧ v = s.dataPort ∧ t = s.afterData m (.rd v) s.readReaction := by
  unfold readData
  by_cases hen : (camDec s.cam s.configAddress).en = true
  · rw [if_pos hen]
    constructor
    · intro h
      cases h
      exact ⟨hen, rfl, rfl⟩
    · rintro ⟨-, rfl, rfl⟩
      rfl
  · rw [if_neg hen]
    exact ⟨fun h => (nomatch h), fun h => absurd h.1 hen⟩

/-- A data-port write goes through exactly when enable is set. -/
theorem writeData_eq_ok {m : Master} {s t : State} {v : Word} :
    writeData m v s = .ok t ↔
      (camDec s.cam s.configAddress).en = true ∧ t = s.afterData m (.wd v) (s.writeReaction v) := by
  unfold writeData
  by_cases hen : (camDec s.cam s.configAddress).en = true
  · rw [if_pos hen]
    constructor
    · intro h
      cases h
      exact ⟨hen, rfl⟩
    · rintro ⟨-, rfl⟩
      rfl
  · rw [if_neg hen]
    exact ⟨fun h => (nomatch h), fun h => absurd h.1 hen⟩

theorem OutsideOnly.afterData (s : State) (op : PortOp) (cs : List Change) :
    OutsideOnly s (s.afterData .outside op cs) := by
  constructor
  case memory => exact fun h => Memory.change_wf h cs
  case camReserved => exact id
  case io => exact ⟨[⟨.outside, s.lock, op⟩], rfl, by simp⟩
  all_goals rfl

/-- A rogue port operation that is not refused leaves the block alone. -/
theorem rogueOp_ok {op : RogueOp} {s t : State} (h : rogueOp op s = .ok t) : OutsideOnly s t := by
  cases op with
  | writeAddr w =>
    simp only [rogueOp] at h
    split at h
    · cases h
      constructor
      case memory => exact id
      case camReserved => exact fun _ => ‹_›
      case io => exact ⟨[⟨.outside, s.lock, .wa w⟩], rfl, by simp⟩
      all_goals rfl
    · cases h
  | readAddr => cases h
  | writeData v =>
    obtain ⟨-, rfl⟩ := writeData_eq_ok.mp h
    exact .afterData ..
  | readData =>
    simp only [rogueOp] at h
    split at h
    · rename_i v t' hr
      cases h
      obtain ⟨-, -, rfl⟩ := readData_eq_ok.mp hr
      exact .afterData ..
    · cases h

/-- An event outside the block that is no reset leaves the block alone. -/
theorem outsideEvent_goOn {e : OutsideEvent} {s t : State} (h : outsideEvent e s = .goOn t) :
    OutsideOnly s t := by
  cases e with
  | port op =>
    simp only [outsideEvent] at h
    split at h
    · cases h
      exact rogueOp_ok ‹_›
    · cases h
  | device cs =>
    cases h
    constructor
    case memory => exact fun h => Memory.change_wf h cs
    case camReserved => exact id
    case io => exact ⟨[], rfl, by simp⟩
    all_goals rfl
  | reset => cases h

/-- Only the reset event resets the block. -/
theorem outsideEvent_wasReset {e : OutsideEvent} {s t : State} (h : outsideEvent e s = .wasReset t) :
    e = .reset ∧ t = s.blockReset := by
  cases e with
  | port op =>
    simp only [outsideEvent] at h
    split at h <;> cases h
  | device cs => cases h
  | reset =>
    cases h
    exact ⟨rfl, rfl⟩

/-- Events that all go on are followed by the rest from where they leave the machine. -/
theorem interlude_append {es es' : List OutsideEvent} {s u : State} (h : interlude es s = .goOn u) :
    interlude (es ++ es') s = interlude es' u := by
  induction es generalizing s with
  | nil =>
    cases h
    rfl
  | cons e es ih =>
    simp only [interlude, List.cons_append] at h ⊢
    split at h
    · exact ih h
    · cases h
    · cases h

theorem interlude_goOn {es : List OutsideEvent} {s t : State} (h : interlude es s = .goOn t) :
    OutsideOnly s t := by
  induction es generalizing s with
  | nil =>
    cases h
    exact .refl _
  | cons e es ih =>
    simp only [interlude] at h
    split at h
    · exact (outsideEvent_goOn ‹_›).trans (ih h)
    · cases h
    · cases h

/-- Events with a reset among them end in the reset of a state reached by events that are no reset. -/
theorem interlude_wasReset {es : List OutsideEvent} {s t : State} (h : interlude es s = .wasReset t) :
    ∃ u, OutsideOnly s u ∧ t = u.blockReset := by
  induction es generalizing s with
  | nil => cases h
  | cons e es ih =>
    simp only [interlude] at h
    cases he : outsideEvent e s with
    | goOn s' =>
      rw [he] at h
      obtain ⟨u, hu, ht⟩ := ih h
      exact ⟨u, (outsideEvent_goOn he).trans hu, ht⟩
    | wasReset s' =>
      rw [he] at h
      cases h
      exact ⟨s, .refl s, (outsideEvent_wasReset he).2⟩
    | refused r =>
      rw [he] at h
      cases h

/-- A read pair that completes: outside events only between its halves, then the data-port read. -/
theorem readPair_completed {w v : Word} {s t : State} (h : readPair w s = .completed v t) :
    ∃ u, OutsideOnly (openPair w s).nextMids u ∧ (camDec u.cam u.configAddress).en = true ∧ v = u.dataPort ∧
      t = (u.afterData .accessor (.rd v) u.readReaction).setLock false := by
  unfold readPair at h
  split at h
  · cases h
  · cases h
  · rename_i u hu
    split at h
    · rename_i v' u' hr
      cases h
      obtain ⟨hen, hv, rfl⟩ := readData_eq_ok.mp hr
      exact ⟨u, interlude_goOn hu, hen, hv, rfl⟩
    · cases h

/-- A read pair that is abandoned: the block was reset between its halves. -/
theorem readPair_abandoned {w : Word} {s t : State} (h : readPair w s = .abandoned t) :
    ∃ u, OutsideOnly (openPair w s).nextMids u ∧ t = u.blockReset := by
  unfold readPair at h
  split at h
  · rename_i u hu
    cases h
    exact interlude_wasReset hu
  · cases h
  · split at h <;> cases h

/-- A write pair that completes: outside events only between its halves, then the data-port write. -/
theorem writePair_completed {w v : Word} {s t : State} {x : Unit} (h : writePair w v s = .completed x t) :
    ∃ u, OutsideOnly (openPair w s).nextMids u ∧ (camDec u.cam u.configAddress).en = true ∧
      t = (u.afterData .accessor (.wd v) (u.writeReaction v)).setLock false := by
  unfold writePair at h
  split at h
  · cases h
  · cases h
  · rename_i u hu
    split at h
    · rename_i u' hr
      cases h
      obtain ⟨hen, rfl⟩ := writeData_eq_ok.mp hr
      exact ⟨u, interlude_goOn hu, hen, rfl⟩
    · cases h

/-- A write pair that is abandoned: the block was reset between its halves, and nothing was written. -/
theorem writePair_abandoned {w v : Word} {s t : State} (h : writePair w v s = .abandoned t) :
    ∃ u, OutsideOnly (openPair w s).nextMids u ∧ t = u.blockReset := by
  unfold writePair at h
  split at h
  · rename_i u hu
    cases h
    exact interlude_wasReset hu
  · cases h
  · split at h <;> cases h

/-- An operation of one pair that answers a next state: the requester was held, or the pair completed, or it was
abandoned. -/
theorem withPair_next {α : Type} {pair : State → PairResult α} {finish : α → State → State} {s t : State}
    (h : withPair pair finish s = .next t) :
    (s.lock = true ∧ t = s) ∨
      s.lock = false ∧ ((∃ v u, pair s = .completed v u ∧ t = finish v u) ∨ pair s = .abandoned t) := by
  unfold withPair at h
  split at h
  · cases h
    exact .inl ⟨‹_›, rfl⟩
  · refine .inr ⟨by simp_all, ?_⟩
    split at h
    · cases h
      exact .inl ⟨_, _, ‹_›, rfl⟩
    · cases h
      exact .inr ‹_›
    · cases h

end Sys2Proof.Machine
end

