-- ==== Sys2Proof/Laws/PerInstr.lean ====
section
/-! SUPPORT. A statement made per instruction: what the encoder writes for it is what its row of spec/opcode_table.json matches. -/

namespace Sys2Proof.Laws.TableRow

/-- The match and mask of a row of spec/opcode_table.json. -/
inductive Row where
  | cmd (pattern mask : Word)
  | key (pattern mask : Key)

/-- The row of an instruction, copied from spec/opcode_table.json. -/
def rowOf : Instr → Row
  | .cfgrd _ _ _ _ => .cmd 0x00000000#32 0xFF000000#32
  | .cfgwr _ _ _ _ _ => .cmd 0x01000000#32 0xFF000000#32
  | .decode _ _ _ => .cmd 0x02000000#32 0xFF0000FF#32
  | .enum => .cmd 0x03000000#32 0xFFFFFFFF#32
  | .ldId => .key 0x0000#15 0x00FF#15
  | .ldCmdsts => .key 0x0004#15 0x00FF#15
  | .ldClass => .key 0x0008#15 0x00FF#15
  | .ldHdr => .key 0x000C#15 0x00FF#15
  | .ldSBar0 => .key 0x0010#15 0x7FFF#15
  | .ldSBar1 => .key 0x0014#15 0x7FFF#15
  | .ldSBar2 => .key 0x0018#15 0x7FFF#15
  | .ldSBar3 => .key 0x001C#15 0x7FFF#15
  | .ldSBar4 => .key 0x0020#15 0x7FFF#15
  | .ldSBar5 => .key 0x0024#15 0x7FFF#15
  | .ldSCis => .key 0x0028#15 0x7FFF#15
  | .ldSSubsys => .key 0x002C#15 0x7FFF#15
  | .ldSRom => .key 0x0030#15 0x7FFF#15
  | .ldSCap => .key 0x0034#15 0x7FFF#15
  | .ldSInt => .key 0x003C#15 0x7FFF#15
  | .ldBBar0 => .key 0x0110#15 0x7FFF#15
  | .ldBBar1 => .key 0x0114#15 0x7FFF#15
  | .ldBBus => .key 0x0118#15 0x7FFF#15
  | .ldBIo => .key 0x011C#15 0x7FFF#15
  | .ldBMem => .key 0x0120#15 0x7FFF#15
  | .ldBPmem => .key 0x0124#15 0x7FFF#15
  | .ldBPbaseu => .key 0x0128#15 0x7FFF#15
  | .ldBPlimu => .key 0x012C#15 0x7FFF#15
  | .ldBIou => .key 0x0130#15 0x7FFF#15
  | .ldBCap => .key 0x0134#15 0x7FFF#15
  | .ldBRom => .key 0x0138#15 0x7FFF#15
  | .ldBInt => .key 0x013C#15 0x7FFF#15
  | .ldCRaw0 => .key 0x0210#15 0x7FFF#15
  | .ldCRaw1 => .key 0x0214#15 0x7FFF#15
  | .ldCRaw2 => .key 0x0218#15 0x7FFF#15
  | .ldCRaw3 => .key 0x021C#15 0x7FFF#15
  | .ldCRaw4 => .key 0x0220#15 0x7FFF#15
  | .ldCRaw5 => .key 0x0224#15 0x7FFF#15
  | .ldCRaw6 => .key 0x0228#15 0x7FFF#15
  | .ldCRaw7 => .key 0x022C#15 0x7FFF#15
  | .ldCRaw8 => .key 0x0230#15 0x7FFF#15
  | .ldCRaw9 => .key 0x0234#15 0x7FFF#15
  | .ldCRaw10 => .key 0x0238#15 0x7FFF#15
  | .ldCRaw11 => .key 0x023C#15 0x7FFF#15

/-- The first word, or the key, has the row's fixed bits. -/
def Fits : Encoded → Row → Prop
  | .cmd (w :: _), .cmd pattern mask => w &&& mask = pattern
  | .key k, .key pattern mask => k &&& mask = pattern
  | _, _ => False

/-- The encoding of an instruction has the fixed bits of its row. -/
def Statement (i : Instr) : Prop := Fits (encode i) (rowOf i)

theorem cfgrd (bus : BitVec 8) (dev : BitVec 5) (fn : BitVec 3) (reg : BitVec 8) :
    Statement (.cfgrd bus dev fn reg) := by
  show cmdWord _ _ _ _ _ &&& _ = _
  apply BitVec.eq_of_getLsbD_eq
  intro i hi
  simp only [cmdWord, BitVec.getLsbD_and, BitVec.getLsbD_append]
  interval_cases i <;> simp

theorem cfgwr (bus : BitVec 8) (dev : BitVec 5) (fn : BitVec 3) (reg : BitVec 8) (value : Word) :
    Statement (.cfgwr bus dev fn reg value) := by
  show cmdWord _ _ _ _ _ &&& _ = _
  apply BitVec.eq_of_getLsbD_eq
  intro i hi
  simp only [cmdWord, BitVec.getLsbD_and, BitVec.getLsbD_append]
  interval_cases i <;> simp

theorem decode (bus : BitVec 8) (dev : BitVec 5) (fn : BitVec 3) :
    Statement (.decode bus dev fn) := by
  show cmdWord _ _ _ _ _ &&& _ = _
  apply BitVec.eq_of_getLsbD_eq
  intro i hi
  simp only [cmdWord, BitVec.getLsbD_and, BitVec.getLsbD_append]
  interval_cases i <;> simp

theorem enum : Statement .enum := rfl

theorem ldId : Statement .ldId := rfl

theorem ldCmdsts : Statement .ldCmdsts := rfl

theorem ldClass : Statement .ldClass := rfl

theorem ldHdr : Statement .ldHdr := rfl

theorem ldSBar0 : Statement .ldSBar0 := rfl

theorem ldSBar1 : Statement .ldSBar1 := rfl

theorem ldSBar2 : Statement .ldSBar2 := rfl

theorem ldSBar3 : Statement .ldSBar3 := rfl

theorem ldSBar4 : Statement .ldSBar4 := rfl

theorem ldSBar5 : Statement .ldSBar5 := rfl

theorem ldSCis : Statement .ldSCis := rfl

theorem ldSSubsys : Statement .ldSSubsys := rfl

theorem ldSRom : Statement .ldSRom := rfl

theorem ldSCap : Statement .ldSCap := rfl

theorem ldSInt : Statement .ldSInt := rfl

theorem ldBBar0 : Statement .ldBBar0 := rfl

theorem ldBBar1 : Statement .ldBBar1 := rfl

theorem ldBBus : Statement .ldBBus := rfl

theorem ldBIo : Statement .ldBIo := rfl

theorem ldBMem : Statement .ldBMem := rfl

theorem ldBPmem : Statement .ldBPmem := rfl

theorem ldBPbaseu : Statement .ldBPbaseu := rfl

theorem ldBPlimu : Statement .ldBPlimu := rfl

theorem ldBIou : Statement .ldBIou := rfl

theorem ldBCap : Statement .ldBCap := rfl

theorem ldBRom : Statement .ldBRom := rfl

theorem ldBInt : Statement .ldBInt := rfl

theorem ldCRaw0 : Statement .ldCRaw0 := rfl

theorem ldCRaw1 : Statement .ldCRaw1 := rfl

theorem ldCRaw2 : Statement .ldCRaw2 := rfl

theorem ldCRaw3 : Statement .ldCRaw3 := rfl

theorem ldCRaw4 : Statement .ldCRaw4 := rfl

theorem ldCRaw5 : Statement .ldCRaw5 := rfl

theorem ldCRaw6 : Statement .ldCRaw6 := rfl

theorem ldCRaw7 : Statement .ldCRaw7 := rfl

theorem ldCRaw8 : Statement .ldCRaw8 := rfl

theorem ldCRaw9 : Statement .ldCRaw9 := rfl

theorem ldCRaw10 : Statement .ldCRaw10 := rfl

theorem ldCRaw11 : Statement .ldCRaw11 := rfl

end Sys2Proof.Laws.TableRow
end

