-- ==== Sys2Proof/Laws/Step.lean ====
section
/-! SUPPORT. What a meaning and a step can do, said once: the closed form of an undisturbed pair, the inversion of a load, and
the cases of a step. -/

namespace Sys2Proof.Machine

/-! ### The undisturbed pair -/

theorem beginPair_undisturbed {w : Word} {s : State} (h : s.mids.headD [] = []) :
    beginPair w s = .goOn (openPair w s).nextMids := by
  unfold beginPair
  rw [h]
  rfl

theorem readPair_undisturbed {s : State} (h : s.mids.headD [] = []) (b : BitVec 8) (d : BitVec 5) (f : BitVec 3)
    (r : BitVec 8) :
    readPair (camEnc s.cam b d f r) s =
      .completed (s.mem.dwordAt s.background s.draws (effectiveAddr b d f r))
        ((((openPair (camEnc s.cam b d f r) s).nextMids).afterData .accessor
          (.rd (s.mem.dwordAt s.background s.draws (effectiveAddr b d f r))) (s.reactions.headD [])).setLock false) := by
  unfold readPair
  rw [beginPair_undisturbed h]
  have hv : ((openPair (camEnc s.cam b d f r) s).nextMids).dataPort =
      s.mem.dwordAt s.background s.draws (effectiveAddr b d f r) := by
    simp [State.dataPort, openPair]
  have hr : readData .accessor (openPair (camEnc s.cam b d f r) s).nextMids =
      .ok (s.mem.dwordAt s.background s.draws (effectiveAddr b d f r),
        ((openPair (camEnc s.cam b d f r) s).nextMids).afterData .accessor
          (.rd (s.mem.dwordAt s.background s.draws (effectiveAddr b d f r))) (s.reactions.headD [])) := by
    rw [readData_eq_ok]
    exact ⟨by simp [openPair], hv.symm, rfl⟩
  simp only [hr]

theorem writePair_undisturbed {s : State} (h : s.mids.headD [] = []) (b : BitVec 8) (d : BitVec 5) (f : BitVec 3)
    (r : BitVec 8) (v : Word) :
    writePair (camEnc s.cam b d f r) v s =
      .completed ()
        ((((openPair (camEnc s.cam b d f r) s).nextMids).afterData .accessor (.wd v)
          ((openPair (camEnc s.cam b d f r) s).nextMids.writeReaction v)).setLock false) := by
  unfold writePair
  rw [beginPair_undisturbed h]
  have hr : writeData .accessor v (openPair (camEnc s.cam b d f r) s).nextMids =
      .ok (((openPair (camEnc s.cam b d f r) s).nextMids).afterData .accessor (.wd v)
        ((openPair (camEnc s.cam b d f r) s).nextMids.writeReaction v)) := by
    rw [writeData_eq_ok]
    exact ⟨by simp [openPair], rfl⟩
  simp only [hr]

/-! ### The micro-operations -/

/-- Every micro-operation is the template at its own offset and latch. -/
theorem exec_microOp {row : MicroOp} (h : row ∈ microOps) (s : State) :
    exec row.op s = load row.offset row.latch s := by
  simp only [microOps, microOpsCommon, microOpsStandard, microOpsBridge, microOpsCardBus, List.cons_append,
    List.nil_append, List.mem_cons, List.not_mem_nil, or_false] at h
  rcases h with rfl | rfl | rfl | rfl | rfl | rfl | rfl | rfl | rfl | rfl | rfl | rfl | rfl | rfl | rfl | rfl | rfl |
    rfl | rfl | rfl | rfl | rfl | rfl | rfl | rfl | rfl | rfl | rfl | rfl | rfl | rfl | rfl | rfl | rfl | rfl | rfl |
    rfl | rfl | rfl <;> rfl

/-- A key that decodes, decodes to a row's micro-operation. -/
theorem microOp_of_decodeKey {k : Key} {i : Instr} (h : decodeKey k = .ok i) : ∃ row ∈ microOps, row.op = i := by
  unfold decodeKey at h
  split at h
  · rename_i r hr
    cases h
    have hmem := List.mem_of_find?_eq_some hr
    have hall : ∀ r ∈ keyTable, ∃ row ∈ microOps, row.op = r.op := by decide
    exact hall r hmem
  · cases h

/-- A micro-operation is accepted exactly while `LOCK` is 0. -/
theorem accepts_microOp {row : MicroOp} (h : row ∈ microOps) (s : State) : accepts row.op s = !s.lock := by
  simp only [microOps, microOpsCommon, microOpsStandard, microOpsBridge, microOpsCardBus, List.cons_append,
    List.nil_append, List.mem_cons, List.not_mem_nil, or_false] at h
  rcases h with rfl | rfl | rfl | rfl | rfl | rfl | rfl | rfl | rfl | rfl | rfl | rfl | rfl | rfl | rfl | rfl | rfl |
    rfl | rfl | rfl | rfl | rfl | rfl | rfl | rfl | rfl | rfl | rfl | rfl | rfl | rfl | rfl | rfl | rfl | rfl | rfl |
    rfl | rfl | rfl <;> rfl

/-- A load that answers a next state was held, or latched what the data port answered after outside events only, or was
abandoned by a reset. -/
theorem load_next {o : BitVec 8} {k : Fin 16} {s t : State} (h : load o k s = .next t) :
    (s.lock = true ∧ t = s) ∨
      s.lock = false ∧
        ∃ u, OutsideOnly (openPair (camEnc s.cam (busOf s.tgt) (devOf s.tgt) (fnOf s.tgt) o) s).nextMids u ∧
          (t = ((u.afterData .accessor (.rd u.dataPort) u.readReaction).setLock false).latch k u.dataPort ∨
            t = u.blockReset) := by
  rcases withPair_next h with h | ⟨hl, ⟨v, u, hp, rfl⟩ | hp⟩
  · exact .inl h
  · obtain ⟨u', ho, -, rfl, rfl⟩ := readPair_completed hp
    exact .inr ⟨hl, u', ho, .inl rfl⟩
  · obtain ⟨u', ho, rfl⟩ := readPair_abandoned hp
    exact .inr ⟨hl, u', ho, .inr rfl⟩

/-! ### Every operation of one pair -/

/-- How a `CFGRD`, a `CFGWR` or a load ends whose pair does not reach its data-port operation, or reaches it with enable 0. -/
theorem exec_pairWord {s : State} {i : Instr} {w : Word} (h : s.pairWord i w) (hl : s.lock = false) :
    (∀ t, beginPair w s = .wasReset t → exec i s = .next t) ∧
      (∀ r, beginPair w s = .refused r → exec i s = .refused r) ∧
      (∀ u, beginPair w s = .goOn u → (camDec u.cam u.configAddress).en = false →
        exec i s = .refused (.dataPortDisabled u.configAddress)) := by
  have hread : ∀ (finish : Word → State → State),
      (∀ t, beginPair w s = .wasReset t → withPair (readPair w) finish s = .next t) ∧
        (∀ r, beginPair w s = .refused r → withPair (readPair w) finish s = .refused r) ∧
        (∀ u, beginPair w s = .goOn u → (camDec u.cam u.configAddress).en = false →
          withPair (readPair w) finish s = .refused (.dataPortDisabled u.configAddress)) := by
    intro finish
    refine ⟨fun t ht => ?_, fun r hr => ?_, fun u hu he => ?_⟩
    · simp [withPair, hl, readPair, ht]
    · simp [withPair, hl, readPair, hr]
    · simp [withPair, hl, readPair, hu, readData, he]
  rcases h with ⟨b, d, f, r, rfl, rfl⟩ | ⟨b, d, f, r, v, rfl, rfl⟩ | ⟨row, hrow, rfl, rfl⟩
  · exact hread _
  · show (∀ t, _ → execCfgwr b d f r v s = _) ∧ (∀ r', _ → execCfgwr b d f r v s = _) ∧
      (∀ u, _ → _ → execCfgwr b d f r v s = _)
    unfold execCfgwr
    refine ⟨fun t ht => ?_, fun r hr => ?_, fun u hu he => ?_⟩
    · simp [withPair, hl, writePair, ht]
    · simp [withPair, hl, writePair, hr]
    · simp [withPair, hl, writePair, hu, writeData, he]
  · rw [exec_microOp hrow]
    exact hread _

/-! ### Commands -/

/-- The commands that come from CMD are the four of 30_encoding.md R94. -/
theorem decodeCmd_ok {ws rest : List Word} {i : Instr} (h : decodeCmd ws = .ok (i, rest)) :
    (∃ b d f r, i = .cfgrd b d f r) ∨ (∃ b d f r v, i = .cfgwr b d f r v) ∨ (∃ b d f, i = .decode b d f) ∨
      i = .enum := by
  cases ws with
  | nil => cases h
  | cons w ws =>
    simp only [decodeCmd] at h
    split at h
    · cases h
      exact .inl ⟨_, _, _, _, rfl⟩
    · split at h
      · cases ws with
        | nil => cases h
        | cons v ws =>
          cases h
          exact .inr (.inl ⟨_, _, _, _, _, rfl⟩)
      · split at h
        · cases h
          exact .inr (.inr (.inl ⟨_, _, _, rfl⟩))
        · split at h
          · cases h
            exact .inr (.inr (.inr rfl))
          · split at h
            · cases h
            · split at h <;> cases h

/-! ### The step -/

/-- What one turn can do to a state: nothing; an event outside the block; a load of the running decode; the closing step;
an accepted command. -/
inductive TurnCase (s t : State) : Prop
  | waits (h : t = s)
  | outside (h : OutsideOnly s t)
  | wasReset (h : t = s.blockReset)
  | load (row : MicroOp) (k : Key) (hrow : row ∈ microOps) (hseq : s.seq ≠ .idle) (hlock : s.lock = false)
      (hkey : s.nextKey = some k) (hdec : decodeKey k = .ok row.op) (h : load row.offset row.latch s = .next t)
  | closes (hseq : s.seq ≠ .idle) (hkey : s.nextKey = none) (h : conclude s = .next t)
  | command (n : Nat) (i : Instr) (rest : List Word) (hdec : decodeCmd (s.queue n) = .ok (i, rest))
      (hacc : accepts i s = true) (h : exec i (s.accept n rest) = .next t)

theorem sequencerTurn_cases {s t : State} (h : sequencerTurn s = .next t) : TurnCase s t := by
  unfold sequencerTurn at h
  split at h
  · cases h
    exact .waits rfl
  · rename_i hseq
    split at h
    · rename_i hk
      exact .closes hseq hk h
    · rename_i k hk
      split at h
      · rename_i i hi
        obtain ⟨row, hrow, rfl⟩ := microOp_of_decodeKey hi
        split at h
        · rename_i ha
          rw [accepts_microOp hrow] at ha
          rw [exec_microOp hrow] at h
          exact .load row k hrow hseq (by simpa using ha) hk hi h
        · cases h
          exact .waits rfl
      · cases h

theorem callerTurn_cases {n : Nat} {s t : State} (h : callerTurn n s = .next t) : TurnCase s t := by
  unfold callerTurn at h
  split at h
  · cases h
    exact .waits rfl
  · cases h
    exact .waits rfl
  · cases h
  · rename_i i rest hd
    split at h
    · exact .command n i rest hd ‹_› h
    · cases h
      exact .waits rfl

theorem takeTurn_cases {turn : Turn} {s t : State} (h : takeTurn turn s = .next t) : TurnCase s t := by
  cases turn with
  | sequencer => exact sequencerTurn_cases h
  | caller n => exact callerTurn_cases h
  | outside e =>
    simp only [takeTurn] at h
    split at h
    · cases h
      exact .outside (outsideEvent_goOn ‹_›)
    · cases h
      exact .wasReset (outsideEvent_wasReset ‹_›).2
    · cases h

/-- A step waits, or takes a turn on the state with that turn, or one draw, used up. -/
theorem step_cases {s t : State} (h : step s = .next t) :
    t = s ∨ ∃ s0, (s0 = s ∨ s0 = s.nextTurn ∨ s0 = s.nextDraw) ∧ TurnCase s0 t := by
  unfold step at h
  split at h
  · cases h
    exact .inl rfl
  · rename_i turn s0 hc
    refine .inr ⟨s0, ?_, takeTurn_cases h⟩
    unfold chooseTurn at hc
    split at hc
    · cases hc
      exact .inr (.inl rfl)
    · split at hc
      · cases hc
      · cases hc
        exact .inl rfl
      · cases hc
        exact .inr (.inr rfl)

end Sys2Proof.Machine
end

