-- ==== Sys2Proof/Laws/Sequence.lean ====
section
/-! SUPPORT. The order of the loads of a decode: which latches a prefix of the order makes valid, which load comes next, and
which micro-operation its key selects. -/

namespace Sys2Proof.Machine

/-- The valid bits a list of loads leaves are those of its members. -/
theorem valid_loadedMask (ks : List (Fin 16)) (j : Fin 16) :
    (loadedMask ks).getLsbD j.val = decide (j ∈ ks) := by
  induction ks with
  | nil => simp [loadedMask]
  | cons k ks ih =>
    have hcons : loadedMask (k :: ks) = loadedMask ks ||| (1#16 <<< k.val) := rfl
    rw [hcons, BitVec.getLsbD_or, ih]
    by_cases h : j = k
    · subst h
      simp
    · have hne : j.val ≠ k.val := fun e => h (Fin.ext e)
      simp [h]
      omega

theorem loadedMask_append (ks : List (Fin 16)) (k : Fin 16) :
    loadedMask (ks ++ [k]) = loadedMask ks ||| (1#16 <<< k.val) := by
  induction ks with
  | nil => rfl
  | cons j ks ih =>
    show loadedMask (ks ++ [k]) ||| _ = (loadedMask ks ||| _) ||| _
    rw [ih, BitVec.or_assoc, BitVec.or_assoc, BitVec.or_comm (1#16 <<< k.val)]

theorem valid_of_loadedMask {s : State} {ks : List (Fin 16)} (h : s.rawv = loadedMask ks) (j : Fin 16) :
    s.valid j = decide (j ∈ ks) := by
  unfold State.valid
  rw [h, valid_loadedMask]

/-- The loads after `LD_HDR`: none exactly for an Unknown code. -/
theorem groupLoads_cases (c : BitVec 7) :
    (c = 0 ∧ groupLoads c = [4, 5, 6, 7, 8, 9, 10, 11, 12, 13, 15]) ∨
      ((c = 1 ∨ c = 2) ∧ groupLoads c = [4, 5, 6, 7, 8, 9, 10, 11, 12, 13, 14, 15]) ∨
      ((c ≠ 0 ∧ c ≠ 1 ∧ c ≠ 2) ∧ groupLoads c = []) := by
  unfold groupLoads
  split
  · exact .inl ⟨‹_›, rfl⟩
  · split
    · exact .inr (.inl ⟨.inl ‹_›, rfl⟩)
    · split
      · exact .inr (.inl ⟨.inr ‹_›, rfl⟩)
      · exact .inr (.inr ⟨⟨‹_›, ‹_›, ‹_›⟩, rfl⟩)

theorem loadOrder_nodup (c : BitVec 7) : (loadOrder c).Nodup := by
  unfold loadOrder
  rcases groupLoads_cases c with ⟨-, h⟩ | ⟨-, h⟩ | ⟨-, h⟩ <;> rw [h] <;> decide

theorem loadOrder_length (c : BitVec 7) : 4 ≤ (loadOrder c).length ∧ (loadOrder c).length ≤ 16 := by
  unfold loadOrder
  rcases groupLoads_cases c with ⟨-, h⟩ | ⟨-, h⟩ | ⟨-, h⟩ <;> rw [h] <;> decide

/-- The latches the record of a layout reads are those its decode loads. -/
theorem groupLatches_eq (c : BitVec 7) : groupLatches c = groupLoads c := by
  unfold groupLatches groupLoads variantOf
  by_cases h0 : c = 0#7
  · simp [h0]
  · by_cases h1 : c = 1#7
    · simp [h1]
    · by_cases h2 : c = 2#7
      · simp [h2]
      · simp [h0, h1, h2]

/-- Where the first n members of an order without repeats are loaded, the first unloaded member of a tail that starts
at or before position n is the n-th. -/
theorem firstUnloaded_eq {s : State} {ks : List (Fin 16)} (hn : ks.Nodup) {n : Nat}
    (hv : s.rawv = loadedMask (ks.take n)) :
    ∀ pre l : List (Fin 16), ks = pre ++ l → pre.length ≤ n → s.firstUnloaded l = ks[n]? := by
  intro pre l
  induction l generalizing pre with
  | nil =>
    intro hk hle
    simp only [List.append_nil] at hk
    subst hk
    simp [State.firstUnloaded, hle]
  | cons a l ih =>
    intro hk hle
    have hva := valid_of_loadedMask hv a
    unfold State.firstUnloaded
    rw [List.find?_cons]
    by_cases hlt : pre.length = n
    · have hnot : a ∉ ks.take n := by
        rw [hk, ← hlt, List.take_left]
        rw [hk] at hn
        exact fun hmem => (List.nodup_append.mp hn).2.2 a hmem a (by simp) rfl
      rw [hva, decide_eq_false hnot]
      simp [hk, ← hlt]
    · have hmem : a ∈ ks.take n := by
        rw [hk, List.take_append]
        apply List.mem_append_right
        have : n - pre.length = (n - pre.length - 1) + 1 := by omega
        rw [this, List.take_succ_cons]
        simp
      rw [hva, decide_eq_true hmem]
      exact ih (pre ++ [a]) (by simp [hk]) (by simp; omega)

/-- The low byte of a key is what its row of the table says: the row's own offset. -/
theorem keyTable_offset : ∀ r ∈ keyTable, ∀ row ∈ microOps, row.op = r.op →
    r.mask.extractLsb' 0 8 = 0xFF#8 ∧ r.pattern.extractLsb' 0 8 = row.offset := by decide

theorem microOps_offset : ∀ row ∈ microOps, row.offset = BitVec.ofNat 8 (4 * row.latch.val) := by decide

/-- A key that decodes has its row's offset in its low byte. -/
theorem decodeKey_offset {k : Key} {row : MicroOp} (hrow : row ∈ microOps) (h : decodeKey k = .ok row.op) :
    k.extractLsb' 0 8 = row.offset := by
  unfold decodeKey at h
  split at h
  · rename_i r hr
    have hop : row.op = r.op := (Except.ok.inj h).symm
    obtain ⟨hm, hp⟩ := keyTable_offset r (List.mem_of_find?_eq_some hr) row hrow hop
    have hk : k &&& r.mask = r.pattern := by simpa using List.find?_some hr
    rw [← hp, ← hk]
    apply BitVec.eq_of_getLsbD_eq
    intro i hi
    have hmi : r.mask.getLsbD i = true := by
      have := congrArg (fun x : BitVec 8 => x.getLsbD i) hm
      simp only [BitVec.getLsbD_extractLsb', hi, decide_true, Bool.true_and, Nat.zero_add] at this
      rw [this]
      interval_cases i <;> rfl
    simp [hi, hmi]
  · cases h

/-- A key formed for latch k selects a micro-operation of that latch. -/
theorem loadKey_latch {code : BitVec 7} {k : Fin 16} {row : MicroOp} (hrow : row ∈ microOps)
    (h : decodeKey (loadKey code k) = .ok row.op) : row.latch = k := by
  have ho := decodeKey_offset hrow h
  rw [microOps_offset row hrow] at ho
  have hlow : (loadKey code k).extractLsb' 0 8 = BitVec.ofNat 8 (4 * k.val) := by
    apply BitVec.eq_of_getLsbD_eq
    intro i hi
    simp only [loadKey, keyOf, BitVec.getLsbD_extractLsb', BitVec.getLsbD_append, hi, decide_true, Bool.true_and,
      Nat.zero_add, if_true]
  rw [hlow] at ho
  have hn := congrArg BitVec.toNat ho
  simp only [BitVec.toNat_ofNat] at hn
  have := k.isLt
  have := row.latch.isLt
  apply Fin.ext
  omega

/-- Every key the sequencer forms selects a micro-operation. -/
theorem loadKey_decodes_common :
    ∀ k ∈ ([0, 1, 2, 3] : List (Fin 16)), ∃ row ∈ microOps, decodeKey (loadKey 0 k) = .ok row.op := by decide

theorem loadKey_decodes_group (c : BitVec 7) :
    ∀ k ∈ groupLoads c, ∃ row ∈ microOps, decodeKey (loadKey c k) = .ok row.op := by
  rcases groupLoads_cases c with ⟨rfl, h⟩ | ⟨rfl | rfl, h⟩ | ⟨-, h⟩ <;> rw [h] <;>
    first | decide | simp

end Sys2Proof.Machine
end

