-- ==== Sys2Proof/Laws/Run.lean ====
section
/-! SUPPORT. The sequencer when nobody else acts: a step is its turn, its turn is the load that comes next, and the loads of a
decode run through. -/

namespace Sys2Proof.Machine

/-! ### Runs -/

theorem run_succ (n : Nat) (s : State) {t : State} (h : step s = .next t) :
    Host.Core.run Sys2Proof.core (n + 1) s = Host.Core.run Sys2Proof.core n t := by
  have h' : Sys2Proof.core.step s = .next t := h
  simp only [Host.Core.run, h']

/-- A run is put together from two. -/
theorem run_add (n m : Nat) {s t : State} (h : Host.Core.run Sys2Proof.core n s = .next t) :
    Host.Core.run Sys2Proof.core (n + m) s = Host.Core.run Sys2Proof.core m t := by
  induction n generalizing s with
  | zero =>
    rw [Nat.zero_add]
    cases h
    rfl
  | succ n ih =>
    rw [show n + 1 + m = (n + m) + 1 by omega]
    cases hs : step s with
    | next s' =>
      rw [run_succ _ _ hs] at h ⊢
      exact ih h
    | fault r =>
      have hs' : Sys2Proof.core.step s = .fault r := hs
      simp only [Host.Core.run, hs'] at h
      cases h
    | refused r =>
      have hs' : Sys2Proof.core.step s = .refused r := hs
      simp only [Host.Core.run, hs'] at h
      cases h

/-! ### Alone -/

theorem State.Alone.congr {s t : State} (h : s.Alone) (h1 : t.turns = s.turns) (h2 : t.callers = s.callers)
    (h3 : t.mids = s.mids) (h4 : t.lock = s.lock) : t.Alone :=
  ⟨h1.trans h.turns, by rw [h2]; exact h.callers, h3.trans h.mids, h4.trans h.lock⟩

/-- No caller is ready where no caller presents a word. -/
theorem no_caller_ready {s : State} (h : ∀ q ∈ s.callers, q = []) :
    (List.range s.callers.length).filter (callerReady s) = [] := by
  rw [List.filter_eq_nil_iff]
  intro n hn
  have hlt : n < s.callers.length := by simpa using hn
  have hq : s.queue n = [] := by
    unfold State.queue
    rw [List.getD_eq_getElem _ _ hlt]
    exact h _ (List.getElem_mem hlt)
  simp [callerReady, hq, decodeCmd]

/-- With nobody else acting, a step of a running command is the sequencer's turn. -/
theorem step_alone {s : State} (h : s.Alone) (hs : s.seq ≠ .idle) : step s = sequencerTurn s := by
  have hr : readyTurns s = [.sequencer] := by
    have h1 : sequencerReady s = true := by simp [sequencerReady, hs, h.lock]
    simp [readyTurns, h1, no_caller_ready h.callers]
  simp only [step, chooseTurn, h.turns, hr, takeTurn]

/-! ### One load -/

/-- An undisturbed load: the whole next state, in terms of the shared operations. -/
theorem load_undisturbed {s : State} (hl : s.lock = false) (hm : s.mids.headD [] = []) (o : BitVec 8) (k : Fin 16) :
    load o k s = .next
      (((((openPair (camEnc s.cam (busOf s.tgt) (devOf s.tgt) (fnOf s.tgt) o) s).nextMids).afterData .accessor
          (.rd (s.mem.dwordAt s.background s.draws (effectiveAddr (busOf s.tgt) (devOf s.tgt) (fnOf s.tgt) o)))
          (s.reactions.headD [])).setLock false).latch k
        (s.mem.dwordAt s.background s.draws (effectiveAddr (busOf s.tgt) (devOf s.tgt) (fnOf s.tgt) o))) := by
  unfold load withPair
  rw [if_neg (by simp [hl]), readPair_undisturbed hm]

theorem present_of_raw {s : State} (hv : s.valid 0 = true) : s.present? = some (presentOf s.raw[0]) := by
  unfold State.present? State.latch?
  rw [if_pos hv]
  rfl

/-- The sequencer's turn, where a key is next and `LOCK` is 0: the load of the latch the key was formed for. -/
theorem sequencerTurn_of_key {s : State} {code : BitVec 7} {k : Fin 16} (hs : s.seq ≠ .idle) (hl : s.lock = false)
    (hk : s.nextKey = some (loadKey code k)) (hd : ∃ row ∈ microOps, decodeKey (loadKey code k) = .ok row.op) :
    sequencerTurn s = load (BitVec.ofNat 8 (4 * k.val)) k s := by
  obtain ⟨row, hrow, hd⟩ := hd
  have hlatch := loadKey_latch hrow hd
  have hoff := microOps_offset row hrow
  unfold sequencerTurn
  rw [if_neg hs, hk]
  simp only [hd]
  rw [if_pos (by rw [accepts_microOp hrow, hl]; rfl), exec_microOp hrow, hoff, hlatch]

/-- The first load of a decode. -/
theorem sequencerTurn_first {s : State} (hs : s.seq ≠ .idle) (hl : s.lock = false) (hv : s.rawv = 0) :
    sequencerTurn s = load 0x00 0 s := by
  have hk : s.nextKey = some (loadKey 0 0) := by
    have hp : s.present? = none := by simp [State.present?, State.latch?, State.valid, hv]
    simp only [State.nextKey, hp]
  have hd := loadKey_decodes_common 0 (by decide)
  rw [sequencerTurn_of_key hs hl hk hd]
  congr 1

/-- The later loads of a decode: with the first n of the order done and the function present, the n-th. -/
theorem sequencerTurn_next {s : State} (hs : s.seq ≠ .idle) (hl : s.lock = false) {n : Nat} (hn : 1 ≤ n)
    (hp : presentOf s.raw[0] = true) (hv : s.rawv = loadedMask ((loadOrder (codeOf s.raw[3])).take n)) {k : Fin 16}
    (hk : (loadOrder (codeOf s.raw[3]))[n]? = some k) :
    sequencerTurn s = load (BitVec.ofNat 8 (4 * k.val)) k s := by
  have hv0 : s.valid 0 = true := by
    rw [valid_of_loadedMask hv]
    rw [show n = (n - 1) + 1 by omega]
    simp [loadOrder]
  have hpres : s.present? = some true := by rw [present_of_raw hv0, hp]
  by_cases h4 : n < 4
  · have hf : s.firstUnloaded [1, 2, 3] = ([0, 1, 2, 3] : List (Fin 16))[n]? := by
      refine firstUnloaded_eq (ks := [0, 1, 2, 3]) (by decide) (n := n) ?_ [0] [1, 2, 3] rfl hn
      rw [hv]
      unfold loadOrder
      rw [List.take_append_of_le_length (by simp; omega)]
    have hk' : ([0, 1, 2, 3] : List (Fin 16))[n]? = some k := by
      rw [← hk]
      unfold loadOrder
      rw [List.getElem?_append_left (by simp; omega)]
    have hkey : s.nextKey = some (loadKey 0 k) := by simp only [State.nextKey, hpres, hf, hk']
    exact sequencerTurn_of_key hs hl hkey (loadKey_decodes_common k (List.mem_of_getElem? hk'))
  · have hf : s.firstUnloaded [1, 2, 3] = none := by
      unfold State.firstUnloaded
      rw [List.find?_eq_none]
      intro j hj
      have hval : s.valid j = true := by
        rw [valid_of_loadedMask hv]
        apply decide_eq_true
        unfold loadOrder
        rw [List.take_append]
        apply List.mem_append_left
        rw [List.take_of_length_le (by simp; omega)]
        exact List.mem_cons_of_mem _ hj
      simp [hval]
    have hg : s.firstUnloaded (groupLoads (codeOf s.raw[3])) = some k := by
      rw [firstUnloaded_eq (loadOrder_nodup (codeOf s.raw[3])) hv [0, 1, 2, 3] _ rfl (by simp; omega)]
      exact hk
    have hmem : k ∈ groupLoads (codeOf s.raw[3]) := List.mem_of_find?_eq_some hg
    have hkey : s.nextKey = some (loadKey (codeOf s.raw[3]) k) := by
      simp only [State.nextKey, hpres, hf]
      exact congrArg (Option.map _) hg
    exact sequencerTurn_of_key hs hl hkey (loadKey_decodes_group _ k hmem)

/-! ### All loads of a decode -/

/-- The first loads of an order do not depend on the code. -/
theorem take_loadOrder_common {n : Nat} (h : n ≤ 4) (c c' : BitVec 7) :
    (loadOrder c).take n = (loadOrder c').take n := by
  unfold loadOrder
  rw [List.take_append_of_le_length (by simpa using h), List.take_append_of_le_length (by simpa using h)]

/-- Positions and members of an order correspond. -/
theorem loadOrder_inj {c : BitVec 7} {n m : Nat} {k : Fin 16} (hn : (loadOrder c)[n]? = some k)
    (hm : (loadOrder c)[m]? = some k) : n = m := by
  have hlt : n < (loadOrder c).length := (List.getElem?_eq_some_iff.mp hn).1
  exact (List.getElem?_inj hlt (loadOrder_nodup c)).mp (hn.trans hm.symm)

/-- A trace is unchanged when a latch outside it is written. -/
theorem loadTrace_set {c : CamParams} {a : FnAddr} {x : Vector Word 16} {ks : List (Fin 16)} {k : Fin 16} {v : Word} (h : k ∉ ks) :
    loadTrace c a (x.set k v) ks = loadTrace c a x ks := by
  unfold loadTrace
  congr 1
  apply List.flatMap_congr
  intro j hj
  have hne : j ≠ k := fun e => h (e ▸ hj)
  have hx : (x.set k v)[j] = x[j] := by
    rw [Fin.getElem_fin, Vector.getElem_set_ne]
    · rfl
    · exact fun e => hne (Fin.ext e.symm)
  rw [hx]

theorem loadTrace_append (c : CamParams) (a : FnAddr) (x : Vector Word 16) (ks : List (Fin 16)) (k : Fin 16) :
    loadTrace c a x (ks ++ [k]) =
      [⟨.accessor, true, .rd x[k]⟩,
        ⟨.accessor, true, .wa (camEnc c (busOf a) (devOf a) (fnOf a) (BitVec.ofNat 8 (4 * k.val)))⟩] ++
        loadTrace c a x ks := by
  simp [loadTrace]

/-- `u` comes from `s` by the first n loads of a decode, with nobody else acting. -/
structure LoadsDone (s u : State) (n : Nat) : Prop where
  steps : Host.Core.run Sys2Proof.core n s = .next u
  alone : u.Alone
  seq : u.seq = s.seq
  tgt : u.tgt = s.tgt
  scan : u.scan = s.scan
  mf : u.mf = s.mf
  cam : u.cam = s.cam
  background : u.background = s.background
  callers : u.callers = s.callers
  rspOut : u.rspOut = s.rspOut
  recOut : u.recOut = s.recOut
  bound : n ≤ (loadOrder (codeOf u.raw[3])).length
  rawv : u.rawv = loadedMask ((loadOrder (codeOf u.raw[3])).take n)
  io : u.ioLog = loadTrace s.cam s.tgt u.raw ((loadOrder (codeOf u.raw[3])).take n) ++ s.ioLog
  draws : u.draws = s.draws + n
  quiet : s.reactions = [] → u.reactions = [] ∧ u.mem = s.mem
  identifier : s.reactions = [] → 1 ≤ n → u.raw[0] =
    s.mem.dwordAt s.background s.draws (cfgAddr (busOf s.tgt) (devOf s.tgt) (fnOf s.tgt) 0x00)
  headerType : s.reactions = [] → 4 ≤ n → u.raw[3] =
    s.mem.dwordAt s.background (s.draws + 3) (cfgAddr (busOf s.tgt) (devOf s.tgt) (fnOf s.tgt) 0x0C)

theorem LoadsDone.none {s : State} (h : s.Alone) (hv : s.rawv = 0) : LoadsDone s s 0 := by
  constructor
  case steps => rfl
  case alone => exact h
  case bound => exact Nat.zero_le _
  case rawv => simpa [loadedMask] using hv
  case io => simp [loadTrace]
  case quiet => exact fun hr => ⟨hr, rfl⟩
  case identifier => exact fun _ h => absurd h (by omega)
  case headerType => exact fun _ h => absurd h (by omega)
  all_goals rfl

/-- One more load. -/
theorem LoadsDone.next {s u : State} {n : Nat} (h : LoadsDone s u n) (hs : s.seq ≠ .idle)
    (hp : 1 ≤ n → presentOf u.raw[0] = true) {k : Fin 16} (hk : (loadOrder (codeOf u.raw[3]))[n]? = some k) :
    ∃ t, LoadsDone s t (n + 1) ∧ (1 ≤ n → t.raw[0] = u.raw[0]) := by
  have hlen := (loadOrder_length (codeOf u.raw[3])).2
  have hlt : n < (loadOrder (codeOf u.raw[3])).length := (List.getElem?_eq_some_iff.mp hk).1
  have hus : u.seq ≠ .idle := by rw [h.seq]; exact hs
  have hturn : sequencerTurn u = load (BitVec.ofNat 8 (4 * k.val)) k u := by
    by_cases hn : 1 ≤ n
    · exact sequencerTurn_next hus h.alone.lock hn (hp hn) h.rawv hk
    · have hn0 : n = 0 := by omega
      subst hn0
      have hk0 : k = 0 := by simpa [loadOrder] using hk.symm
      subst hk0
      rw [sequencerTurn_first hus h.alone.lock (by simpa [loadedMask] using h.rawv)]
      congr 1
  have hstep : step u = load (BitVec.ofNat 8 (4 * k.val)) k u := by rw [step_alone h.alone hus, hturn]
  rw [load_undisturbed h.alone.lock (by rw [h.alone.mids]; rfl)] at hstep
  have heff : effectiveAddr (busOf u.tgt) (devOf u.tgt) (fnOf u.tgt) (BitVec.ofNat 8 (4 * k.val)) =
      cfgAddr (busOf u.tgt) (devOf u.tgt) (fnOf u.tgt) (BitVec.ofNat 8 (4 * k.val)) := by
    unfold effectiveAddr
    have hmask : ∀ k : Fin 16, BitVec.ofNat 8 (4 * k.val) &&& 0xFC#8 = BitVec.ofNat 8 (4 * k.val) := by decide
    rw [hmask]
  rw [heff] at hstep
  have hnot : k ∉ (loadOrder (codeOf u.raw[3])).take n := by
    intro hmem
    obtain ⟨m, hm, he⟩ := List.mem_iff_getElem.mp hmem
    have hmn : m < n := by
      rw [List.length_take] at hm
      omega
    have hm' : (loadOrder (codeOf u.raw[3]))[m]? = some k := by
      rw [List.getElem?_eq_some_iff]
      exact ⟨by omega, by simpa using he⟩
    have := loadOrder_inj hk hm'
    omega
  generalize hv : u.mem.dwordAt u.background u.draws
    (cfgAddr (busOf u.tgt) (devOf u.tgt) (fnOf u.tgt) (BitVec.ofNat 8 (4 * k.val))) = v at hstep
  -- the order under the header type just loaded
  have horder : (loadOrder (codeOf (u.raw.set k v)[3])).take (n + 1) =
      (loadOrder (codeOf u.raw[3])).take n ++ [k] := by
    have htake : (loadOrder (codeOf u.raw[3])).take n ++ [k] = (loadOrder (codeOf u.raw[3])).take (n + 1) := by
      rw [List.take_add_one, hk]
      rfl
    rw [htake]
    by_cases h3 : k = 3
    · have hn3 : n = 3 := by
        subst h3
        exact loadOrder_inj (m := 3) hk (by simp [loadOrder])
      exact take_loadOrder_common (by omega) _ _
    · rw [Vector.getElem_set_ne]
      exact fun e => h3 (Fin.ext e)
  have hkeep : 1 ≤ n → (u.raw.set k v)[0] = u.raw[0] := by
    intro hn
    have hk0 : k ≠ 0 := by
      intro e
      subst e
      have := loadOrder_inj (m := 0) hk (by simp [loadOrder])
      omega
    rw [Vector.getElem_set_ne]
    exact fun e => hk0 (Fin.ext e)
  refine ⟨(((openPair (camEnc u.cam (busOf u.tgt) (devOf u.tgt) (fnOf u.tgt) (BitVec.ofNat 8 (4 * k.val))) u).nextMids.afterData
    .accessor (.rd v) (u.reactions.headD [])).setLock false).latch k v, ?_, hkeep⟩
  constructor
  case steps =>
    rw [run_add n 1 h.steps, run_succ 0 u hstep]
    rfl
  case alone =>
    refine h.alone.congr (t := _) rfl rfl ?_ ?_
    · show u.mids.tail = u.mids
      rw [h.alone.mids]
      rfl
    · exact h.alone.lock.symm
  case seq => exact h.seq
  case tgt => exact h.tgt
  case scan => exact h.scan
  case mf => exact h.mf
  case cam => exact h.cam
  case background => exact h.background
  case callers => exact h.callers
  case rspOut => exact h.rspOut
  case recOut => exact h.recOut
  case bound =>
    show n + 1 ≤ (loadOrder (codeOf (u.raw.set k v)[3])).length
    have := congrArg List.length horder
    simp only [List.length_take, List.length_append, List.length_singleton] at this
    omega
  case rawv =>
    show u.rawv ||| (1#16 <<< k.val) = loadedMask ((loadOrder (codeOf (u.raw.set k v)[3])).take (n + 1))
    rw [horder, loadedMask_append, h.rawv]
  case io =>
    show (⟨.accessor, true, .rd v⟩ :: ⟨.accessor, true,
      .wa (camEnc u.cam (busOf u.tgt) (devOf u.tgt) (fnOf u.tgt) (BitVec.ofNat 8 (4 * k.val)))⟩ :: u.ioLog : List IoEvent) =
        loadTrace s.cam s.tgt (u.raw.set k v) ((loadOrder (codeOf (u.raw.set k v)[3])).take (n + 1)) ++ s.ioLog
    rw [horder, loadTrace_append, loadTrace_set hnot, h.io, h.tgt, h.cam]
    simp
  case draws =>
    show u.draws + 1 = s.draws + (n + 1)
    rw [h.draws]
    omega
  case quiet =>
    intro hr
    obtain ⟨h1, h2⟩ := h.quiet hr
    refine ⟨?_, ?_⟩
    · show u.reactions.tail = []
      rw [h1]
      rfl
    · show u.mem.change (u.reactions.headD []) = s.mem
      rw [h1]
      exact h2
  case identifier =>
    intro hr _
    obtain ⟨h1, h2⟩ := h.quiet hr
    show (u.raw.set k v)[0] = _
    by_cases hn : 1 ≤ n
    · rw [hkeep hn]
      exact h.identifier hr hn
    · have hn0 : n = 0 := by omega
      subst hn0
      have hk0 : k = 0 := by simpa [loadOrder] using hk.symm
      subst hk0
      have hd := h.draws
      rw [h2, h.background, hd, h.tgt] at hv
      rw [← hv]
      exact Vector.getElem_set_self _
  case headerType =>
    intro hr h4
    obtain ⟨h1, h2⟩ := h.quiet hr
    show (u.raw.set k v)[3] = _
    by_cases hn : 4 ≤ n
    · have hk3 : k ≠ 3 := by
        intro e
        subst e
        have := loadOrder_inj (m := 3) hk (by simp [loadOrder])
        omega
      rw [Vector.getElem_set_ne]
      · exact h.headerType hr hn
      · exact fun e => hk3 (Fin.ext e)
    · have hn3 : n = 3 := by omega
      subst hn3
      have hk3 : k = 3 := by simpa [loadOrder] using hk.symm
      subst hk3
      rw [h2, h.background, h.draws, h.tgt] at hv
      rw [← hv]
      exact Vector.getElem_set_self _

/-- The loads of a decode of a present function run through to the end of its order. -/
theorem loads_to_end {s : State} (hs : s.seq ≠ .idle) (m : Nat) :
    ∀ (u : State) (n : Nat), LoadsDone s u n → 1 ≤ n → presentOf u.raw[0] = true → 16 ≤ n + m →
      ∃ t, LoadsDone s t (loadOrder (codeOf t.raw[3])).length ∧ presentOf t.raw[0] = true := by
  induction m with
  | zero =>
    intro u n h hn hp hm
    have hlen := (loadOrder_length (codeOf u.raw[3])).2
    have hb := h.bound
    have he : (loadOrder (codeOf u.raw[3])).length = n := by omega
    exact ⟨u, he ▸ h, hp⟩
  | succ m ih =>
    intro u n h hn hp hm
    cases hk : (loadOrder (codeOf u.raw[3]))[n]? with
    | none =>
      have hb := h.bound
      have hge := List.getElem?_eq_none_iff.mp hk
      have he : (loadOrder (codeOf u.raw[3])).length = n := by omega
      exact ⟨u, he ▸ h, hp⟩
    | some k =>
      obtain ⟨t, ht, hkeep⟩ := h.next hs (fun _ => hp) hk
      exact ih t (n + 1) ht (by omega) (by rw [hkeep hn]; exact hp) (by omega)

/-- The loads of a decode run through: as many as what is found calls for. -/
theorem loads_complete {s : State} (ha : s.Alone) (hs : s.seq ≠ .idle) (hv : s.rawv = 0) :
    ∃ u, LoadsDone s u (loadsOf u.raw).length ∧
      loadsOf u.raw = (loadOrder (codeOf u.raw[3])).take (loadsOf u.raw).length := by
  obtain ⟨u1, h1, -⟩ := (LoadsDone.none ha hv).next hs (fun h => absurd h (by omega)) (k := 0) (by simp [loadOrder])
  by_cases hp : presentOf u1.raw[0] = true
  · obtain ⟨t, ht, hpt⟩ := loads_to_end hs 16 u1 1 h1 (by omega) hp (by omega)
    have hl : loadsOf t.raw = loadOrder (codeOf t.raw[3]) := by simp [loadsOf, hpt]
    refine ⟨t, ?_, ?_⟩
    · rw [hl]
      exact ht
    · rw [hl, List.take_length]
  · refine ⟨u1, ?_, ?_⟩ <;> simp [loadsOf, hp, loadOrder]
    exact h1

/-! ### The closing step -/

/-- Where what the decode reads is loaded, there is no next load and its outcome is the record, or `Absent`. -/
theorem outcome_of_loads {u : State} (hv : u.rawv = loadedMask (loadsOf u.raw)) :
    u.nextKey = none ∧ decodeOutcome u = .ok (resultOf u.tgt u.raw) := by
  have hv0 : u.valid 0 = true := by
    rw [valid_of_loadedMask hv]
    unfold loadsOf loadOrder
    split <;> simp
  have hpres := present_of_raw hv0
  by_cases hp : presentOf u.raw[0] = true
  · have hall : ∀ k ∈ loadOrder (codeOf u.raw[3]), u.valid k = true := by
      intro k hk
      rw [valid_of_loadedMask hv]
      simpa [loadsOf, hp] using hk
    have hfind : ∀ l : List (Fin 16), (∀ k ∈ l, k ∈ loadOrder (codeOf u.raw[3])) → u.firstUnloaded l = none := by
      intro l hl
      unfold State.firstUnloaded
      rw [List.find?_eq_none]
      intro k hk
      simp [hall k (hl k hk)]
    have h1 := hfind [1, 2, 3] (by simp [loadOrder])
    have h2 := hfind (groupLoads (codeOf u.raw[3])) (fun k hk => List.mem_append_right _ hk)
    have h3 := hfind (([0, 1, 2, 3] : List (Fin 16)) ++ groupLatches (codeOf u.raw[3])) (by rw [groupLatches_eq]; exact fun k hk => hk)
    rw [hp] at hpres
    refine ⟨?_, ?_⟩
    · simp only [State.nextKey, hpres, h1]
      exact congrArg (Option.map _) h2
    · have ha : assembleLatched u = .ok (assemble u.tgt u.raw (codeOf u.raw[3]) (mfRecOf u.raw[3])) := by
        unfold assembleLatched
        unfold State.firstUnloaded at h3
        dsimp only
        split
        · rename_i k hk
          rw [show List.find? _ _ = none from h3] at hk
          cases hk
        · rfl
      simp only [decodeOutcome, hpres, ha, resultOf, hp, if_true]
  · have hp' : presentOf u.raw[0] = false := by simpa using hp
    rw [hp'] at hpres
    refine ⟨?_, ?_⟩
    · simp only [State.nextKey, hpres]
    · simp only [decodeOutcome, hpres, resultOf, hp', Bool.false_eq_true, if_false]

/-- The closing step of a decode that has read all it reads, with nobody else acting. -/
theorem step_closing {u : State} (ha : u.Alone) (hs : u.seq ≠ .idle) (hv : u.rawv = loadedMask (loadsOf u.raw)) :
    step u =
      match u.seq with
      | .idle => .next u
      | .decoding => .next ((u.report (.result (resultOf u.tgt u.raw))).setSeq .idle)
      | .enumerating => .next (scanStep (resultOf u.tgt u.raw) u) := by
  obtain ⟨h1, h2⟩ := outcome_of_loads hv
  rw [step_alone ha hs]
  unfold sequencerTurn
  rw [if_neg hs, h1]
  simp only [conclude, h2]
  all_goals (cases u.seq <;> rfl)

end Sys2Proof.Machine
end

