-- ==== Sys2Proof/Laws/Scan.lean ====
section
/-! SUPPORT. Arithmetic of the scan counter: clearing the function field, and the low 16 bits of an advance. -/

namespace Sys2Proof.Machine

/-- Function 0 of a device, as a number. -/
theorem deviceMask_toNat (a : FnAddr) : (a &&& 0xFFF8#16).toNat = 8 * (a.toNat / 8) := by
  have h : a &&& 0xFFF8#16 = (a >>> 3) <<< 3 := by
    apply BitVec.eq_of_getLsbD_eq
    intro i hi
    interval_cases i <;> simp
  rw [h, BitVec.toNat_shiftLeft, BitVec.toNat_ushiftRight, Nat.shiftLeft_eq, Nat.shiftRight_eq_div_pow]
  have := a.isLt
  omega

/-- Where an advance does not carry, its low 16 bits are all of it. -/
theorem setWidth_toNat_of_noCarry {a : BitVec 17} (h : a.getLsbD 16 = false) : (a.setWidth 16).toNat = a.toNat := by
  have hlt : a.toNat < 65536 := by
    by_contra hc
    have := a.isLt
    have hb : a.getLsbD 16 = true := by
      rw [BitVec.getLsbD, Nat.testBit_eq_decide_div_mod_eq]
      simp
      omega
    simp_all
  simp
  omega

/-- The carry of an advance, as a number. -/
theorem carry_iff (a : BitVec 17) : a.getLsbD 16 = true ↔ 65536 ≤ a.toNat := by
  rw [BitVec.getLsbD, Nat.testBit_eq_decide_div_mod_eq]
  have := a.isLt
  simp
  omega

theorem fnOf_toNat (a : FnAddr) : (fnOf a).toNat = a.toNat % 8 := by
  unfold fnOf
  rw [BitVec.extractLsb'_toNat]
  rfl

theorem devOf_toNat (a : FnAddr) : (devOf a).toNat = a.toNat / 8 % 32 := by
  unfold devOf
  rw [BitVec.extractLsb'_toNat, Nat.shiftRight_eq_div_pow]

theorem busOf_toNat (a : FnAddr) : (busOf a).toNat = a.toNat / 256 := by
  unfold busOf
  rw [BitVec.extractLsb'_toNat, Nat.shiftRight_eq_div_pow]
  have := a.isLt
  omega

end Sys2Proof.Machine
end

