-- ==== Sys2Proof/WellFormed.lean ====
section
/-! DEFINITION. Well-formed instructions. The operand types already hold every range (30_encoding.md R99);
the one invariant the spec puts on a caller beyond them is "register offset is always a multiple of 4
when passed to the Accessor" (20_memory.md R65). The machine does NOT refuse a command that breaks it: the
hardware masks the low two bits (R66; log 13). -/

namespace Sys2Proof

/-- The caller's invariant of 20_memory.md R65. -/
def WellFormed : Instr → Bool
  | .cfgrd _ _ _ reg => reg.extractLsb' 0 2 == 0#2
  | .cfgwr _ _ _ reg _ => reg.extractLsb' 0 2 == 0#2
  | .decode _ _ _ => true
  | .enum => true
  | .ldId => true
  | .ldCmdsts => true
  | .ldClass => true
  | .ldHdr => true
  | .ldSBar0 => true
  | .ldSBar1 => true
  | .ldSBar2 => true
  | .ldSBar3 => true
  | .ldSBar4 => true
  | .ldSBar5 => true
  | .ldSCis => true
  | .ldSSubsys => true
  | .ldSRom => true
  | .ldSCap => true
  | .ldSInt => true
  | .ldBBar0 => true
  | .ldBBar1 => true
  | .ldBBus => true
  | .ldBIo => true
  | .ldBMem => true
  | .ldBPmem => true
  | .ldBPbaseu => true
  | .ldBPlimu => true
  | .ldBIou => true
  | .ldBCap => true
  | .ldBRom => true
  | .ldBInt => true
  | .ldCRaw0 => true
  | .ldCRaw1 => true
  | .ldCRaw2 => true
  | .ldCRaw3 => true
  | .ldCRaw4 => true
  | .ldCRaw5 => true
  | .ldCRaw6 => true
  | .ldCRaw7 => true
  | .ldCRaw8 => true
  | .ldCRaw9 => true
  | .ldCRaw10 => true
  | .ldCRaw11 => true

end Sys2Proof
end

