-- ==== Sys2Proof/Tests/Slice0.lean ====
section
/-! SUPPORT. The model's own tests. Words and expected values come from the encodings of 30_encoding.md and the vectors of
95_test_vectors.md, not from the model; the second half holds, for each statement with hypotheses, a state that meets them. -/

namespace Sys2Proof.Tests

open Sys2Proof.Machine

/-! ### Well-formed instructions (20_memory.md R65) -/

theorem test_misaligned_cfgrd_is_ill_formed : WellFormed (.cfgrd 1 2 3 0x13) = false := by decide
theorem test_misaligned_cfgwr_is_ill_formed : WellFormed (.cfgwr 0 1 0 0x1A 0) = false := by decide
theorem test_aligned_cfgrd_is_well_formed : WellFormed (.cfgrd 1 2 3 0xFC) = true := by decide

/-! ### Decoding: words written out from 30_encoding.md R93 to R95, R101 -/

/-- Fields of a `CMD` word, high bit first: zeros, op, bus, dev, fn, reg. -/
theorem test_decode_cfgrd :
    decodeCmd [0b00000000000000010001001100010000#32] = .ok (.cfgrd 1 2 3 0x10, []) := by decide
theorem test_decode_cfgwr :
    decodeCmd [0b00000001000000000000100000011000#32, 0x00050100#32, 7#32] =
      .ok (.cfgwr 0 1 0 0x18 0x00050100, [7#32]) := by decide
theorem test_decode_decode :
    decodeCmd [0b00000010000000010001001100000000#32] = .ok (.decode 1 2 3, []) := by decide
theorem test_decode_enum :
    decodeCmd [0b00000011000000000000000000000000#32] = .ok (.enum, []) := by decide
/-- 95_test_vectors.md V2.7 to V2.9, and a `CFGWR` without its value word. -/
theorem test_reserved_words_rejected :
    decodeCmd [0x04000000#32] = .error (.reservedBits 0x04000000#32) ∧
    decodeCmd [0x02011310#32] = .error (.decodeWithReg 0x02011310#32) ∧
    decodeCmd [0x03000100#32] = .error (.enumWithOperand 0x03000100#32) ∧
    decodeCmd [0x01000818#32] = .error .missingValue := by decide

theorem test_decode_ldId : decodeKey 0b101010100000000#15 = .ok .ldId := by decide
theorem test_decode_ldCmdsts : decodeKey 0b101010100000100#15 = .ok .ldCmdsts := by decide
theorem test_decode_ldClass : decodeKey 0b101010100001000#15 = .ok .ldClass := by decide
theorem test_decode_ldHdr : decodeKey 0b101010100001100#15 = .ok .ldHdr := by decide
theorem test_decode_ldSBar0 : decodeKey 0b000000000010000#15 = .ok .ldSBar0 := by decide
theorem test_decode_ldSBar1 : decodeKey 0b000000000010100#15 = .ok .ldSBar1 := by decide
theorem test_decode_ldSBar2 : decodeKey 0b000000000011000#15 = .ok .ldSBar2 := by decide
theorem test_decode_ldSBar3 : decodeKey 0b000000000011100#15 = .ok .ldSBar3 := by decide
theorem test_decode_ldSBar4 : decodeKey 0b000000000100000#15 = .ok .ldSBar4 := by decide
theorem test_decode_ldSBar5 : decodeKey 0b000000000100100#15 = .ok .ldSBar5 := by decide
theorem test_decode_ldSCis : decodeKey 0b000000000101000#15 = .ok .ldSCis := by decide
theorem test_decode_ldSSubsys : decodeKey 0b000000000101100#15 = .ok .ldSSubsys := by decide
theorem test_decode_ldSRom : decodeKey 0b000000000110000#15 = .ok .ldSRom := by decide
theorem test_decode_ldSCap : decodeKey 0b000000000110100#15 = .ok .ldSCap := by decide
theorem test_decode_ldSInt : decodeKey 0b000000000111100#15 = .ok .ldSInt := by decide
theorem test_decode_ldBBar0 : decodeKey 0b000000100010000#15 = .ok .ldBBar0 := by decide
theorem test_decode_ldBBar1 : decodeKey 0b000000100010100#15 = .ok .ldBBar1 := by decide
theorem test_decode_ldBBus : decodeKey 0b000000100011000#15 = .ok .ldBBus := by decide
theorem test_decode_ldBIo : decodeKey 0b000000100011100#15 = .ok .ldBIo := by decide
theorem test_decode_ldBMem : decodeKey 0b000000100100000#15 = .ok .ldBMem := by decide
theorem test_decode_ldBPmem : decodeKey 0b000000100100100#15 = .ok .ldBPmem := by decide
theorem test_decode_ldBPbaseu : decodeKey 0b000000100101000#15 = .ok .ldBPbaseu := by decide
theorem test_decode_ldBPlimu : decodeKey 0b000000100101100#15 = .ok .ldBPlimu := by decide
theorem test_decode_ldBIou : decodeKey 0b000000100110000#15 = .ok .ldBIou := by decide
theorem test_decode_ldBCap : decodeKey 0b000000100110100#15 = .ok .ldBCap := by decide
theorem test_decode_ldBRom : decodeKey 0b000000100111000#15 = .ok .ldBRom := by decide
theorem test_decode_ldBInt : decodeKey 0b000000100111100#15 = .ok .ldBInt := by decide
theorem test_decode_ldCRaw0 : decodeKey 0b000001000010000#15 = .ok .ldCRaw0 := by decide
theorem test_decode_ldCRaw1 : decodeKey 0b000001000010100#15 = .ok .ldCRaw1 := by decide
theorem test_decode_ldCRaw2 : decodeKey 0b000001000011000#15 = .ok .ldCRaw2 := by decide
theorem test_decode_ldCRaw3 : decodeKey 0b000001000011100#15 = .ok .ldCRaw3 := by decide
theorem test_decode_ldCRaw4 : decodeKey 0b000001000100000#15 = .ok .ldCRaw4 := by decide
theorem test_decode_ldCRaw5 : decodeKey 0b000001000100100#15 = .ok .ldCRaw5 := by decide
theorem test_decode_ldCRaw6 : decodeKey 0b000001000101000#15 = .ok .ldCRaw6 := by decide
theorem test_decode_ldCRaw7 : decodeKey 0b000001000101100#15 = .ok .ldCRaw7 := by decide
theorem test_decode_ldCRaw8 : decodeKey 0b000001000110000#15 = .ok .ldCRaw8 := by decide
theorem test_decode_ldCRaw9 : decodeKey 0b000001000110100#15 = .ok .ldCRaw9 := by decide
theorem test_decode_ldCRaw10 : decodeKey 0b000001000111000#15 = .ok .ldCRaw10 := by decide
theorem test_decode_ldCRaw11 : decodeKey 0b000001000111100#15 = .ok .ldCRaw11 := by decide
theorem test_keys_without_a_row :
    decodeKey 0x0038#15 = .error (.noRow 0x0038#15) ∧ decodeKey 0x0310#15 = .error (.noRow 0x0310#15) ∧
    decodeKey 0x0140#15 = .error (.noRow 0x0140#15) ∧ decodeKey 0x0111#15 = .error (.noRow 0x0111#15) := by decide

/-! ### The address word (95_test_vectors.md V1) -/

theorem test_address_words :
    camEnc Config.cam 0 0 0 0x00 = 0x80000000#32 ∧ camEnc Config.cam 1 2 3 0x10 = 0x80011310#32 ∧
    camEnc Config.cam 255 31 7 0xFC = 0x80FFFFFC#32 ∧ camEnc Config.cam 0 0 0 0x3C = 0x8000003C#32 ∧
    camEnc Config.cam 0 31 0 0x00 = 0x8000F800#32 ∧ camEnc Config.cam 0 0 7 0x00 = 0x80000700#32 ∧
    camEnc Config.cam 255 0 0 0x00 = 0x80FF0000#32 ∧ camEnc Config.cam 0 1 0 0x0C = 0x8000080C#32 ∧
    camEnc Config.cam 5 0 0 0x04 = 0x80050004#32 ∧ camEnc Config.cam 1 2 3 0x13 = 0x80011310#32 ∧
    camEnc Config.cam 1 2 3 0xFF = 0x800113FC#32 := by decide
theorem test_address_words_taken_apart :
    camDec Config.cam 0xFFFFFFFF#32 = ⟨true, 255, 31, 7, 0xFC⟩ ∧ camDec Config.cam 0x00011310#32 = ⟨false, 1, 2, 3, 0x10⟩ := by decide
/-- 00_scope.md R6: another platform has its enable bit at 24, still a single bit above 23:0. -/
theorem test_other_enable_bit :
    camEnable ⟨0x0CF8, 0x0CFC, 0⟩ = 0x01000000#32 ∧ camEnc ⟨0x0CF8, 0x0CFC, 0⟩ 1 2 3 0x10 = 0x01011310#32 ∧
    (camDec ⟨0x0CF8, 0x0CFC, 0⟩ 0x80011310#32).en = false ∧ camReservedBits Config.cam = 0x7F000000#32 ∧
    (PortOp.wa 0).port Config.cam = 0x0CF8#16 ∧ (PortOp.rd 0).port Config.cam = 0x0CFC#16 := by decide

/-! ### One instruction on a small state -/

/-- The four cells of a dword at a byte address. -/
def dword (x : Nat) (v : Word) : Memory :=
  [(x, v.extractLsb' 0 8), (x + 1, v.extractLsb' 8 8), (x + 2, v.extractLsb' 16 8), (x + 3, v.extractLsb' 24 8)]

/-- After reset, with some configuration space; every other byte reads 0xFF, as the vectors' environments answer. -/
def withSpace (m : Memory) : State := { State.reset with mem := m, background := some 0xFF }

/-- What a test looks at in the next state, and nothing else. -/
def check (o : Host.Outcome State Fault Refusal) (p : State → Bool) : Bool :=
  match o with
  | .next t => p t
  | .fault _ => false
  | .refused _ => false

/-- 95_test_vectors.md V3.1, with the value of V5.1: configuration address 0x011310 is function 1:2.3, register 0x10. -/
theorem test_cfgrd_present :
    check (exec (.cfgrd 1 2 3 0x10) (withSpace (dword 0x011310 0xFEBC0000))) (fun t =>
      t.configAddress == 0x80011310#32 && !t.lock && t.rspOut == [(0, .value 0xFEBC0000#32)] &&
      t.ioLog == [⟨.accessor, true, .rd 0xFEBC0000#32⟩, ⟨.accessor, true, .wa 0x80011310#32⟩]) = true := by decide
/-- The same on a platform with its enable bit at 24 (00_scope.md R6). -/
theorem test_cfgrd_other_enable_bit :
    check (exec (.cfgrd 1 2 3 0x10) { withSpace (dword 0x011310 0xFEBC0000) with cam := ⟨0x0CF8, 0x0CFC, 0⟩ }) (fun t =>
      t.configAddress == 0x01011310#32 && t.rspOut == [(0, .value 0xFEBC0000#32)]) = true := by decide
/-- V3.2. -/
theorem test_cfgrd_absent :
    check (exec (.cfgrd 0 0 0 0x00) (withSpace [])) (fun t =>
      t.rspOut == [(0, .value 0xFFFFFFFF#32)] &&
      t.ioLog == [⟨.accessor, true, .rd 0xFFFFFFFF#32⟩, ⟨.accessor, true, .wa 0x80000000#32⟩]) = true := by decide
/-- V3.3, a device that takes the whole value. -/
theorem test_cfgwr_takes_effect :
    check (exec (.cfgwr 0 1 0 0x18 0x00050100)
      { withSpace (dword 0x000818 0xFFFFFFFF) with
        reactions := [[(0x000818, some 0x00), (0x000819, some 0x01), (0x00081A, some 0x05), (0x00081B, some 0x00)]] })
      (fun t => t.mem == dword 0x000818 0x00050100 && t.rspOut == [(0, .completion)] &&
        t.ioLog == [⟨.accessor, true, .wd 0x00050100#32⟩, ⟨.accessor, true, .wa 0x80000818#32⟩]) = true := by decide
/-- V3.5, a device that ignores the write. -/
theorem test_cfgwr_last_dword :
    check (exec (.cfgwr 255 31 7 0xFC 0) { withSpace (dword 0xFFFFFC 0x12345678) with reactions := [[]] }) (fun t =>
      t.configAddress == 0x80FFFFFC#32 && t.mem == dword 0xFFFFFC 0x12345678 &&
      t.ioLog == [⟨.accessor, true, .wd 0#32⟩, ⟨.accessor, true, .wa 0x80FFFFFC#32⟩]) = true := by decide
theorem test_decode_accepted :
    check (exec (.decode 1 2 3) { withSpace [] with rawv := 0xBFFF })
      (fun t => t.seq == .decoding && t.tgt == 0x0113#16 && t.rawv == 0 && t.ioLog == []) = true := by decide
theorem test_decode_held :
    check (exec (.decode 1 2 3) { withSpace [] with seq := .enumerating, tgt := 5 })
      (fun t => t.seq == .enumerating && t.tgt == 5#16) = true := by decide
theorem test_enum_accepted :
    check (exec .enum { withSpace [] with rawv := 1, mf := true, tgt := 9 })
      (fun t => t.seq == .enumerating && t.scan == 0 && t.tgt == 0 && !t.mf && t.rawv == 0) = true := by decide
theorem test_enum_held :
    check (exec .enum { withSpace [] with seq := .decoding, tgt := 9 })
      (fun t => t.seq == .decoding && t.tgt == 9#16) = true := by decide

/-- Function 1:2.3 (configuration addresses from 0x011300) holds `v` at one register; a load of it must write `v` to `RAW[k]`, set
`RAWV` to `rawv` from 0, and leave `word` in `CONFIG_ADDRESS`. -/
def loads (i : Instr) (x : Nat) (v : Word) (k : Fin 16) (rawv : BitVec 16) (word : Word) : Bool :=
  check (exec i { withSpace (dword x v) with tgt := 0x0113, seq := .decoding }) (fun t =>
    t.raw[k] == v && t.rawv == rawv && t.configAddress == word && t.seq == .decoding && t.tgt == 0x0113#16)

theorem test_ldId : loads .ldId 0x011300 0x12378086#32 0 0x0001#16 0x80011300#32 = true := by decide
theorem test_ldCmdsts : loads .ldCmdsts 0x011304 0x02800007#32 1 0x0002#16 0x80011304#32 = true := by decide
theorem test_ldClass : loads .ldClass 0x011308 0x06040001#32 2 0x0004#16 0x80011308#32 = true := by decide
theorem test_ldHdr : loads .ldHdr 0x01130C 0x00810010#32 3 0x0008#16 0x8001130C#32 = true := by decide
theorem test_ldSBar0 : loads .ldSBar0 0x011310 0xFEBC0000#32 4 0x0010#16 0x80011310#32 = true := by decide
theorem test_ldSBar1 : loads .ldSBar1 0x011314 0x0000C001#32 5 0x0020#16 0x80011314#32 = true := by decide
theorem test_ldSBar2 : loads .ldSBar2 0x011318 0x070E151C#32 6 0x0040#16 0x80011318#32 = true := by decide
theorem test_ldSBar3 : loads .ldSBar3 0x01131C 0x08101820#32 7 0x0080#16 0x8001131C#32 = true := by decide
theorem test_ldSBar4 : loads .ldSBar4 0x011320 0x09121B24#32 8 0x0100#16 0x80011320#32 = true := by decide
theorem test_ldSBar5 : loads .ldSBar5 0x011324 0x0A141E28#32 9 0x0200#16 0x80011324#32 = true := by decide
theorem test_ldSCis : loads .ldSCis 0x011328 0x0B16212C#32 10 0x0400#16 0x80011328#32 = true := by decide
theorem test_ldSSubsys : loads .ldSSubsys 0x01132C 0x11001AF4#32 11 0x0800#16 0x8001132C#32 = true := by decide
theorem test_ldSRom : loads .ldSRom 0x011330 0xFEB80000#32 12 0x1000#16 0x80011330#32 = true := by decide
theorem test_ldSCap : loads .ldSCap 0x011334 0xABCDEFDC#32 13 0x2000#16 0x80011334#32 = true := by decide
theorem test_ldSInt : loads .ldSInt 0x01133C 0x0E0A010B#32 15 0x8000#16 0x8001133C#32 = true := by decide
theorem test_ldBBar0 : loads .ldBBar0 0x011310 0x050A0F14#32 4 0x0010#16 0x80011310#32 = true := by decide
theorem test_ldBBar1 : loads .ldBBar1 0x011314 0x060C1218#32 5 0x0020#16 0x80011314#32 = true := by decide
theorem test_ldBBus : loads .ldBBus 0x011318 0x40050100#32 6 0x0040#16 0x80011318#32 = true := by decide
theorem test_ldBIo : loads .ldBIo 0x01131C 0x220001F1#32 7 0x0080#16 0x8001131C#32 = true := by decide
theorem test_ldBMem : loads .ldBMem 0x011320 0xFEB0FEA0#32 8 0x0100#16 0x80011320#32 = true := by decide
theorem test_ldBPmem : loads .ldBPmem 0x011324 0x0001FFF1#32 9 0x0200#16 0x80011324#32 = true := by decide
theorem test_ldBPbaseu : loads .ldBPbaseu 0x011328 0x00000001#32 10 0x0400#16 0x80011328#32 = true := by decide
theorem test_ldBPlimu : loads .ldBPlimu 0x01132C 0x00000000#32 11 0x0800#16 0x8001132C#32 = true := by decide
theorem test_ldBIou : loads .ldBIou 0x011330 0x00020001#32 12 0x1000#16 0x80011330#32 = true := by decide
theorem test_ldBCap : loads .ldBCap 0x011334 0x00000040#32 13 0x2000#16 0x80011334#32 = true := by decide
theorem test_ldBRom : loads .ldBRom 0x011338 0xFFFE0000#32 14 0x4000#16 0x80011338#32 = true := by decide
theorem test_ldBInt : loads .ldBInt 0x01133C 0x0003010B#32 15 0x8000#16 0x8001133C#32 = true := by decide
theorem test_ldCRaw0 : loads .ldCRaw0 0x011310 0xE0000000#32 4 0x0010#16 0x80011310#32 = true := by decide
theorem test_ldCRaw1 : loads .ldCRaw1 0x011314 0x020000A0#32 5 0x0020#16 0x80011314#32 = true := by decide
theorem test_ldCRaw2 : loads .ldCRaw2 0x011318 0x00030200#32 6 0x0040#16 0x80011318#32 = true := by decide
theorem test_ldCRaw3 : loads .ldCRaw3 0x01131C 0x08101820#32 7 0x0080#16 0x8001131C#32 = true := by decide
theorem test_ldCRaw4 : loads .ldCRaw4 0x011320 0x09121B24#32 8 0x0100#16 0x80011320#32 = true := by decide
theorem test_ldCRaw5 : loads .ldCRaw5 0x011324 0x0A141E28#32 9 0x0200#16 0x80011324#32 = true := by decide
theorem test_ldCRaw6 : loads .ldCRaw6 0x011328 0x0B16212C#32 10 0x0400#16 0x80011328#32 = true := by decide
theorem test_ldCRaw7 : loads .ldCRaw7 0x01132C 0x0C182430#32 11 0x0800#16 0x8001132C#32 = true := by decide
theorem test_ldCRaw8 : loads .ldCRaw8 0x011330 0x0D1A2734#32 12 0x1000#16 0x80011330#32 = true := by decide
theorem test_ldCRaw9 : loads .ldCRaw9 0x011334 0x0E1C2A38#32 13 0x2000#16 0x80011334#32 = true := by decide
theorem test_ldCRaw10 : loads .ldCRaw10 0x011338 0x0F1E2D3C#32 14 0x4000#16 0x80011338#32 = true := by decide
theorem test_ldCRaw11 : loads .ldCRaw11 0x01133C 0x05C0010A#32 15 0x8000#16 0x8001133C#32 = true := by decide

/-! ### Records (95_test_vectors.md V4 to V6) -/

/-- Latches with one value in place. -/
def latches (k : Fin 16) (v : Word) : Vector Word 16 := (Vector.replicate 16 0).set k v

/-- V4.1, V4.2, V4.2a, V4.2b, V4.2c. -/
theorem test_presence :
    presentOf 0x12378086#32 = true ∧ presentOf 0xFFFFFFFF#32 = false ∧ presentOf 0x1237FFFF#32 = false ∧
    presentOf 0xFFFF8086#32 = true ∧ presentOf 0x00FF00FF#32 = true := by decide
/-- V4.3 to V4.9: code, multifunction bit, variant. -/
theorem test_header_types :
    (codeOf 0x00800000#32 = 0x00#7 ∧ mfRecOf 0x00800000#32 = true ∧ variantOf 0x00#7 = .standard) ∧
    (codeOf 0x00810010#32 = 0x01#7 ∧ mfRecOf 0x00810010#32 = true ∧ variantOf 0x01#7 = .pciBridge) ∧
    (codeOf 0x00022008#32 = 0x02#7 ∧ mfRecOf 0x00022008#32 = false ∧ variantOf 0x02#7 = .cardBus) ∧
    (codeOf 0x00030000#32 = 0x03#7 ∧ mfRecOf 0x00030000#32 = false ∧ variantOf 0x03#7 = .unknown) ∧
    (codeOf 0x007F0000#32 = 0x7F#7 ∧ mfRecOf 0x007F0000#32 = false ∧ variantOf 0x7F#7 = .unknown) ∧
    (codeOf 0x00FF0000#32 = 0x7F#7 ∧ mfRecOf 0x00FF0000#32 = true) ∧
    (codeOf 0x7F000000#32 = 0x00#7 ∧ mfRecOf 0x7F000000#32 = false) := by decide
/-- V4.4, V4.10, V4.12. -/
theorem test_common_header :
    let h := assembleHeader (((latches 0 0x12378086).set 1 0x02800007).set 2 0x12345678 |>.set 3 0x7F022008)
    h.vendorId = 0x8086#16 ∧ h.deviceId = 0x1237#16 ∧ h.command = 0x0007#16 ∧ h.status = 0x0280#16 ∧
    h.revisionId = 0x78#8 ∧ h.progIf = 0x56#8 ∧ h.subclass = 0x34#8 ∧ h.classCode = 0x12#8 ∧
    h.cacheLineSize = 0x08#8 ∧ h.latencyTimer = 0x20#8 ∧ h.headerType = 0x02#7 ∧ h.bist = 0x7F#8 := by decide
/-- V5.1 to V5.8, V5.4: nothing of the interrupt bytes comes from 0x30. -/
theorem test_standard_fields :
    let g := assembleStandard (((((latches 4 0xFEBC0000).set 5 0x0000C001).set 11 0x11001AF4).set 12 0xFEB80000).set 13
      0xABCDEFDC |>.set 15 0x12345678)
    g.bar[0] = 0xFEBC0000#32 ∧ g.bar[1] = 0x0000C001#32 ∧ g.subsystemVendorId = 0x1AF4#16 ∧ g.subsystemId = 0x1100#16 ∧
    g.expansionRomBase = 0xFEB80000#32 ∧ g.capabilityPtr = 0xDC#8 ∧ g.interruptLine = 0x78#8 ∧
    g.interruptPin = 0x56#8 ∧ g.minGrant = 0x34#8 ∧ g.maxLatency = 0x12#8 := by decide
/-- V6.1 to V6.5. -/
theorem test_bridge_fields_low :
    let g := assembleBridge ((((latches 6 0x40050100).set 7 0x220001F1).set 8 0xFEB0FEA0).set 9 0x0001FFF1 |>.set 10 1)
    g.primaryBus = 0x00#8 ∧ g.secondaryBus = 0x01#8 ∧ g.subordinateBus = 0x05#8 ∧ g.secondaryLatencyTimer = 0x40#8 ∧
    g.ioBase = 0xF1#8 ∧ g.ioLimit = 0x01#8 ∧ g.memoryBase = 0xFEA0#16 ∧ g.memoryLimit = 0xFEB0#16 ∧
    g.prefetchBase = 0xFFF1#16 ∧ g.prefetchLimit = 0x0001#16 ∧ g.prefetchBaseUpper32 = 1#32 := by decide
/-- V6.6 to V6.10. -/
theorem test_bridge_fields_high :
    let g := assembleBridge ((((latches 11 0).set 12 0x00020001).set 13 0x00000040).set 14 0xFFFE0000 |>.set 15 0x0003010B)
    g.prefetchLimitUpper32 = 0#32 ∧ g.ioBaseUpper16 = 0x0001#16 ∧ g.ioLimitUpper16 = 0x0002#16 ∧
    g.capabilityPtr = 0x40#8 ∧ g.expansionRomBase = 0xFFFE0000#32 ∧ g.interruptLine = 0x0B#8 ∧
    g.interruptPin = 0x01#8 ∧ g.bridgeControl = 0x0003#16 := by decide
/-- V7: the latches loaded per outcome, as `RAWV` at the end. -/
theorem test_loads_per_outcome :
    loadedMask (loadsOf (latches 0 0xFFFFFFFF)) = 0x0001#16 ∧
    loadedMask (loadsOf ((latches 0 0x12378086).set 3 0x00800000)) = 0xBFFF#16 ∧
    loadedMask (loadsOf ((latches 0 0x244E8086).set 3 0x00810010)) = 0xFFFF#16 ∧
    loadedMask (loadsOf ((latches 0 0xAC56104C).set 3 0x00022008)) = 0xFFFF#16 ∧
    loadedMask (loadsOf ((latches 0 0x00011234).set 3 0x00050000)) = 0x000F#16 := by decide

/-! ### The scan (95_test_vectors.md V8) -/

/-- A scan at a function whose decode has just ended: what was read, and what is valid. -/
def scanning (scan : FnAddr) (x0 x3 : Word) (rawv : BitVec 16) : State :=
  { withSpace [] with
    seq := .enumerating, scan := scan, tgt := scan, raw := (latches 0 x0).set 3 x3, rawv := rawv, mf := fnOf scan != 0
    turns := [.sequencer] }

/-- The closing step moves `SCAN` there and emits so many records. -/
def advances (s : State) (scan : FnAddr) (records : Nat) (mf : Bool) : Bool :=
  check (step s) (fun t =>
    t.seq == .enumerating && t.scan == scan && t.tgt == scan && t.rawv == 0 && t.recOut.length == records && t.mf == mf)

/-- The closing step ends the scan with so many marks on REC. -/
def ends (s : State) (marks : Nat) : Bool :=
  check (step s) (fun t => t.seq == .idle && t.scan == 0 && t.recOut.length == marks && t.recOut.head? == some .done)

theorem test_scan_1 : advances (scanning 0x0000 0xFFFFFFFF 0 0x0001) 0x0008 0 false = true := by decide
theorem test_scan_2 : advances (scanning 0x0008 0x244E8086 0x00810010 0xFFFF) 0x0009 1 true = true := by decide
theorem test_scan_3 : advances (scanning 0x0008 0x12378086 0x00000000 0xBFFF) 0x0010 1 false = true := by decide
theorem test_scan_4 : advances (scanning 0x000B 0xFFFFFFFF 0 0x0001) 0x000C 0 true = true := by decide
theorem test_scan_5 : advances (scanning 0x000F 0x00011234 0x00050000 0x000F) 0x0010 1 true = true := by decide
theorem test_scan_6 : advances (scanning 0x00F8 0xFFFFFFFF 0 0x0001) 0x0100 0 false = true := by decide
theorem test_scan_7 :
    ends (scanning 0xFFF8 0xFFFFFFFF 0 0x0001) 1 = true ∧
    ends (scanning 0xFFF8 0x12378086 0x00000000 0xBFFF) 2 = true := by decide
theorem test_scan_8 :
    ends (scanning 0xFFFF 0xFFFFFFFF 0 0x0001) 1 = true ∧
    ends (scanning 0xFFFF 0x12378086 0x00000000 0xBFFF) 2 = true := by decide

/-! ### Fetching -/

/-- A command presented after reset is what the next step runs. -/
theorem test_fetch_cfgrd :
    check (step (State.reset.withFetchWord 32 0x00011310)) (fun t => t.configAddress == 0x80011310#32 && t.callers == [[]]) =
      true := by decide
/-- A key placed after reset is the micro-operation the next step runs: `LD_B_BUS` latches entry 6. -/
theorem test_fetch_ldBBus :
    check (step (State.reset.withFetchWord 16 0x0118)) (fun t => t.rawv == 0x007F#16 && t.configAddress == 0x80000018#32) =
      true := by decide
theorem test_table_words :
    decodeTableWord 32 0x02011300 = some (.decode 1 2 3) ∧ decodeTableWord 32 0x01000818 = some (.cfgwr 0 1 0 0x18 0) ∧
    decodeTableWord 16 0x023C = some .ldCRaw11 ∧ decodeTableWord 16 0x0038 = none := by decide

/-! ### Witnesses: states and operands that meet the hypotheses of the statements, clause by clause -/

/-- An answer of the machine is a next state. -/
def answers (o : Host.Outcome State Fault Refusal) : Bool := check o (fun _ => true)

theorem answers_next {o : Host.Outcome State Fault Refusal} (h : answers o = true) : ∃ t, o = .next t := by
  cases o with
  | next t => exact ⟨t, rfl⟩
  | fault r => cases h
  | refused r => cases h

/-- DecodedCommandEncodesToItsWords: every field of the words at its end. -/
theorem witness_decoded_command :
    decodeCmd [0x01FFFFFF#32, 0xFFFFFFFF#32, 5#32] = .ok (.cfgwr 255 31 7 0xFF 0xFFFFFFFF, [5#32]) ∧
    decodeCmd [0x02FFFF00#32] = .ok (.decode 255 31 7, []) := by decide

/-- ReservedWordsAreExactlyTheRefused: each kind of reserved word at its lowest bit, at the head of a queue; and words beside
them that are not reserved. -/
theorem witness_reserved_words :
    (reservedWord 0x04000000#32 ∧ reservedWord 0x80000000#32 ∧ reservedWord 0x02000001#32 ∧ reservedWord 0x02000080#32 ∧
      reservedWord 0x03000001#32 ∧ reservedWord 0x03800000#32) ∧
    (¬ reservedWord 0x00FFFFFF#32 ∧ ¬ reservedWord 0x01FFFFFF#32 ∧ ¬ reservedWord 0x02FFFF00#32 ∧
      ¬ reservedWord 0x03000000#32) ∧
    ({ State.reset with callers := [[0x04000000#32]] } : State).callers.getD 0 [] = 0x04000000#32 :: [] := by
  refine ⟨?_, ?_, rfl⟩ <;> unfold reservedWord <;> decide

/-- AddressWordRoundTrip, AddressWordFields: words that differ in every ignored bit, with the enable bit at 31 and at 24. -/
theorem witness_ignored_bits :
    (0x7F011313#32 : Word) &&& 0x80FFFFFC#32 = 0x00011310#32 &&& 0x80FFFFFC#32 ∧
    (0xFE011313#32 : Word) &&& (camEnable ⟨0x0CF8, 0x0CFC, 0⟩ ||| 0x00FFFFFC#32) =
      0x00011310#32 &&& (camEnable ⟨0x0CF8, 0x0CFC, 0⟩ ||| 0x00FFFFFC#32) := by decide

/-- MissingFunctionAnswersTheSentinel: a function with no listed byte beside one that has some. -/
theorem witness_missing_function :
    Memory.hasFunction (dword 0x0000FC 0) (fnAddr 0 0 1) = false ∧ Memory.hasFunction (dword 0x0000FC 0) (fnAddr 0 0 0) = true := by
  decide

/-- DeviceChangesTouchOnlyTheirBytes: the first and the last byte of the space, changed twice. -/
theorem witness_device_changes :
    Memory.wf (dword 0xFFFFFC 0) ∧
    (∀ c ∈ ([(0x000000, some 1), (0xFFFFFF, some 2)] : List Change), c.1 ≠ 0xFFFFFC#24) ∧
    ([(0xFFFFFF, some 1), (0xFFFFFF, none)] : List Change) = [(0xFFFFFF, some 1)] ++ (0xFFFFFF, none) :: [] := by
  refine ⟨by decide, ?_, rfl⟩
  intro c hc
  fin_cases hc <;> decide

/-- The undisturbed state of the statements about one pair: LOCK is 0, nothing falls inside the pair, and space is canonical
(CfgrdReturnsTheSelectedDword, CfgwrSendsTheWholeValue, ReadValuesAreLittleEndian, LoadsLatchTheirRegister,
AccessesChangeOnlyWhatDevicesChange, UndisturbedTurnsNeverStop); with no reaction, and with one that names another byte. -/
theorem witness_undisturbed :
    let s := withSpace (dword 0xFFFFFC 7)
    s.lock = false ∧ s.mids.headD [] = [] ∧ s.mem.wf ∧ s.reactions.headD [] = [] ∧
    (∀ c ∈ ({ s with reactions := [[(0x000000, some 1)]] } : State).reactions.headD [], c.1 ≠ 0xFFFFFF#24) := by
  refine ⟨rfl, rfl, by decide, rfl, ?_⟩
  intro c hc
  rw [List.eq_of_mem_singleton hc]
  decide

/-- AccessorCommandsLeaveTheSequencerAlone, LoadsLeaveEverythingElseAlone: something happens inside the pair, no reset does, and
the instructions answer a next state. -/
theorem witness_busy_pair :
    let s := { withSpace [] with mids := [[.device [(0, some 1)], .port (.writeAddr 0x80000800#32)]] }
    OutsideEvent.reset ∉ s.mids.headD [] ∧ answers (exec (.cfgrd 0 0 0 0) s) = true ∧
    answers (exec (.cfgwr 0 0 0 0 0) { s with reactions := [[]] }) = true ∧ answers (exec .ldCRaw11 s) = true := by decide

/-- RequestersAreHeldWhileLocked, AccessorCommandsLeaveTheSequencerAlone (held): a pair is open. -/
theorem witness_locked : ({ State.reset with lock := true } : State).lock = true := by decide

/-- BrokenPairReachesTheOtherRegister: another context selects 255:31.7, register 0xFF. -/
theorem witness_broken_pair :
    let s := { withSpace [] with mids := [[.port (.writeAddr 0x80FFFFFF#32)]] }
    s.lock = false ∧ s.mids.headD [] = [.port (.writeAddr 0x80FFFFFF#32)] ∧
    (0x80FFFFFF#32 : Word) &&& camReservedBits s.cam = 0 ∧ (camDec s.cam 0x80FFFFFF#32).en = true := by decide

/-- The broken pair at work (70_reset_and_hazards.md R239): the read of 0:0.0 returns the register of 0:1.0. -/
theorem test_broken_pair :
    check (exec (.cfgrd 0 0 0 0x00)
      { withSpace (dword 0x000000 0x12378086 ++ dword 0x000800 0x244E8086) with mids := [[.port (.writeAddr 0x80000800#32)]] })
      (fun t => t.rspOut == [(0, .value 0x244E8086#32)] && t.configAddress == 0x80000800#32) = true := by decide

/-- The three kinds of operation that perform a pair, each with its address word. -/
theorem witness_pair_words (s : State) :
    s.pairWord (.cfgrd 1 2 3 0x10) (camEnc s.cam 1 2 3 0x10) ∧ s.pairWord (.cfgwr 1 2 3 0x10 5) (camEnc s.cam 1 2 3 0x10) ∧
    s.pairWord .ldHdr (camEnc s.cam (busOf s.tgt) (devOf s.tgt) (fnOf s.tgt) 0x0C) :=
  ⟨.inl ⟨1, 2, 3, 0x10, rfl, rfl⟩, .inr (.inl ⟨1, 2, 3, 0x10, 5, rfl, rfl⟩),
    .inr (.inr ⟨⟨.ldHdr, none, 0x0C, 3⟩, by simp [microOps, microOpsCommon], rfl, rfl⟩)⟩

/-- After reset, with these events inside the coming pair. -/
def during (es : List OutsideEvent) : State := { withSpace [] with mids := [es] }

/-- Events inside a pair after which the pair goes on; the last leaves an address word with enable 0. -/
def eventsThatGoOn : List OutsideEvent := [.device [(0, some 1)], .port (.writeAddr 0x80000800#32), .port .readData, .port (.writeAddr 8#32)]

/-- They do go on, whatever pair they fall in. -/
theorem eventsThatGoOn_goOn (w : Word) (s : State) (h : s.cam = Config.cam) :
    ∃ u, interlude eventsThatGoOn (openPair w s).nextMids = .goOn u ∧ (camDec s.cam u.configAddress).en = false := by
  have h1 : (0x80000800#32 : Word) &&& camReservedBits s.cam = 0 := by rw [h]; decide
  have h2 : (camDec s.cam 0x80000800#32).en = true := by rw [h]; decide
  have h3 : (8#32 : Word) &&& camReservedBits s.cam = 0 := by rw [h]; decide
  have h4 : (camDec s.cam 8#32).en = false := by rw [h]; decide
  simp [interlude, eventsThatGoOn, outsideEvent, rogueOp, readData, openPair, h1, h2, h3, h4]

/-- ResetInsideAPairAbandonsIt: the reset comes first between the operations, and behind other events. -/
theorem witness_reset_inside (w : Word) :
    (during [.reset, .device []]).lock = false ∧
    (during [.reset, .device []]).mids.headD [] = [] ++ .reset :: [.device []] ∧
    (∃ u, interlude [] (openPair w (during [.reset, .device []])).nextMids = .goOn u) ∧
    (during (eventsThatGoOn ++ [.reset])).mids.headD [] = eventsThatGoOn ++ .reset :: [] ∧
    ∃ u, interlude eventsThatGoOn (openPair w (during (eventsThatGoOn ++ [.reset]))).nextMids = .goOn u :=
  ⟨rfl, rfl, ⟨_, rfl⟩, rfl, (eventsThatGoOn_goOn w _ rfl).imp fun _ h => h.1⟩

/-- ReadPairsDoNotDisturbEachOther. -/
theorem witness_read_pairs :
    let s := withSpace (dword 0x000000 0x12378086)
    s.lock = false ∧ s.mids = [] ∧ s.reactions = [] ∧ s.background = some 0xFF#8 := by decide

/-- UnmodelledPortOperationsAreRefused, first part: enable is 0; the lowest and the highest reserved bit set. -/
theorem witness_unmodelled :
    (camDec State.reset.cam State.reset.configAddress).en = false ∧
    (0x81000000#32 : Word) &&& camReservedBits State.reset.cam ≠ 0 ∧
    (0x40000000#32 : Word) &&& camReservedBits State.reset.cam ≠ 0 := by decide

/-- UnmodelledPortOperationsAreRefused, second part: the events that go on leave enable 0, and each refused one can follow. -/
theorem witness_unmodelled_inside (w : Word) (e : OutsideEvent) :
    (during (eventsThatGoOn ++ [e])).lock = false ∧ (during eventsThatGoOn).mids.headD [] = eventsThatGoOn ∧
    (during (eventsThatGoOn ++ [e])).mids.headD [] = eventsThatGoOn ++ e :: [] ∧
    ∃ u, interlude eventsThatGoOn (openPair w (during (eventsThatGoOn ++ [e]))).nextMids = .goOn u ∧
      (camDec (during (eventsThatGoOn ++ [e])).cam u.configAddress).en = false :=
  ⟨rfl, rfl, rfl, eventsThatGoOn_goOn w _ rfl⟩

/-- Refused inside a pair: the pair of a `CFGRD`, a `CFGWR` and a load into which a rogue context writes an address word with
enable 0. -/
theorem test_pair_refused :
    exec (.cfgrd 0 0 0 0) (during [.port (.writeAddr 8#32)]) = .refused (.dataPortDisabled 8#32) ∧
    exec (.cfgwr 0 0 0 0 1) (during [.port (.writeAddr 8#32)]) = .refused (.dataPortDisabled 8#32) ∧
    exec .ldHdr (during [.port (.writeAddr 0xC0000000#32)]) = .refused (.camReservedBits 0xC0000000#32) :=
  ⟨rfl, rfl, rfl⟩

/-- LoadsLatchTheirRegister and the others over the table: a row of each group. -/
theorem witness_rows :
    microOps.length = 39 ∧ (∃ row ∈ microOps, row.op = .ldHdr) ∧ (∃ row ∈ microOps, row.op = .ldSInt) ∧
    (∃ row ∈ microOps, row.op = .ldBRom) ∧ (∃ row ∈ microOps, row.op = .ldCRaw11) := by decide

/-- DecodeIsAcceptedOnlyWhenIdle, EnumIsAcceptedOnlyWhenIdle: both clauses. -/
theorem witness_phases :
    State.reset.seq = .idle ∧ (scanning 0 0 0 0).seq ≠ .idle ∧ ({ State.reset with seq := .decoding } : State).seq ≠ .idle := by
  decide

/-- NextLoadFollowsTheOrder: nothing loaded; absent; the first load done, the common ones done, all of a Standard and of a
PciBridge header done. -/
theorem witness_next_load :
    State.reset.rawv = 0 ∧
    ((scanning 0 0xFFFFFFFF 0 1).rawv.getLsbD 0 = true ∧ (scanning 0 0xFFFFFFFF 0 1).raw[0].extractLsb' 0 16 = 0xFFFF#16) ∧
    (∀ p ∈ [(1, 0x00000000#32, 0x0001#16), (4, 0x00000000#32, 0x000F#16), (15, 0x00000000#32, 0xBFFF#16),
        (16, 0x00010000#32, 0xFFFF#16), (4, 0x00030000#32, 0x000F#16)],
      1 ≤ p.1 ∧ p.1 ≤ 16 ∧ (scanning 0 0x12378086 p.2.1 p.2.2).raw[0].extractLsb' 0 16 ≠ 0xFFFF#16 ∧
      (scanning 0 0x12378086 p.2.1 p.2.2).rawv =
        loadedMask ((loadOrder (codeOf (scanning 0 0x12378086 p.2.1 p.2.2).raw[3])).take p.1)) := by decide

/-- Nobody but the sequencer acts after reset, whatever configuration space holds (DecodeAloneReturnsItsResult,
EnumAloneRunsToDone). -/
theorem witness_alone (m : Memory) : (withSpace m).Alone ∧ (withSpace m).seq = .idle :=
  ⟨⟨rfl, fun _ hq => List.eq_of_mem_singleton hq, rfl, rfl⟩, rfl⟩

/-- EnumAloneFindsExactlyTheDiscoverable: an environment that answers every unlisted byte alike is steady. -/
theorem witness_steady (m : Memory) : (withSpace m).steadyAnswers ∧ (withSpace m).reactions = [] := by
  refine ⟨fun n n' a => ?_, rfl⟩
  simp [State.answersPresent, State.answersMultifunction, Memory.dwordAt, Memory.byteAt, unlistedByte, withSpace]

/-- A device to find: 0:0.0 is present. -/
theorem witness_discoverable : (withSpace (dword 0x000000 0x12378086)).discoverable 0x0000 :=
  ⟨by decide, .inl (by decide)⟩

/-- AbsentEndsTheDecodeAtOnce: the load answers, and what it latches is the sentinel with a device id beside it (V4.2a). -/
theorem witness_absent :
    let s := { withSpace (dword 0x000000 0x1237FFFF) with seq := .decoding }
    s.seq ≠ .idle ∧ s.rawv = 0 ∧ OutsideEvent.reset ∉ s.mids.headD [] ∧ s.lock = false ∧
    check (exec .ldId s) (fun t => t.raw[0].extractLsb' 0 16 == 0xFFFF#16 && t.seq == .decoding) = true := by decide

/-- ReadsPerOutcome, HeaderTypePartsAreIndependent, LayoutCodesSelectVariants: latches and words for every clause, the Unknown codes at
both ends. -/
theorem witness_outcomes :
    presentOf (latches 0 0xFFFFFFFF)[0] = false ∧
    (presentOf ((latches 0 0x12378086).set 3 0x00800000)[0] = true ∧
      codeOf ((latches 0 0x12378086).set 3 0x00800000)[3] = 0x00#7) ∧
    (presentOf ((latches 0 0x12378086).set 3 0x00010000)[0] = true ∧
      codeOf ((latches 0 0x12378086).set 3 0x00010000)[3] = 0x01#7) ∧
    (presentOf ((latches 0 0x12378086).set 3 0x00020000)[0] = true ∧
      codeOf ((latches 0 0x12378086).set 3 0x00020000)[3] = 0x02#7) ∧
    (presentOf ((latches 0 0x12378086).set 3 0x00030000)[0] = true ∧
      3 ≤ (codeOf ((latches 0 0x12378086).set 3 0x00030000)[3]).toNat) ∧
    (presentOf ((latches 0 0x12378086).set 3 0x00FF0000)[0] = true ∧
      3 ≤ (codeOf ((latches 0 0x12378086).set 3 0x00FF0000)[3]).toNat) ∧
    (0x00800000#32 : Word).extractLsb' 16 8 = 0x80#8 ∧ (0x00810010#32 : Word).extractLsb' 16 8 = 0x81#8 := by decide

/-- InvalidLatchesFault: `RAW[14]` not valid under a PciBridge code; the same `RAWV` suffices under a Standard one. -/
theorem witness_invalid_latch :
    (∃ k ∈ loadOrder (codeOf (scanning 0 0x244E8086 0x00010000 0xBFFF).raw[3]),
      (scanning 0 0x244E8086 0x00010000 0xBFFF).valid k = false) ∧
    (∀ k ∈ loadOrder (codeOf (scanning 0 0x12378086 0x00000000 0xBFFF).raw[3]),
      (scanning 0 0x12378086 0x00000000 0xBFFF).valid k = true) := by decide

/-- The hypotheses common to the statements about the closing step of a scan. -/
def closing (s : State) : Prop := s.turns = .sequencer :: [] ∧ s.seq = .enumerating

/-- An absent function has been read. -/
def readAbsent (s : State) : Prop := s.rawv.getLsbD 0 = true ∧ s.raw[0].extractLsb' 0 16 = 0xFFFF#16

/-- A present function has been read whole. -/
def readPresent (s : State) : Prop :=
  s.raw[0].extractLsb' 0 16 ≠ 0xFFFF#16 ∧ ∀ k ∈ loadOrder (codeOf s.raw[3]), s.valid k = true

/-- FunctionZeroAbsentSkipsTheDevice: the first function and the last device but one. -/
theorem witness_zero_absent :
    ∀ a ∈ ([0x0000, 0xFFF0] : List FnAddr), closing (scanning a 0xFFFFFFFF 0 1) ∧ readAbsent (scanning a 0xFFFFFFFF 0 1) ∧
      fnOf (scanning a 0xFFFFFFFF 0 1).scan = 0 ∧ (scanning a 0xFFFFFFFF 0 1).scan ≠ 0xFFF8#16 := by
  intro a ha
  unfold closing readAbsent
  fin_cases ha <;> decide

/-- FunctionZeroPresentIsEmitted: multifunction at the last device; single-function at the last but one. -/
theorem witness_zero_present :
    (closing (scanning 0xFFF8 0x244E8086 0x00810010 0xFFFF) ∧ readPresent (scanning 0xFFF8 0x244E8086 0x00810010 0xFFFF) ∧
      fnOf (scanning 0xFFF8 0x244E8086 0x00810010 0xFFFF).scan = 0 ∧
      (scanning 0xFFF8 0x244E8086 0x00810010 0xFFFF).raw[3].getLsbD 23 = true) ∧
    (closing (scanning 0xFFF0 0x12378086 0 0xBFFF) ∧ readPresent (scanning 0xFFF0 0x12378086 0 0xBFFF) ∧
      fnOf (scanning 0xFFF0 0x12378086 0 0xBFFF).scan = 0 ∧ (scanning 0xFFF0 0x12378086 0 0xBFFF).raw[3].getLsbD 23 = false ∧
      (scanning 0xFFF0 0x12378086 0 0xBFFF).scan ≠ 0xFFF8#16) := by
  unfold closing readPresent
  decide

/-- OtherFunctionAbsentIsExcluded: both clauses, at the last function of a device, the last but one of all, and the last. -/
theorem witness_other_absent :
    ∀ a ∈ ([0x000F, 0xFFFE, 0xFFFF] : List FnAddr), closing (scanning a 0xFFFFFFFF 0 1) ∧
      readAbsent (scanning a 0xFFFFFFFF 0 1) ∧ fnOf (scanning a 0xFFFFFFFF 0 1).scan ≠ 0 := by
  intro a ha
  unfold closing readAbsent
  fin_cases ha <;> decide

/-- OtherFunctionPresentIsEmitted. -/
theorem witness_other_present :
    ∀ a ∈ ([0x0001, 0xFFFE] : List FnAddr), closing (scanning a 0x00011234 0x00030000 0x000F) ∧
      readPresent (scanning a 0x00011234 0x00030000 0x000F) ∧ fnOf (scanning a 0x00011234 0x00030000 0x000F).scan ≠ 0 ∧
      (scanning a 0x00011234 0x00030000 0x000F).scan ≠ 0xFFFF#16 := by
  intro a ha
  unfold closing readPresent
  fin_cases ha <;> decide

/-- ScanEndsAtTheLastDevice: each of its four clauses. -/
theorem witness_scan_end :
    (closing (scanning 0xFFF8 0xFFFFFFFF 0 1) ∧ readAbsent (scanning 0xFFF8 0xFFFFFFFF 0 1)) ∧
    (closing (scanning 0xFFFF 0xFFFFFFFF 0 1) ∧ readAbsent (scanning 0xFFFF 0xFFFFFFFF 0 1)) ∧
    (closing (scanning 0xFFF8 0x12378086 0 0xBFFF) ∧ readPresent (scanning 0xFFF8 0x12378086 0 0xBFFF) ∧
      (scanning 0xFFF8 0x12378086 0 0xBFFF).raw[3].getLsbD 23 = false) ∧
    (closing (scanning 0xFFFF 0x12378086 0 0xBFFF) ∧ readPresent (scanning 0xFFFF 0x12378086 0 0xBFFF)) := by
  unfold closing readAbsent readPresent
  decide

/-- SequencerNeverWritesConfiguration: a turn of the sequencer that puts operations on IO. -/
theorem witness_sequencer_turn :
    check (sequencerTurn { withSpace [] with seq := .decoding }) (fun t => t.ioLog.length == 2) = true := by decide

/-- A scan at function 1 of a multifunction device whose function 0 has been emitted. -/
def inTheScan : State :=
  { scanning 0x0001 0x12378086 0 0x0001 with recOut := [.emit (assemble 0x0000 (latches 0 0x12378086) 0 true), .began] }

/-- StepKeepsTheInvariant, StepKeepsThePassOrdered, PlatformParametersStayFixed: a scan inside a multifunction device meets both, and steps. -/
theorem witness_invariant : inTheScan.Inv ∧ inTheScan.ScanOrdered ∧ answers (step inTheScan) = true := by
  refine ⟨⟨rfl, by decide, by decide, by decide, fun _ => rfl, fun h => absurd rfl h, fun _ _ => rfl,
    ⟨1, by decide, by decide, fun h => absurd h (by decide)⟩, fun e he => nomatch he⟩,
    ⟨List.pairwise_singleton _ _, fun a ha => ?_, fun _ => ⟨rfl, fun a ha => ?_, fun _ => ?_⟩⟩, by decide⟩
  · rw [List.eq_of_mem_singleton ha]
    decide
  · rw [List.eq_of_mem_singleton ha]
    decide
  · decide

/-- UndisturbedTurnsNeverStop: a caller with a whole command, one with half of one, one with nothing. -/
theorem witness_queues :
    let s := { withSpace [] with callers := [[0x03000000#32], [0x01000000#32], []] }
    s.mids.headD [] = [] ∧ s.callers.getD 0 [] = 0x03000000#32 :: [] ∧ ¬ reservedWord 0x03000000#32 ∧
    s.callers.getD 1 [] = 0x01000000#32 :: [] ∧ ¬ reservedWord 0x01000000#32 ∧ s.callers.getD 2 [] = [] := by
  unfold reservedWord
  decide

/-- CallersCannotDisturbARunningCommand: a `CFGWR` while a scan runs, and an `ENUM` that is held. -/
theorem witness_caller_turn :
    (scanning 0 0 0 0).seq ≠ .idle ∧ OutsideEvent.reset ∉ (scanning 0 0 0 0).mids.headD [] ∧
    answers (callerTurn 0 { scanning 0 0 0 0 with callers := [[0x01000818#32, 5#32]], reactions := [[]] }) = true ∧
    answers (callerTurn 0 { scanning 0 0 0 0 with callers := [[0x03000000#32]] }) = true := by decide

/-- StepRunsTheDecodedCommand: `ENUM` in IDLE, and `CFGRD` while a scan runs. -/
theorem witness_step_command :
    (decodeCmd (({ withSpace [] with turns := [.caller 0], callers := [[0x03000000#32]] } : State).callers.getD 0 []) =
      .ok (.enum, []) ∧ (withSpace []).seq = .idle) ∧
    (decodeCmd (({ scanning 0 0 0 0 with turns := [.caller 1], callers := [[], [0x00011310#32, 7#32]] } : State).callers.getD 1 []) =
      .ok (.cfgrd 1 2 3 0x10, [7#32]) ∧ (scanning 0 0 0 0).lock = false) := by decide

/-- StepRunsTheNextMicroOp: `LD_B_ROM` is next. -/
theorem witness_step_microop :
    let s := scanning 0 0x244E8086 0x00010000 0x3FFF
    s.turns = .sequencer :: [] ∧ s.seq ≠ .idle ∧ s.lock = false ∧ s.nextKey = some 0x0138#15 ∧
    decodeKey 0x0138#15 = .ok .ldBRom := by decide

/-- UnscheduledStepsWaitOrServeTheOneReady: nothing to do; the sequencer alone; a caller alone. -/
theorem witness_unscheduled :
    State.reset.turns = [] ∧ State.reset.seq = .idle ∧ (∀ q ∈ State.reset.callers, q = []) ∧
    readyTurns { State.reset with seq := .decoding } = [.sequencer] ∧
    readyTurns { State.reset with callers := [[], [0x03000000#32]] } = [.caller 1] := by decide

end Sys2Proof.Tests
end

/-! The invariant of the machine. `State.Inv` is cut into its clauses on the ports (`State.PortsInv`) and its clauses on the
decoder and the enumerator (`State.SequencerInv`); every case of a turn keeps each. The fields of the address word follow. -/

namespace Sys2Proof.Machine

/-! ### What a command and the closing step can do -/

/-- What a command's meaning can do: nothing, while its issuer is held; one access, which completes or is abandoned by a
reset; the start of a decode; the start of a scan. -/
inductive CommandCase (s t : State) : Prop
  | held (h : t = s)
  | accessed (b : BitVec 8) (d : BitVec 5) (f : BitVec 3) (r : BitVec 8) (u : State) (op : PortOp) (cs : List Change)
      (resp : Response) (hu : OutsideOnly (openPair (camEnc s.cam b d f r) s).nextMids u)
      (h : t = ((u.afterData .accessor op cs).setLock false).respond resp)
  | abandoned (b : BitVec 8) (d : BitVec 5) (f : BitVec 3) (r : BitVec 8) (u : State)
      (hu : OutsideOnly (openPair (camEnc s.cam b d f r) s).nextMids u) (h : t = u.blockReset)
  | decodes (a : FnAddr) (hseq : s.seq = .idle) (h : t = (s.setSeq .decoding).bindTarget a)
  | scans (hseq : s.seq = .idle)
      (h : t = ((((s.setSeq .enumerating).setScan 0).setMf false).bindTarget 0).report .began)

theorem execCfgrd_cases {b : BitVec 8} {d : BitVec 5} {f : BitVec 3} {r : BitVec 8} {s t : State}
    (h : execCfgrd b d f r s = .next t) : CommandCase s t := by
  rcases withPair_next h with ⟨-, ht⟩ | ⟨-, ⟨v, u, hp, rfl⟩ | hp⟩
  · exact .held ht
  · obtain ⟨u', hu, -, -, rfl⟩ := readPair_completed hp
    exact .accessed b d f r u' _ _ _ hu rfl
  · obtain ⟨u', hu, rfl⟩ := readPair_abandoned hp
    exact .abandoned b d f r u' hu rfl

theorem execCfgwr_cases {b : BitVec 8} {d : BitVec 5} {f : BitVec 3} {r : BitVec 8} {v : Word} {s t : State}
    (h : execCfgwr b d f r v s = .next t) : CommandCase s t := by
  rcases withPair_next h with ⟨-, ht⟩ | ⟨-, ⟨x, u, hp, rfl⟩ | hp⟩
  · exact .held ht
  · obtain ⟨u', hu, -, rfl⟩ := writePair_completed hp
    exact .accessed b d f r u' _ _ _ hu rfl
  · obtain ⟨u', hu, rfl⟩ := writePair_abandoned hp
    exact .abandoned b d f r u' hu rfl

theorem execDecode_cases {b : BitVec 8} {d : BitVec 5} {f : BitVec 3} {s t : State}
    (h : execDecode b d f s = .next t) : CommandCase s t := by
  unfold execDecode at h
  split at h <;> cases h
  · exact .decodes _ ‹_› rfl
  · exact .held rfl

theorem execEnum_cases {s t : State} (h : execEnum s = .next t) : CommandCase s t := by
  unfold execEnum at h
  split at h <;> cases h
  · exact .scans ‹_› rfl
  · exact .held rfl

/-- A command that came from CMD and answers a next state does one of the things of `CommandCase`. -/
theorem command_cases {ws rest : List Word} {i : Instr} {s t : State} (hdec : decodeCmd ws = .ok (i, rest))
    (h : exec i s = .next t) : CommandCase s t := by
  rcases decodeCmd_ok hdec with ⟨b, d, f, r, rfl⟩ | ⟨b, d, f, r, v, rfl⟩ | ⟨b, d, f, rfl⟩ | rfl
  · exact execCfgrd_cases h
  · exact execCfgwr_cases h
  · exact execDecode_cases h
  · exact execEnum_cases h

/-- The closing step hands over the result of a `DECODE`, or is the scan's step on the result. -/
theorem conclude_cases {s t : State} (hseq : s.seq ≠ .idle) (h : conclude s = .next t) :
    ∃ r, decodeOutcome s = .ok r ∧ ((s.seq = .decoding ∧ t = (s.report (.result r)).setSeq .idle) ∨
      (s.seq = .enumerating ∧ t = scanStep r s)) := by
  unfold conclude at h
  split at h
  · cases h
  · rename_i r hr
    refine ⟨r, hr, ?_⟩
    cases hq : s.seq with
    | idle => exact absurd hq hseq
    | decoding =>
      rw [hq] at h
      cases h
      exact .inl ⟨rfl, rfl⟩
    | enumerating =>
      rw [hq] at h
      cases h
      exact .inr ⟨rfl, rfl⟩

/-! ### The step of a scan -/

/-- The next device begins at its function 0, also where the advance carries (10_state.md R26). -/
theorem fnOf_nextDeviceOf (a : FnAddr) : fnOf ((nextDeviceOf a).setWidth 16) = 0 := by
  apply BitVec.eq_of_toNat_eq
  have hm := deviceMask_toNat a
  have ha := a.isLt
  rw [fnOf_toNat, nextDeviceOf, BitVec.toNat_setWidth, BitVec.toNat_add, BitVec.zeroExtend, BitVec.toNat_setWidth, hm]
  simp only [BitVec.toNat_ofNat, BitVec.ofNat_eq_ofNat]
  omega

/-- The step of a scan writes `MF` and REC and then advances `SCAN`; it goes to a function 1 to 7 only with `MF` 1
(42_enumerator.md R193 to R196). -/
theorem scanStep_eq_advanceTo (r : DecodeResult) (s : State) :
    ∃ target mf out, scanStep r s = advanceTo target { s with mf := mf, recOut := out } ∧
      ((fnOf s.scan ≠ 0 → s.mf = true) → fnOf (target.setWidth 16) ≠ 0 → mf = true) := by
  have next : ∀ P : Prop, fnOf ((nextDeviceOf s.scan).setWidth 16) ≠ 0 → P :=
    fun _ hne => absurd (fnOf_nextDeviceOf s.scan) hne
  unfold scanStep
  split
  · cases r with
    | absent => exact ⟨nextDeviceOf s.scan, false, s.recOut, rfl, fun _ => next _⟩
    | present d =>
      cases hd : d.multifunction with
      | true => exact ⟨nextFunctionOf s.scan, true, .emit d :: s.recOut, by simp only [hd]; rfl, fun _ _ => rfl⟩
      | false => exact ⟨nextDeviceOf s.scan, false, .emit d :: s.recOut, by simp only [hd]; rfl, fun _ => next _⟩
  · rename_i hfn
    cases r with
    | absent => exact ⟨nextFunctionOf s.scan, s.mf, s.recOut, rfl, fun h _ => h hfn⟩
    | present d => exact ⟨nextFunctionOf s.scan, s.mf, .emit d :: s.recOut, rfl, fun h _ => h hfn⟩

/-! ### The ports -/

/-- The clauses of the invariant on `LOCK`, the environment and IO. -/
structure State.PortsInv (s : State) : Prop where
  unlocked : s.lock = false
  memory : s.mem.wf
  ports : s.cam.addrPort ≠ s.cam.dataPort
  camReserved : s.configAddress &&& camReservedBits s.cam = 0
  ioLocked : ∀ e ∈ s.ioLog, e.by_ = .accessor → e.locked = true

/-- From `s` to `t` the platform's parameters stay, and so do the clauses of the invariant on the ports. -/
structure KeepsPorts (s t : State) : Prop where
  cam : t.cam = s.cam
  inv : s.PortsInv → t.PortsInv

theorem KeepsPorts.trans {s t u : State} (h : KeepsPorts s t) (h' : KeepsPorts t u) : KeepsPorts s u :=
  ⟨h'.cam.trans h.cam, h'.inv ∘ h.inv⟩

/-- Where no port operation passes, no device changes and `LOCK` is not taken. -/
theorem KeepsPorts.of_eq {s t : State} (hlock : s.lock = false → t.lock = false) (hmem : t.mem = s.mem)
    (hcam : t.cam = s.cam) (haddr : t.configAddress = s.configAddress) (hio : t.ioLog = s.ioLog) : KeepsPorts s t :=
  ⟨hcam, fun ⟨h1, h2, h3, h4, h5⟩ =>
    ⟨hlock h1, by rwa [hmem], by rwa [hcam], by rwa [haddr, hcam], by rwa [hio]⟩⟩

theorem KeepsPorts.refl (s : State) : KeepsPorts s s := ⟨rfl, id⟩

theorem KeepsPorts.blockReset (s : State) : KeepsPorts s s.blockReset := .of_eq (fun _ => rfl) rfl rfl rfl rfl

theorem KeepsPorts.advanceTo (target : BitVec 17) (s : State) : KeepsPorts s (advanceTo target s) := by
  unfold Machine.advanceTo
  split <;> exact .of_eq id rfl rfl rfl rfl

theorem KeepsPorts.scanStep (r : DecodeResult) (s : State) : KeepsPorts s (scanStep r s) := by
  obtain ⟨target, mf, out, heq, -⟩ := scanStep_eq_advanceTo r s
  have h : KeepsPorts s { s with mf := mf, recOut := out } := .of_eq id rfl rfl rfl rfl
  rw [heq]
  exact h.trans (.advanceTo ..)

/-- What outside events put on IO was not issued by the Accessor, so they keep every clause. -/
theorem OutsideOnly.keepsPorts {s t : State} (h : OutsideOnly s t) : KeepsPorts s t := by
  refine ⟨h.cam, fun hs => ⟨h.lock.trans hs.unlocked, h.memory hs.memory, by rw [h.cam]; exact hs.ports,
    h.camReserved hs.camReserved, fun e he hby => ?_⟩⟩
  obtain ⟨new, hio, hnew⟩ := h.io
  rw [hio] at he
  rcases List.mem_append.mp he with he | he
  · rw [hnew e he] at hby
    cases hby
  · exact hs.ioLocked e he hby

/-- An open pair, once `LOCK` is released: the address word has its reserved bits clear and was written under `LOCK`. -/
theorem KeepsPorts.openPair (b : BitVec 8) (d : BitVec 5) (f : BitVec 3) (r : BitVec 8) (s : State) :
    KeepsPorts s (((openPair (camEnc s.cam b d f r) s).nextMids).setLock false) := by
  refine ⟨rfl, fun hs => ⟨rfl, hs.memory, hs.ports, camEnc_reserved s.cam b d f r, fun e he hby => ?_⟩⟩
  rcases List.mem_cons.mp he with rfl | he
  · rfl
  · exact hs.ioLocked e he hby

/-- Whether `LOCK` is taken makes no difference to what outside events do. -/
theorem OutsideOnly.setLock {s t : State} (h : OutsideOnly s t) (l : Bool) : OutsideOnly (s.setLock l) (t.setLock l) :=
  { h with lock := rfl }

/-- The inside of a pair, once `LOCK` is released. -/
theorem KeepsPorts.insidePair {b : BitVec 8} {d : BitVec 5} {f : BitVec 3} {r : BitVec 8} {s u : State}
    (hu : OutsideOnly (Machine.openPair (camEnc s.cam b d f r) s).nextMids u) : KeepsPorts s (u.setLock false) :=
  (KeepsPorts.openPair b d f r s).trans (hu.setLock false).keepsPorts

/-- A pair that completes: its data-port operation, too, is issued under `LOCK`. -/
theorem KeepsPorts.completedPair {b : BitVec 8} {d : BitVec 5} {f : BitVec 3} {r : BitVec 8} {s u : State}
    (hu : OutsideOnly (Machine.openPair (camEnc s.cam b d f r) s).nextMids u) (op : PortOp) (cs : List Change) :
    KeepsPorts s ((u.afterData .accessor op cs).setLock false) := by
  refine (KeepsPorts.insidePair hu).trans ⟨rfl, fun h => ⟨rfl, Memory.change_wf h.memory cs, h.ports, h.camReserved,
    fun e he hby => ?_⟩⟩
  rcases List.mem_cons.mp he with rfl | he
  · exact hu.lock
  · exact h.ioLocked e he hby

/-- A pair that a reset abandons. -/
theorem KeepsPorts.abandonedPair {b : BitVec 8} {d : BitVec 5} {f : BitVec 3} {r : BitVec 8} {s u : State}
    (hu : OutsideOnly (Machine.openPair (camEnc s.cam b d f r) s).nextMids u) : KeepsPorts s u.blockReset :=
  (KeepsPorts.insidePair hu).trans (.of_eq (fun _ => rfl) rfl rfl rfl rfl)

theorem CommandCase.keepsPorts {s t : State} (h : CommandCase s t) : KeepsPorts s t := by
  cases h with
  | held h => exact h ▸ .refl s
  | accessed b d f r u op cs resp hu h => exact h ▸ (KeepsPorts.completedPair hu op cs).trans (.of_eq id rfl rfl rfl rfl)
  | abandoned b d f r u hu h => exact h ▸ .abandonedPair hu
  | decodes a hseq h => exact h ▸ .of_eq id rfl rfl rfl rfl
  | scans hseq h => exact h ▸ .of_eq id rfl rfl rfl rfl

theorem load_keepsPorts {o : BitVec 8} {k : Fin 16} {s t : State} (h : load o k s = .next t) : KeepsPorts s t := by
  rcases load_next h with ⟨-, rfl⟩ | ⟨-, u, hu, rfl | rfl⟩
  · exact .refl _
  · exact (KeepsPorts.completedPair hu _ _).trans (.of_eq id rfl rfl rfl rfl)
  · exact .abandonedPair hu

theorem conclude_keepsPorts {s t : State} (hseq : s.seq ≠ .idle) (h : conclude s = .next t) : KeepsPorts s t := by
  obtain ⟨r, -, ⟨-, rfl⟩ | ⟨-, rfl⟩⟩ := conclude_cases hseq h
  · exact .of_eq id rfl rfl rfl rfl
  · exact .scanStep r s

theorem TurnCase.keepsPorts {s t : State} (h : TurnCase s t) : KeepsPorts s t := by
  cases h with
  | waits h => exact h ▸ .refl s
  | outside h => exact h.keepsPorts
  | wasReset h => exact h ▸ .blockReset s
  | load row k hrow hseq hlock hkey hdec h => exact load_keepsPorts h
  | closes hseq hkey h => exact conclude_keepsPorts hseq h
  | command n i rest hdec hacc h =>
    have hacc' : KeepsPorts s (s.accept n rest) := .of_eq id rfl rfl rfl rfl
    exact hacc'.trans (command_cases hdec h).keepsPorts

/-- Every step keeps the parameters and the clauses on the ports. -/
theorem step_keepsPorts {s t : State} (h : step s = .next t) : KeepsPorts s t := by
  rcases step_cases h with rfl | ⟨s0, rfl | rfl | rfl, ht⟩
  · exact .refl _
  · exact ht.keepsPorts
  · have h0 : KeepsPorts s s.nextTurn := .of_eq id rfl rfl rfl rfl
    exact h0.trans ht.keepsPorts
  · have h0 : KeepsPorts s s.nextDraw := .of_eq id rfl rfl rfl rfl
    exact h0.trans ht.keepsPorts

/-- Settles O59: the parameters are kept by every case of a step. -/
theorem platformParametersStayFixed : Obligations.PlatformParametersStayFixed := by
  unfold Obligations.PlatformParametersStayFixed
  exact fun s t h => (step_keepsPorts h).cam

/-! ### The order of the loads -/

/-- A decode that has loaded nothing yet. -/
theorem loadedInOrder_of_empty {s : State} (h : s.rawv = 0) : s.loadedInOrder :=
  ⟨0, by omega, by simpa [loadedMask] using h, fun h => absurd h (by omega)⟩

/-- With the identifier loaded and the function present, the next key is for the first unloaded latch after the identifier's. -/
theorem nextKey_of_present {s : State} {key : Key} (hp : s.present? = some true) (h : s.nextKey = some key) :
    ∃ code k, key = loadKey code k ∧
      s.firstUnloaded (([1, 2, 3] : List (Fin 16)) ++ groupLoads (codeOf s.raw[3])) = some k := by
  simp only [State.nextKey, hp, State.firstUnloaded] at h
  rw [State.firstUnloaded, List.find?_append]
  split at h
  · rename_i k hk
    exact ⟨0, k, (Option.some.inj h).symm, by simp only [hk]; rfl⟩
  · rename_i hk
    obtain ⟨k, hg, rfl⟩ := Option.map_eq_some_iff.mp h
    exact ⟨_, k, rfl, by simp only [hk, hg]; rfl⟩

/-- After the first n loads of an order, the next key is for its n-th latch, and after the first the function is present. -/
theorem nextKey_at_position {s : State} {n : Nat} {key : Key}
    (hv : s.rawv = loadedMask ((loadOrder (codeOf s.raw[3])).take n)) (h : s.nextKey = some key) :
    ∃ code k, key = loadKey code k ∧ (loadOrder (codeOf s.raw[3]))[n]? = some k ∧
      (1 ≤ n → presentOf s.raw[0] = true) := by
  cases n with
  | zero =>
    have hp : s.present? = none := by
      simp [State.present?, State.latch?, valid_of_loadedMask hv]
    simp only [State.nextKey, hp] at h
    exact ⟨0, 0, (Option.some.inj h).symm, rfl, fun h => absurd h (by omega)⟩
  | succ n =>
    have hp : s.present? = some (presentOf s.raw[0]) :=
      present_of_raw (by simp [valid_of_loadedMask hv, loadOrder])
    cases hpr : presentOf s.raw[0] with
    | false =>
      rw [hpr] at hp
      simp only [State.nextKey, hp] at h
      cases h
    | true =>
      rw [hpr] at hp
      obtain ⟨code, k, hkey, hk⟩ := nextKey_of_present hp h
      refine ⟨code, k, hkey, ?_, fun _ => rfl⟩
      rw [← firstUnloaded_eq (loadOrder_nodup _) hv [0] _ rfl (by simp)]
      exact hk

/-- The n-th load extends the order by its latch, also where it loads the header type, which selects the rest of the order. -/
theorem take_loadOrder_set {x : Vector Word 16} {n : Nat} {k : Fin 16} (hk : (loadOrder (codeOf x[3]))[n]? = some k)
    (v : Word) : (loadOrder (codeOf (x.set k v)[3])).take (n + 1) = (loadOrder (codeOf x[3])).take n ++ [k] := by
  have hsucc : (loadOrder (codeOf x[3])).take (n + 1) = (loadOrder (codeOf x[3])).take n ++ [k] := by
    rw [List.take_add_one, hk]
    rfl
  rw [← hsucc]
  by_cases h3 : k = 3
  · subst h3
    have hn : n = 3 := loadOrder_inj hk rfl
    exact take_loadOrder_common (by omega) _ _
  · rw [Vector.getElem_set_ne]
    exact fun e => h3 (Fin.ext e)

/-- A load after the first leaves the identifier as it is. -/
theorem getElem_zero_set_of_position {x : Vector Word 16} {n : Nat} {k : Fin 16} {c : BitVec 7}
    (hk : (loadOrder c)[n]? = some k) (hn : 1 ≤ n) (v : Word) : (x.set k v)[0] = x[0] := by
  rw [Vector.getElem_set_ne]
  intro e
  have hk0 : k = 0 := Fin.ext e
  subst hk0
  have := loadOrder_inj (m := 0) hk rfl
  omega

/-- The load the next key selects keeps the loads in order. -/
theorem loadedInOrder_latch {s t : State} {row : MicroOp} {key : Key} {v : Word} (hs : s.loadedInOrder)
    (hrow : row ∈ microOps) (hkey : s.nextKey = some key) (hdec : decodeKey key = .ok row.op)
    (hraw : t.raw = s.raw.set row.latch v) (hrawv : t.rawv = s.rawv ||| (1#16 <<< row.latch.val)) :
    t.loadedInOrder := by
  obtain ⟨n, -, hv, -⟩ := hs
  obtain ⟨code, k, rfl, hk, hp⟩ := nextKey_at_position hv hkey
  obtain rfl : row.latch = k := loadKey_latch hrow hdec
  have hn : n < (loadOrder (codeOf s.raw[3])).length := (List.getElem?_eq_some_iff.mp hk).1
  have hlen := (loadOrder_length (codeOf s.raw[3])).2
  refine ⟨n + 1, by omega, ?_, fun h => ?_⟩
  · rw [hrawv, hv, hraw, take_loadOrder_set hk, loadedMask_append]
  · have h1 : 1 ≤ n := by omega
    rw [hraw, getElem_zero_set_of_position hk h1]
    exact hp h1

/-! ### The decoder and the enumerator -/

/-- The clauses of the invariant on the state of the decoder and the enumerator. -/
structure State.SequencerInv (s : State) : Prop where
  target : s.seq = .enumerating → s.tgt = s.scan
  scanAtRest : s.seq ≠ .enumerating → s.scan = 0
  probed : s.seq = .enumerating → fnOf s.scan ≠ 0 → s.mf = true
  loads : s.loadedInOrder

/-- The invariant is its clauses on the ports and its clauses on the sequencer. -/
theorem State.inv_iff (s : State) : s.Inv ↔ s.PortsInv ∧ s.SequencerInv :=
  ⟨fun ⟨h1, h2, h3, h4, h5, h6, h7, h8, h9⟩ => ⟨⟨h1, h2, h3, h4, h9⟩, ⟨h5, h6, h7, h8⟩⟩,
    fun ⟨⟨h1, h2, h3, h4, h9⟩, ⟨h5, h6, h7, h8⟩⟩ => ⟨h1, h2, h3, h4, h5, h6, h7, h8, h9⟩⟩

/-- The clauses on the sequencer speak of these six fields only. -/
theorem State.SequencerInv.congr {s t : State} (h : s.SequencerInv) (hseq : t.seq = s.seq) (htgt : t.tgt = s.tgt)
    (hscan : t.scan = s.scan) (hmf : t.mf = s.mf) (hraw : t.raw = s.raw) (hrawv : t.rawv = s.rawv) :
    t.SequencerInv where
  target := by rw [hseq, htgt, hscan]; exact h.target
  scanAtRest := by rw [hseq, hscan]; exact h.scanAtRest
  probed := by rw [hseq, hscan, hmf]; exact h.probed
  loads := by unfold State.loadedInOrder; rw [hraw, hrawv]; exact h.loads

theorem State.SequencerInv.blockReset (s : State) : s.blockReset.SequencerInv :=
  ⟨nofun, fun _ => rfl, nofun, loadedInOrder_of_empty rfl⟩

theorem State.SequencerInv.outside {s t : State} (h : s.SequencerInv) (ht : OutsideOnly s t) : t.SequencerInv :=
  h.congr ht.seq ht.tgt ht.scan ht.mf ht.raw ht.rawv

/-- The inside of a pair. -/
theorem State.SequencerInv.insidePair {s u : State} {w : Word} (h : s.SequencerInv)
    (hu : OutsideOnly (openPair w s).nextMids u) : u.SequencerInv :=
  State.SequencerInv.outside (s := (openPair w s).nextMids) (h.congr rfl rfl rfl rfl rfl rfl) hu

theorem CommandCase.sequencerInv {s t : State} (h : CommandCase s t) (hs : s.SequencerInv) : t.SequencerInv := by
  cases h with
  | held h => exact h ▸ hs
  | accessed b d f r u op cs resp hu h => exact h ▸ (hs.insidePair hu).congr rfl rfl rfl rfl rfl rfl
  | abandoned b d f r u hu h => exact h ▸ .blockReset u
  | decodes a hseq h =>
    subst h
    exact ⟨nofun, fun _ => hs.scanAtRest (by simp [hseq]), nofun, loadedInOrder_of_empty rfl⟩
  | scans hseq h =>
    subst h
    exact ⟨fun _ => rfl, fun h => absurd rfl h, fun _ h => absurd rfl h, loadedInOrder_of_empty rfl⟩

/-- The load the next key selects. -/
theorem load_sequencerInv {s t : State} {row : MicroOp} {key : Key} (hs : s.SequencerInv) (hrow : row ∈ microOps)
    (hkey : s.nextKey = some key) (hdec : decodeKey key = .ok row.op)
    (h : load row.offset row.latch s = .next t) : t.SequencerInv := by
  rcases load_next h with ⟨-, rfl⟩ | ⟨-, u, hu, rfl | rfl⟩
  · exact hs
  · have hu' := hs.insidePair hu
    refine ⟨hu'.target, hu'.scanAtRest, hu'.probed, loadedInOrder_latch (v := u.dataPort) hs.loads hrow hkey hdec ?_ ?_⟩
    · exact congrArg (·.set row.latch u.dataPort) hu.raw
    · exact congrArg (· ||| (1#16 <<< row.latch.val)) hu.rawv
  · exact .blockReset u

/-- An advance of a scan that goes to a function 1 to 7 only with `MF` 1. -/
theorem advanceTo_sequencerInv {target : BitVec 17} {s : State} (hseq : s.seq = .enumerating) (hs : s.loadedInOrder)
    (hmf : fnOf (target.setWidth 16) ≠ 0 → s.mf = true) : (advanceTo target s).SequencerInv := by
  unfold advanceTo
  split
  · exact ⟨nofun, fun _ => rfl, nofun, hs⟩
  · exact ⟨fun _ => rfl, fun h => absurd hseq h, fun _ => hmf, loadedInOrder_of_empty rfl⟩

theorem conclude_sequencerInv {s t : State} (hs : s.SequencerInv) (hseq : s.seq ≠ .idle) (h : conclude s = .next t) :
    t.SequencerInv := by
  obtain ⟨r, -, ⟨hq, rfl⟩ | ⟨hq, rfl⟩⟩ := conclude_cases hseq h
  · exact ⟨nofun, fun _ => hs.scanAtRest (by simp [hq]), nofun, hs.loads⟩
  · obtain ⟨target, mf, out, heq, hmf⟩ := scanStep_eq_advanceTo r s
    rw [heq]
    exact advanceTo_sequencerInv hq hs.loads (hmf (hs.probed hq))

theorem TurnCase.sequencerInv {s t : State} (h : TurnCase s t) (hs : s.SequencerInv) : t.SequencerInv := by
  cases h with
  | waits h => exact h ▸ hs
  | outside h => exact hs.outside h
  | wasReset h => exact h ▸ .blockReset s
  | load row k hrow hseq hlock hkey hdec h => exact load_sequencerInv hs hrow hkey hdec h
  | closes hseq hkey h => exact conclude_sequencerInv hs hseq h
  | command n i rest hdec hacc h =>
    exact (command_cases hdec h).sequencerInv (hs.congr rfl rfl rfl rfl rfl rfl)

/-- Every step keeps the clauses on the sequencer. -/
theorem step_sequencerInv {s t : State} (hs : s.SequencerInv) (h : step s = .next t) : t.SequencerInv := by
  rcases step_cases h with rfl | ⟨s0, rfl | rfl | rfl, ht⟩
  · exact hs
  · exact ht.sequencerInv hs
  · exact ht.sequencerInv (hs.congr rfl rfl rfl rfl rfl rfl)
  · exact ht.sequencerInv (hs.congr rfl rfl rfl rfl rfl rfl)

/-- Settles O48: a step keeps the clauses on the ports and the clauses on the sequencer, each by the cases of a turn. -/
theorem stepKeepsTheInvariant : Obligations.StepKeepsTheInvariant := by
  unfold Obligations.StepKeepsTheInvariant
  intro s t hs h
  obtain ⟨hports, hseq⟩ := s.inv_iff.mp hs
  exact t.inv_iff.mpr ⟨(step_keepsPorts h).inv hports, step_sequencerInv hseq h⟩

/-! ### The fields of the address word -/

/-- A field below bit 24 of an encoded word is that of the effective address (40_accessor.md R121, R127). -/
theorem camEnc_extractLsb' (c : CamParams) (b : BitVec 8) (d : BitVec 5) (f : BitVec 3) (r : BitVec 8) {start len : Nat}
    (h : start + len ≤ 24) :
    (camEnc c b d f r).extractLsb' start len = (effectiveAddr b d f r).extractLsb' start len := by
  apply BitVec.eq_of_getLsbD_eq
  intro i hi
  have hlt : start + i < 24 := by omega
  rw [BitVec.getLsbD_extractLsb', BitVec.getLsbD_extractLsb', camEnc_getLsbD, if_pos hlt]

/-- The fields of an effective address; its register field has the low two bits clear and the others of the offset. -/
theorem effectiveAddr_fields (b : BitVec 8) (d : BitVec 5) (f : BitVec 3) (r : BitVec 8) :
    (effectiveAddr b d f r).extractLsb' 16 8 = b ∧ (effectiveAddr b d f r).extractLsb' 11 5 = d ∧
      (effectiveAddr b d f r).extractLsb' 8 3 = f ∧ (effectiveAddr b d f r).extractLsb' 0 8 = r &&& 0xFC#8 ∧
      (effectiveAddr b d f r).extractLsb' 2 6 = r.extractLsb' 2 6 ∧
      (effectiveAddr b d f r).extractLsb' 0 2 = 0#2 := by
  refine ⟨?_, ?_, ?_, ?_, ?_, ?_⟩ <;>
  · apply BitVec.eq_of_getLsbD_eq
    intro i hi
    simp only [effectiveAddr, cfgAddr, BitVec.getLsbD_extractLsb', BitVec.getLsbD_append]
    interval_cases i <;> simp

/-- Of the bits of an encoded word above `bus`, `CAM_ENABLE` alone is set (30_encoding.md R90, R102). -/
theorem camEnc_high (c : CamParams) (b : BitVec 8) (d : BitVec 5) (f : BitVec 3) (r : BitVec 8) :
    camEnc c b d f r &&& 0xFF000000#32 = camEnable c := by
  apply BitVec.eq_of_getLsbD_eq
  intro i hi
  rw [BitVec.getLsbD_and, camEnc_getLsbD]
  split
  · rw [camEnable_low c ‹_›]
    interval_cases i <;> simp
  · have hmask : (0xFF000000#32).getLsbD i = true := by interval_cases i <;> rfl
    rw [camEnable_getLsbD, hmask, Bool.and_true]

/-- `CAMDEC` reads back what `CAMENC` wrote, the offset with its low two bits cleared (40_accessor.md R122). -/
theorem camDec_camEnc (c : CamParams) (b : BitVec 8) (d : BitVec 5) (f : BitVec 3) (r : BitVec 8) :
    camDec c (camEnc c b d f r) = ⟨true, b, d, f, r &&& 0xFC#8⟩ := by
  have hen := camDec_camEnc_en c b d f r
  obtain ⟨hbus, hdev, hfn, hreg, -, -⟩ := effectiveAddr_fields b d f r
  have hfield := fun start len => camEnc_extractLsb' c b d f r (start := start) (len := len)
  simp only [camDec] at hen ⊢
  rw [hen, hfield 16 8 (by omega), hfield 11 5 (by omega), hfield 8 3 (by omega), hfield 0 8 (by omega), hbus, hdev, hfn,
    hreg, BitVec.and_assoc, BitVec.and_self]

/-- Words that agree under a mask agree in every bit the mask has. -/
theorem getLsbD_eq_of_and_eq {n : Nat} {w w' m : BitVec n} (h : w &&& m = w' &&& m) {i : Nat}
    (hi : m.getLsbD i = true) : w.getLsbD i = w'.getLsbD i := by
  simpa [hi] using congrArg (·.getLsbD i) h

/-- `CAMDEC` looks at `CAM_ENABLE` and at bits 23:2 alone (40_accessor.md R122). -/
theorem camDec_congr {c : CamParams} {w w' : Word}
    (h : w &&& (camEnable c ||| 0x00FFFFFC#32) = w' &&& (camEnable c ||| 0x00FFFFFC#32)) : camDec c w = camDec c w' := by
  have hen : w.getLsbD (24 + c.enableAt.val) = w'.getLsbD (24 + c.enableAt.val) :=
    getLsbD_eq_of_and_eq h (by simp [camEnable_getLsbD])
  have hbit : ∀ i, 2 ≤ i → i < 24 → w.getLsbD i = w'.getLsbD i := fun i h2 h24 =>
    getLsbD_eq_of_and_eq h (by rw [BitVec.getLsbD_or]; interval_cases i <;> simp)
  have hfield : ∀ start len, 2 ≤ start → start + len ≤ 24 → w.extractLsb' start len = w'.extractLsb' start len := by
    intro start len h2 h24
    apply BitVec.eq_of_getLsbD_eq
    intro i hi
    rw [BitVec.getLsbD_extractLsb', BitVec.getLsbD_extractLsb', hbit (start + i) (by omega) (by omega)]
  have hreg : w.extractLsb' 0 8 &&& 0xFC#8 = w'.extractLsb' 0 8 &&& 0xFC#8 := by
    apply BitVec.eq_of_getLsbD_eq
    intro i hi
    rw [BitVec.getLsbD_and, BitVec.getLsbD_and, BitVec.getLsbD_extractLsb', BitVec.getLsbD_extractLsb', Nat.zero_add]
    by_cases h2 : 2 ≤ i
    · rw [hbit i h2 (by omega)]
    · have hmask : (0xFC#8).getLsbD i = false := by interval_cases i <;> rfl
      rw [hmask, Bool.and_false, Bool.and_false]
  simp only [camDec, hen, hreg, hfield 16 8 (by omega) (by omega), hfield 11 5 (by omega) (by omega),
    hfield 8 3 (by omega) (by omega)]

/-- Settles O7: the fields of the encoded word, their reading back, the bits `CAMDEC` looks at, and the default enable bit. -/
theorem addressWordFields : Obligations.AddressWordFields := by
  unfold Obligations.AddressWordFields
  refine ⟨fun c b d f r => ?_, fun c w w' => camDec_congr, by decide⟩
  obtain ⟨hbus, hdev, hfn, -, hreg, hlow⟩ := effectiveAddr_fields b d f r
  have hfield := fun start len => camEnc_extractLsb' c b d f r (start := start) (len := len)
  exact ⟨camEnc_high c b d f r, (hfield 16 8 (by omega)).trans hbus, (hfield 11 5 (by omega)).trans hdev,
    (hfield 8 3 (by omega)).trans hfn, (hfield 2 6 (by omega)).trans hreg, (hfield 0 2 (by omega)).trans hlow,
    camDec_camEnc c b d f r⟩

end Sys2Proof.Machine

/-! The state family (10_state.md): what a change of configuration bytes, an access and a caller's turn leave alone; record
assembly against the valid latches; the two advances of `SCAN`; the state after reset; the step of a scheduled command. -/

namespace Sys2Proof.Machine

/-! ### Configuration space -/

/-- Settles O12: canonical form, the bytes no change names, and the last change of a byte, each by its law of memory. -/
theorem deviceChangesTouchOnlyTheirBytes : Obligations.DeviceChangesTouchOnlyTheirBytes := by
  unfold Obligations.DeviceChangesTouchOnlyTheirBytes
  intro m cs y hm
  refine ⟨Memory.change_wf hm cs, Memory.get?_change_other hm, ?_⟩
  rintro before after v rfl hafter
  exact Memory.get?_change_last hm before after hafter

/-! ### Accesses that no reset falls into -/

/-- Events outside the block reset it only if the reset input is among them. -/
theorem reset_mem_of_interlude_wasReset {es : List OutsideEvent} {s t : State} (h : interlude es s = .wasReset t) :
    OutsideEvent.reset ∈ es := by
  induction es generalizing s with
  | nil => cases h
  | cons e es ih =>
    simp only [interlude] at h
    cases he : outsideEvent e s with
    | goOn s' =>
      rw [he] at h
      exact List.mem_cons_of_mem e (ih h)
    | wasReset s' =>
      rw [(outsideEvent_wasReset he).1]
      exact List.mem_cons_self
    | refused r =>
      rw [he] at h
      cases h

/-- A read pair is abandoned only where the reset input comes between its halves (70_reset_and_hazards.md R234). -/
theorem reset_mem_of_readPair_abandoned {w : Word} {s t : State} (h : readPair w s = .abandoned t) :
    OutsideEvent.reset ∈ s.mids.headD [] := by
  unfold readPair at h
  split at h
  · exact reset_mem_of_interlude_wasReset ‹_›
  · cases h
  · split at h <;> cases h

/-- A write pair is abandoned only where the reset input comes between its halves (70_reset_and_hazards.md R234). -/
theorem reset_mem_of_writePair_abandoned {w v : Word} {s t : State} (h : writePair w v s = .abandoned t) :
    OutsideEvent.reset ∈ s.mids.headD [] := by
  unfold writePair at h
  split at h
  · exact reset_mem_of_interlude_wasReset ‹_›
  · cases h
  · split at h <;> cases h

/-- From `s` to `t` the state of the decoder and the enumerator and what passed on REC stay, and no pair is left open. -/
structure KeepsSequencer (s t : State) : Prop where
  lock : t.lock = s.lock
  seq : t.seq = s.seq
  tgt : t.tgt = s.tgt
  raw : t.raw = s.raw
  rawv : t.rawv = s.rawv
  scan : t.scan = s.scan
  mf : t.mf = s.mf
  recOut : t.recOut = s.recOut

/-- From `s` to `t` everything an access has no business with stays. -/
structure AccessFrame (s t : State) : Prop extends KeepsSequencer s t where
  cam : t.cam = s.cam
  background : t.background = s.background
  callers : t.callers = s.callers
  turns : t.turns = s.turns
  issuer : t.issuer = s.issuer

theorem AccessFrame.refl (s : State) : AccessFrame s s :=
  ⟨⟨rfl, rfl, rfl, rfl, rfl, rfl, rfl, rfl⟩, rfl, rfl, rfl, rfl, rfl⟩

/-- A completed pair, with its response sent, keeps the frame of an access. -/
theorem AccessFrame.completedPair {s u : State} {w : Word} (hlock : s.lock = false)
    (hu : OutsideOnly (openPair w s).nextMids u) (op : PortOp) (cs : List Change) (resp : Response) :
    AccessFrame s (((u.afterData .accessor op cs).setLock false).respond resp) where
  lock := hlock.symm
  seq := hu.seq
  tgt := hu.tgt
  raw := hu.raw
  rawv := hu.rawv
  scan := hu.scan
  mf := hu.mf
  recOut := hu.recOut
  cam := hu.cam
  background := hu.background
  callers := hu.callers
  turns := hu.turns
  issuer := hu.issuer

/-- The response of a completed pair is put on RSP, to the issuer, before everything that passed there. -/
theorem rspOut_completedPair {s u : State} {w : Word} (hu : OutsideOnly (openPair w s).nextMids u) (op : PortOp)
    (cs : List Change) (resp : Response) :
    (((u.afterData .accessor op cs).setLock false).respond resp).rspOut = (s.issuer, resp) :: s.rspOut := by
  simp [hu.issuer, hu.rspOut, openPair]

/-- A `CFGRD` with no reset inside its pair is held, or keeps its frame and answers one value on RSP. -/
theorem execCfgrd_frame {b : BitVec 8} {d : BitVec 5} {f : BitVec 3} {r : BitVec 8} {s t : State}
    (hr : OutsideEvent.reset ∉ s.mids.headD []) (h : execCfgrd b d f r s = .next t) :
    (s.lock = true ∧ t = s) ∨
      (s.lock = false ∧ AccessFrame s t ∧ ∃ x, t.rspOut = (s.issuer, .value x) :: s.rspOut) := by
  rcases withPair_next h with hheld | ⟨hlock, ⟨v, u, hp, rfl⟩ | hp⟩
  · exact .inl hheld
  · obtain ⟨u', hu, -, -, rfl⟩ := readPair_completed hp
    exact .inr ⟨hlock, .completedPair hlock hu _ _ _, v, rspOut_completedPair hu _ _ _⟩
  · exact absurd (reset_mem_of_readPair_abandoned hp) hr

/-- A `CFGWR` with no reset inside its pair is held, or keeps its frame and answers completion on RSP. -/
theorem execCfgwr_frame {b : BitVec 8} {d : BitVec 5} {f : BitVec 3} {r : BitVec 8} {v : Word} {s t : State}
    (hr : OutsideEvent.reset ∉ s.mids.headD []) (h : execCfgwr b d f r v s = .next t) :
    (s.lock = true ∧ t = s) ∨
      (s.lock = false ∧ AccessFrame s t ∧ t.rspOut = (s.issuer, .completion) :: s.rspOut) := by
  rcases withPair_next h with hheld | ⟨hlock, ⟨x, u, hp, rfl⟩ | hp⟩
  · exact .inl hheld
  · obtain ⟨u', hu, -, rfl⟩ := writePair_completed hp
    exact .inr ⟨hlock, .completedPair hlock hu _ _ _, rspOut_completedPair hu _ _ _⟩
  · exact absurd (reset_mem_of_writePair_abandoned hp) hr

/-- Either access, with no reset inside its pair, keeps its frame; while `LOCK` is 1 nothing passes on RSP. -/
theorem access_frame {b : BitVec 8} {d : BitVec 5} {f : BitVec 3} {r : BitVec 8} {v : Word} {s t : State}
    (hr : OutsideEvent.reset ∉ s.mids.headD [])
    (h : exec (.cfgrd b d f r) s = .next t ∨ exec (.cfgwr b d f r v) s = .next t) :
    AccessFrame s t ∧ (s.lock = true → t.rspOut = s.rspOut) := by
  have hcases : (s.lock = true ∧ t = s) ∨ (s.lock = false ∧ AccessFrame s t) := by
    rcases h with h | h
    · exact (execCfgrd_frame hr h).imp_right fun ⟨hlock, hframe, _⟩ => ⟨hlock, hframe⟩
    · exact (execCfgwr_frame hr h).imp_right fun ⟨hlock, hframe, _⟩ => ⟨hlock, hframe⟩
  rcases hcases with ⟨-, rfl⟩ | ⟨hlock, hframe⟩
  · exact ⟨.refl t, fun _ => rfl⟩
  · exact ⟨hframe, fun hheld => by simp [hlock] at hheld⟩

/-- Settles O17: the frame of either access, and the response of the one that was executed. -/
theorem accessorCommandsLeaveTheSequencerAlone : Obligations.AccessorCommandsLeaveTheSequencerAlone := by
  unfold Obligations.AccessorCommandsLeaveTheSequencerAlone
  intro s t b d f r v hr h
  obtain ⟨hframe, hheld⟩ := access_frame hr h
  refine ⟨hframe.lock, hframe.seq, hframe.tgt, hframe.raw, hframe.rawv, hframe.scan, hframe.mf, hframe.cam,
    hframe.background, hframe.recOut, hframe.callers, hframe.turns, hframe.issuer, hheld, ?_, ?_⟩
  · intro hlock hrd
    rcases execCfgrd_frame hr hrd with ⟨hlock', -⟩ | ⟨-, -, hrsp⟩
    · simp [hlock] at hlock'
    · exact hrsp
  · intro hlock hwr
    rcases execCfgwr_frame hr hwr with ⟨hlock', -⟩ | ⟨-, -, hrsp⟩
    · simp [hlock] at hlock'
    · exact hrsp

/-! ### A caller's turn -/

@[simp] theorem accepts_cfgrd (b : BitVec 8) (d : BitVec 5) (f : BitVec 3) (r : BitVec 8) (s : State) :
    accepts (.cfgrd b d f r) s = !s.lock := rfl

@[simp] theorem accepts_cfgwr (b : BitVec 8) (d : BitVec 5) (f : BitVec 3) (r : BitVec 8) (v : Word) (s : State) :
    accepts (.cfgwr b d f r v) s = !s.lock := rfl

@[simp] theorem accepts_decode (b : BitVec 8) (d : BitVec 5) (f : BitVec 3) (s : State) :
    accepts (.decode b d f) s = (s.seq == .idle) := rfl

@[simp] theorem accepts_enum (s : State) : accepts .enum s = (s.seq == .idle) := rfl

/-- A caller's turn that answers a next state does nothing, or runs the accepted command at the head of its queue. -/
theorem callerTurn_next {n : Nat} {s t : State} (h : callerTurn n s = .next t) :
    t = s ∨ ∃ i rest, decodeCmd (s.queue n) = .ok (i, rest) ∧ accepts i s = true ∧
      exec i (s.accept n rest) = .next t := by
  unfold callerTurn at h
  split at h
  · cases h
    exact .inl rfl
  · cases h
    exact .inl rfl
  · cases h
  · rename_i i rest hdec
    split at h
    · exact .inr ⟨i, rest, hdec, ‹_›, h⟩
    · cases h
      exact .inl rfl

/-- Accepting a command consumes words only: what is kept from there on is kept from the state before. -/
theorem KeepsSequencer.of_accept {n : Nat} {rest : List Word} {s t : State} (h : KeepsSequencer (s.accept n rest) t) :
    KeepsSequencer s t :=
  { h with }

/-- Settles O53: while `SEQ` is not IDLE the command that a caller's turn runs can only be an access, and that keeps its
frame. -/
theorem callersCannotDisturbARunningCommand : Obligations.CallersCannotDisturbARunningCommand := by
  unfold Obligations.CallersCannotDisturbARunningCommand
  intro s t n hseq hr h
  have hkeep : KeepsSequencer s t := by
    rcases callerTurn_next h with rfl | ⟨i, rest, hdec, hacc, hexec⟩
    · exact (AccessFrame.refl t).toKeepsSequencer
    · rcases decodeCmd_ok hdec with ⟨b, d, f, r, rfl⟩ | ⟨b, d, f, r, v, rfl⟩ | ⟨b, d, f, rfl⟩ | rfl
      · obtain ⟨hframe, -⟩ := access_frame (s := s.accept n rest) (v := 0) hr (.inl hexec)
        exact .of_accept hframe.toKeepsSequencer
      · obtain ⟨hframe, -⟩ := access_frame (s := s.accept n rest) hr (.inr hexec)
        exact .of_accept hframe.toKeepsSequencer
      · exact absurd (by simpa using hacc) hseq
      · exact absurd (by simpa using hacc) hseq
  obtain ⟨hlock, hseq', htgt, hraw, hrawv, hscan, hmf, hrec⟩ := hkeep
  exact ⟨hlock, hseq', htgt, hraw, hrawv, hscan, hmf, hrec⟩

/-! ### The step of a scheduled command -/

/-- A scheduled turn is the one the step takes, on the state with that turn used up (20_memory.md R77; log 9). -/
theorem step_scheduled {s : State} {turn : Turn} {ts : List Turn} (h : s.turns = turn :: ts) :
    step s = takeTurn turn { s with turns := ts } := by
  have hnext : s.nextTurn = { s with turns := ts } := by rw [State.nextTurn, h]; rfl
  have hchoose : chooseTurn s = some (turn, s.nextTurn) := by simp only [chooseTurn, h]
  simp only [step, hchoose, hnext]

/-- The turn of a caller whose command is accepted is that command's meaning, with its words consumed. -/
theorem callerTurn_of_accepts {n : Nat} {s : State} {i : Instr} {rest : List Word}
    (hdec : decodeCmd (s.queue n) = .ok (i, rest)) (hacc : accepts i s = true) :
    callerTurn n s = exec i (s.accept n rest) := by
  simp only [callerTurn, hdec, if_pos hacc]

/-- A command is accepted where `DECODE` and `ENUM` find `SEQ` IDLE (10_state.md R22) and an access finds `LOCK` 0
(20_memory.md R79). -/
theorem accepts_command {ws rest : List Word} {i : Instr} {s : State} (hdec : decodeCmd ws = .ok (i, rest))
    (hidle : ((∃ b d f, i = .decode b d f) ∨ i = .enum) → s.seq = .idle)
    (hlock : ((∃ b d f r, i = .cfgrd b d f r) ∨ ∃ b d f r v, i = .cfgwr b d f r v) → s.lock = false) :
    accepts i s = true := by
  rcases decodeCmd_ok hdec with ⟨b, d, f, r, rfl⟩ | ⟨b, d, f, r, v, rfl⟩ | ⟨b, d, f, rfl⟩ | rfl
  · simp [hlock (.inl ⟨b, d, f, r, rfl⟩)]
  · simp [hlock (.inr ⟨b, d, f, r, v, rfl⟩)]
  · simp [hidle (.inl ⟨b, d, f, rfl⟩)]
  · simp [hidle (.inr rfl)]

/-- Settles O54: the step takes the caller's turn, and that turn runs the accepted command. -/
theorem stepRunsTheDecodedCommand : Obligations.StepRunsTheDecodedCommand := by
  unfold Obligations.StepRunsTheDecodedCommand
  intro s n ts i rest hturns hdec hidle hlock
  rw [step_scheduled hturns]
  exact callerTurn_of_accepts (s := { s with turns := ts }) hdec (accepts_command hdec hidle hlock)

/-! ### Record assembly -/

/-- Record assembly faults at the first latch of the layout that holds no value (10_state.md R24). -/
theorem assembleLatched_of_unloaded {s : State} {k : Fin 16}
    (h : s.firstUnloaded (loadOrder (codeOf s.raw[3])) = some k) : assembleLatched s = .error (.invalidLatch k) := by
  rw [loadOrder, ← groupLatches_eq, State.firstUnloaded] at h
  simp only [assembleLatched, h]

/-- Record assembly gives the record where every latch of the layout holds a value (41_decoder.md R185). -/
theorem assembleLatched_of_loaded {s : State} (h : s.firstUnloaded (loadOrder (codeOf s.raw[3])) = none) :
    assembleLatched s = .ok (assemble s.tgt s.raw (codeOf s.raw[3]) (mfRecOf s.raw[3])) := by
  rw [loadOrder, ← groupLatches_eq, State.firstUnloaded] at h
  simp only [assembleLatched, h]

/-- No latch of a list is unloaded exactly when all of them are valid. -/
theorem firstUnloaded_eq_none {s : State} {ks : List (Fin 16)} :
    s.firstUnloaded ks = none ↔ ∀ k ∈ ks, s.valid k = true := by
  simp [State.firstUnloaded]

/-- Settles O37: whether the layout's first unloaded latch exists decides between the fault and the record. -/
theorem invalidLatchesFault : Obligations.InvalidLatchesFault := by
  unfold Obligations.InvalidLatchesFault
  intro s
  refine ⟨?_, fun hall => assembleLatched_of_loaded (firstUnloaded_eq_none.mpr hall)⟩
  rintro ⟨k, hk, hinvalid⟩
  cases hfirst : s.firstUnloaded (loadOrder (codeOf s.raw[3])) with
  | none =>
    have hvalid := firstUnloaded_eq_none.mp hfirst k hk
    simp [hinvalid] at hvalid
  | some j =>
    have hj : s.valid j = false := by simpa using List.find?_some hfirst
    exact ⟨j, hj, assembleLatched_of_unloaded hfirst⟩

/-! ### The advances of `SCAN` -/

theorem nextFunctionOf_toNat (a : FnAddr) : (nextFunctionOf a).toNat = a.toNat + 1 := by
  have ha := a.isLt
  simp only [nextFunctionOf, BitVec.zeroExtend, BitVec.toNat_add, BitVec.toNat_setWidth, BitVec.toNat_ofNat]
  omega

theorem nextDeviceOf_toNat (a : FnAddr) : (nextDeviceOf a).toNat = 8 * (a.toNat / 8 + 1) := by
  have ha := a.isLt
  simp only [nextDeviceOf, BitVec.zeroExtend, BitVec.toNat_add, BitVec.toNat_setWidth, BitVec.toNat_ofNat,
    deviceMask_toNat]
  omega

/-- Device 31 of bus 255, the last of the scan, is where the address is 0xFFF8 or more. -/
theorem lastDevice_iff (a : FnAddr) : busOf a = 255 ∧ devOf a = 31 ↔ 0xFFF8 ≤ a.toNat := by
  have ha := a.isLt
  rw [← BitVec.toNat_inj, ← BitVec.toNat_inj, busOf_toNat, devOf_toNat]
  simp only [BitVec.toNat_ofNat, BitVec.ofNat_eq_ofNat]
  omega

/-- Settles O39: both advances as numbers, and their carries as bounds on those numbers. -/
theorem scanAdvancesByFunctionOrDevice : Obligations.ScanAdvancesByFunctionOrDevice := by
  unfold Obligations.ScanAdvancesByFunctionOrDevice
  intro a
  have ha := a.isLt
  refine ⟨nextFunctionOf_toNat a, nextDeviceOf_toNat a, ?_, ?_⟩
  · rw [carry_iff, nextFunctionOf_toNat, ← BitVec.toNat_inj]
    simp only [BitVec.toNat_ofNat]
    omega
  · rw [carry_iff, nextDeviceOf_toNat, lastDevice_iff]
    omega

/-! ### Reset -/

theorem State.reset_portsInv : State.reset.PortsInv where
  unlocked := rfl
  memory := Memory.reset_wf
  ports := by decide
  camReserved := by decide
  ioLocked := nofun

theorem State.reset_sequencerInv : State.reset.SequencerInv where
  target := nofun
  scanAtRest _ := rfl
  probed := nofun
  loads := loadedInOrder_of_empty rfl

/-- Settles O49: the clauses on the ports and the clauses on the sequencer, both right after reset. -/
theorem resetMeetsTheInvariant : Obligations.ResetMeetsTheInvariant := by
  unfold Obligations.ResetMeetsTheInvariant
  exact State.reset.inv_iff.mpr ⟨State.reset_portsInv, State.reset_sequencerInv⟩

/-- Settles O57: the reset values as `State.reset` writes them (10_state.md R20). -/
theorem resetStateAsGiven : Obligations.ResetStateAsGiven := by
  unfold Obligations.ResetStateAsGiven
  exact ⟨rfl, rfl, rfl, rfl, rfl, rfl, rfl, rfl⟩

end Sys2Proof.Machine

/-! The memory family (20_memory.md): the bytes and halves of a dword, the sentinel of a missing function, the whole of a pair
whose data-port operation is reached (undisturbed, or broken by another context), and the port operations that are refused. -/

namespace Sys2Proof.Machine

/-! ### The dword at an address -/

/-- Half j of a word put together from bytes, the lower-addressed byte the less significant (20_memory.md R63). -/
theorem halfOf_wordOfBytes (b0 b1 b2 b3 : Byte) :
    halfOf (wordOfBytes b0 b1 b2 b3) 0 = b1 ++ b0 ∧ halfOf (wordOfBytes b0 b1 b2 b3) 1 = b3 ++ b2 := by
  constructor <;>
  · apply BitVec.eq_of_getLsbD_eq
    intro i hi
    simp only [halfOf, wordOfBytes, BitVec.getLsbD_append, BitVec.getLsbD_extractLsb']
    interval_cases i <;> simp

theorem byteOf_dwordAt (m : Memory) (bg : Option Byte) (n : Nat) (x : CfgAddr) {j : Nat} (hj : j < 4) :
    byteOf (m.dwordAt bg n x) j = m.byteAt bg n (x + BitVec.ofNat 24 j) := by
  obtain ⟨h0, h1, h2, h3⟩ := byteOf_wordOfBytes (m.byteAt bg n x) (m.byteAt bg n (x + 1)) (m.byteAt bg n (x + 2))
    (m.byteAt bg n (x + 3))
  match j, hj with
  | 0, _ => exact h0.trans (congrArg _ (BitVec.add_zero x).symm)
  | 1, _ => exact h1
  | 2, _ => exact h2
  | 3, _ => exact h3

theorem halfOf_dwordAt (m : Memory) (bg : Option Byte) (n : Nat) (x : CfgAddr) {j : Nat} (hj : j < 2) :
    halfOf (m.dwordAt bg n x) j =
      m.byteAt bg n (x + BitVec.ofNat 24 (2 * j + 1)) ++ m.byteAt bg n (x + BitVec.ofNat 24 (2 * j)) := by
  obtain ⟨h0, h1⟩ := halfOf_wordOfBytes (m.byteAt bg n x) (m.byteAt bg n (x + 1)) (m.byteAt bg n (x + 2))
    (m.byteAt bg n (x + 3))
  match j, hj with
  | 0, _ => exact h0.trans (by rw [BitVec.add_zero]; rfl)
  | 1, _ => exact h1

/-- Where the environment fixes what an unlisted byte reads as, the draw does not matter. -/
theorem Memory.dwordAt_draw (m : Memory) (b : Byte) (n n' : Nat) (x : CfgAddr) :
    m.dwordAt (some b) n x = m.dwordAt (some b) n' x := rfl

/-! ### A function that does not exist -/

theorem Memory.get?_of_missing {m : Memory} {a : FnAddr} (h : m.hasFunction a = false) {y : Nat}
    (hy : y / 256 = a.toNat) : m.get? y = none := by
  induction m with
  | nil => rfl
  | cons c m ih =>
    obtain ⟨x, b⟩ := c
    simp only [Memory.hasFunction, List.any_cons, Bool.or_eq_false_iff, beq_eq_false_iff_ne] at h
    obtain ⟨hx, hm⟩ := h
    have hne : x ≠ y := fun hxy => hx (hxy ▸ hy)
    simp only [Memory.get?, if_neg hne]
    exact ih hm

/-- The two low bytes of register 0x00 of a missing function (20_memory.md R74). -/
theorem Memory.byteAt_missing {m : Memory} {x : CfgAddr} (h : m.hasFunction (x.extractLsb' 8 16) = false)
    (hreg : x.extractLsb' 1 7 = 0#7) (bg : Option Byte) (n : Nat) : m.byteAt bg n x = 0xFF#8 := by
  have hfn : x.toNat / 256 = (x.extractLsb' 8 16).toNat := by
    rw [BitVec.extractLsb'_toNat, Nat.shiftRight_eq_div_pow]
    omega
  rw [Memory.byteAt, Memory.get?_of_missing h hfn, Option.getD_none, unlistedByte, if_pos ⟨hreg, h⟩]

/-- A configuration address is its function's address above its register offset. -/
theorem cfgAddr_fields (b : BitVec 8) (d : BitVec 5) (f : BitVec 3) (r : BitVec 8) :
    (cfgAddr b d f r).extractLsb' 8 16 = fnAddr b d f ∧ (cfgAddr b d f r).extractLsb' 1 7 = r.extractLsb' 1 7 := by
  constructor <;>
  · apply BitVec.eq_of_getLsbD_eq
    intro i hi
    simp only [cfgAddr, fnAddr, BitVec.getLsbD_append, BitVec.getLsbD_extractLsb']
    interval_cases i <;> simp

theorem cfgAddr_zero_add_one (b : BitVec 8) (d : BitVec 5) (f : BitVec 3) : cfgAddr b d f 0 + 1 = cfgAddr b d f 1 :=
  BitVec.append_zero_add_zero_append (x := b ++ d ++ f) (y := 1#8)

/-- Settles O11: the low half is the bytes at offsets 1 and 0, and both read 0xFF. -/
theorem missingFunctionAnswersTheSentinel : Obligations.MissingFunctionAnswersTheSentinel := by
  unfold Obligations.MissingFunctionAnswersTheSentinel
  intro m bg n b d f h
  have hbyte (r : BitVec 8) (hr : r.extractLsb' 1 7 = 0#7) : m.byteAt bg n (cfgAddr b d f r) = 0xFF#8 := by
    obtain ⟨hfn, hreg⟩ := cfgAddr_fields b d f r
    exact Memory.byteAt_missing (hfn ▸ h) (hreg.trans hr) bg n
  calc halfOf (m.dwordAt bg n (cfgAddr b d f 0)) 0
      = m.byteAt bg n (cfgAddr b d f 0 + 1) ++ m.byteAt bg n (cfgAddr b d f 0) := (halfOf_wordOfBytes ..).1
    _ = 0xFF#8 ++ 0xFF#8 := by rw [cfgAddr_zero_add_one, hbyte 0 rfl, hbyte 1 rfl]
    _ = 0xFFFF#16 := rfl

/-! ### A pair that reaches its data-port operation -/

theorem withPair_held {α : Type} (pair : State → PairResult α) (finish : α → State → State) {s : State}
    (h : s.lock = true) : withPair pair finish s = .next s := if_pos h

theorem withPair_of_completed {α : Type} {pair : State → PairResult α} (finish : α → State → State) {s u : State}
    {v : α} (hlock : s.lock = false) (h : pair s = .completed v u) : withPair pair finish s = .next (finish v u) := by
  rw [withPair, if_neg (by simp [hlock]), h]

/-- A read pair whose inside goes on and leaves enable 1 completes, whatever word is selected then. -/
theorem readPair_of_goOn {w : Word} {s u : State} (h : beginPair w s = .goOn u)
    (hen : (camDec u.cam u.configAddress).en = true) :
    readPair w s =
      .completed u.dataPort ((u.afterData .accessor (.rd u.dataPort) u.readReaction).setLock false) := by
  have hread := (readData_eq_ok (m := .accessor)).mpr ⟨hen, rfl, rfl⟩
  simp only [readPair, h, hread]

/-- A write pair whose inside goes on and leaves enable 1 completes, whatever word is selected then. -/
theorem writePair_of_goOn {w v : Word} {s u : State} (h : beginPair w s = .goOn u)
    (hen : (camDec u.cam u.configAddress).en = true) :
    writePair w v s = .completed () ((u.afterData .accessor (.wd v) (u.writeReaction v)).setLock false) := by
  have hwrite := (writeData_eq_ok (m := .accessor) (v := v)).mpr ⟨hen, rfl⟩
  simp only [writePair, h, hwrite]

/-- An undisturbed `CFGRD`: the whole next state, in terms of the shared operations. -/
theorem exec_cfgrd_undisturbed {s : State} (hlock : s.lock = false) (hm : s.mids.headD [] = []) (b : BitVec 8)
    (d : BitVec 5) (f : BitVec 3) (r : BitVec 8) :
    exec (.cfgrd b d f r) s = .next
      (((((openPair (camEnc s.cam b d f r) s).nextMids).afterData .accessor
          (.rd (s.mem.dwordAt s.background s.draws (effectiveAddr b d f r))) (s.reactions.headD [])).setLock false).respond
        (.value (s.mem.dwordAt s.background s.draws (effectiveAddr b d f r)))) :=
  withPair_of_completed _ hlock (readPair_undisturbed hm b d f r)

/-- An undisturbed `CFGWR`: the whole next state, in terms of the shared operations. -/
theorem exec_cfgwr_undisturbed {s : State} (hlock : s.lock = false) (hm : s.mids.headD [] = []) (b : BitVec 8)
    (d : BitVec 5) (f : BitVec 3) (r : BitVec 8) (v : Word) :
    exec (.cfgwr b d f r v) s = .next
      (((((openPair (camEnc s.cam b d f r) s).nextMids).afterData .accessor (.wd v)
          ((openPair (camEnc s.cam b d f r) s).nextMids.writeReaction v)).setLock false).respond .completion) :=
  withPair_of_completed _ hlock (writePair_undisturbed hm b d f r v)

/-- The devices' reaction to the data-port write of an undisturbed `CFGWR`. -/
theorem writeReaction_openPair (s : State) (b : BitVec 8) (d : BitVec 5) (f : BitVec 3) (r : BitVec 8) (v : Word) :
    (openPair (camEnc s.cam b d f r) s).nextMids.writeReaction v =
      s.reactions.headD (Config.freeReaction s.draws ((effectiveAddr b d f r).extractLsb' 2 22) v) := by
  simp [State.writeReaction, openPair]

/-- Settles O10: the value on RSP is the selected dword, whose bytes and halves stand in little-endian order. -/
theorem readValuesAreLittleEndian : Obligations.ReadValuesAreLittleEndian := by
  unfold Obligations.ReadValuesAreLittleEndian
  intro s b d f r hlock hm byteAtOffset
  exact ⟨_, _, exec_cfgrd_undisturbed hlock hm b d f r, rfl,
    fun j hj => byteOf_dwordAt s.mem s.background s.draws (effectiveAddr b d f r) hj,
    fun j hj => halfOf_dwordAt s.mem s.background s.draws (effectiveAddr b d f r) hj⟩

/-! ### What an access changes -/

/-- Where memory has changed by `cs` alone: with no change every byte reads as before, and a byte `cs` does not name is listed
as before. -/
theorem Memory.change_frame {m : Memory} (hm : m.wf) (bg : Option Byte) (cs : List Change) :
    (cs = [] → ∀ n y, (m.change cs).byteAt bg n y = m.byteAt bg n y) ∧
      (∀ y : CfgAddr, (∀ c ∈ cs, c.1 ≠ y) → (m.change cs).get? y.toNat = m.get? y.toNat) := by
  refine ⟨?_, fun y hy => Memory.get?_change_other hm hy⟩
  rintro rfl n y
  rfl

/-- Settles O15: each access leaves configuration space as its reaction changes it. -/
theorem accessesChangeOnlyWhatDevicesChange : Obligations.AccessesChangeOnlyWhatDevicesChange := by
  unfold Obligations.AccessesChangeOnlyWhatDevicesChange
  intro s hlock hm hwf
  refine ⟨fun b d f r => ?_, fun row hrow => ?_, fun b d f r v => ?_⟩
  · exact ⟨_, exec_cfgrd_undisturbed hlock hm b d f r, Memory.change_frame hwf s.background _⟩
  · exact ⟨_, (exec_microOp hrow s).trans (load_undisturbed hlock hm row.offset row.latch),
      Memory.change_frame hwf s.background _⟩
  · refine ⟨_, exec_cfgwr_undisturbed hlock hm b d f r v, fun y hy => ?_⟩
    rw [writeReaction_openPair]
    exact Memory.get?_change_other hwf hy

/-! ### A misaligned offset -/

/-- The low two bits of the offset do not enter the address word (30_encoding.md R99). -/
theorem camEnc_masked (c : CamParams) (b : BitVec 8) (d : BitVec 5) (f : BitVec 3) (r : BitVec 8) :
    camEnc c b d f (r &&& 0xFC#8) = camEnc c b d f r := by
  have heff : effectiveAddr b d f (r &&& 0xFC#8) = effectiveAddr b d f r := by
    rw [effectiveAddr, BitVec.and_assoc, BitVec.and_self, effectiveAddr]
  apply BitVec.eq_of_getLsbD_eq
  intro i hi
  rw [camEnc_getLsbD, camEnc_getLsbD, heff]

/-- Settles O16: both commands go through the address word, which is the masked one's. -/
theorem misalignedOffsetAccessesItsDword : Obligations.MisalignedOffsetAccessesItsDword := by
  unfold Obligations.MisalignedOffsetAccessesItsDword
  intro s b d f r v
  have hword := camEnc_masked s.cam b d f r
  constructor
  · show execCfgrd b d f r s = execCfgrd b d f (r &&& 0xFC#8) s
    rw [execCfgrd, execCfgrd, hword]
  · show execCfgwr b d f r v s = execCfgwr b d f (r &&& 0xFC#8) v s
    rw [execCfgwr, execCfgwr, hword]

/-! ### Held requesters -/

/-- Settles O18: each operation of one pair is held while `LOCK` is 1. -/
theorem requestersAreHeldWhileLocked : Obligations.RequestersAreHeldWhileLocked := by
  unfold Obligations.RequestersAreHeldWhileLocked
  intro s hlock
  exact ⟨fun b d f r => withPair_held _ _ hlock, fun b d f r v => withPair_held _ _ hlock,
    fun row hrow => (exec_microOp hrow s).trans (withPair_held _ _ hlock)⟩

/-! ### The broken pair -/

/-- Setting `LOCK` to the value a state has gives that state. -/
theorem State.eq_of_eq_setLock {s t : State} {b : Bool} (hlock : t.lock = b) (h : s = t.setLock b) : s = t := by
  subst hlock
  exact h

/-- A completed pair answers `t` where what it leaves is `t` with `LOCK` released. -/
theorem withPair_eq_next {α : Type} {pair : State → PairResult α} {finish : α → State → State} {s t u : State} {v : α}
    (hlock : s.lock = false) (h : pair s = .completed v u) (ht : t.lock = false) (heq : finish v u = t.setLock false) :
    withPair pair finish s = .next t := by
  rw [withPair_of_completed finish hlock h, State.eq_of_eq_setLock ht heq]

/-- A pair into which another context writes an address word goes on from that word. -/
theorem beginPair_rogueWrite {w w' : Word} {s : State} (hm : s.mids.headD [] = [.port (.writeAddr w')])
    (hres : w' &&& camReservedBits s.cam = 0) :
    beginPair w s = .goOn ((openPair w s).nextMids.writeAddr .outside w') := by
  have hres' : w' &&& camReservedBits (openPair w s).nextMids.cam = 0 := hres
  simp only [beginPair, hm, interlude, outsideEvent, rogueOp, if_pos hres']

/-- Settles O19: the data-port operation of each pair falls on the register the rogue word selects. -/
theorem brokenPairReachesTheOtherRegister : Obligations.BrokenPairReachesTheOtherRegister := by
  unfold Obligations.BrokenPairReachesTheOtherRegister
  intro s b d f r w' hlock hm hres hen other v' broken
  have hread (w : Word) := readPair_of_goOn (beginPair_rogueWrite (w := w) hm hres) hen
  have hwrite (w v : Word) := writePair_of_goOn (v := v) (beginPair_rogueWrite (w := w) hm hres) hen
  refine ⟨?_, fun v => ?_, fun row hrow => ?_⟩
  · exact withPair_eq_next hlock (hread _) hlock rfl
  · exact withPair_eq_next hlock (hwrite _ v) hlock rfl
  · rw [exec_microOp hrow]
    exact withPair_eq_next hlock (hread _) hlock rfl

/-! ### Two read pairs in a row -/

/-- Settles O21: the second read finds `LOCK` 0 and space as the first found it, and no draw matters. -/
theorem readPairsDoNotDisturbEachOther : Obligations.ReadPairsDoNotDisturbEachOther := by
  unfold Obligations.ReadPairsDoNotDisturbEachOther
  intro s x b b' d d' f f' r r' hlock hmids hreact hbg
  have hm : s.mids.headD [] = [] := by rw [hmids]; rfl
  have hm' : s.mids.tail.headD [] = [] := by rw [hmids]; rfl
  have hsame (a : CfgAddr) : (s.mem.change (s.reactions.headD [])).dwordAt s.background (s.draws + 1) a =
      s.mem.dwordAt s.background s.draws a := by
    rw [hreact, hbg]
    exact Memory.dwordAt_draw s.mem x (s.draws + 1) s.draws a
  refine ⟨_, _, _, _, _, exec_cfgrd_undisturbed hlock hm b d f r, exec_cfgrd_undisturbed rfl hm' b' d' f' r',
    exec_cfgrd_undisturbed hlock hm b' d' f' r', rfl, rfl, ?_, rfl⟩
  rw [← hsame (effectiveAddr b' d' f' r')]
  rfl

/-! ### Port operations that are refused -/

theorem takeTurn_outside_refused {e : OutsideEvent} {s : State} {r : Refusal} (h : outsideEvent e s = .refused r) :
    takeTurn (.outside e) s = .refused r := by
  simp only [takeTurn, h]

/-- A refused event inside a pair, behind events that go on, refuses the whole operation. -/
theorem exec_refused_inside {s u : State} {i : Instr} {w : Word} {before after : List OutsideEvent} {e : OutsideEvent}
    {r : Refusal} (hi : s.pairWord i w) (hlock : s.lock = false)
    (hbefore : interlude before (openPair w s).nextMids = .goOn u) (hm : s.mids.headD [] = before ++ e :: after)
    (he : outsideEvent e u = .refused r) : exec i s = .refused r := by
  obtain ⟨-, hrefused, -⟩ := exec_pairWord hi hlock
  refine hrefused r ?_
  rw [beginPair, hm, interlude_append hbefore]
  simp only [interlude, he]

theorem outsideEvent_readAddr (s : State) : outsideEvent (.port .readAddr) s = .refused .addressPortRead := rfl

theorem outsideEvent_writeAddr_reserved {s : State} {w : Word} (h : w &&& camReservedBits s.cam ≠ 0) :
    outsideEvent (.port (.writeAddr w)) s = .refused (.camReservedBits w) := by
  simp only [outsideEvent, rogueOp, if_neg h]

theorem outsideEvent_readData_disabled {s : State} (h : (camDec s.cam s.configAddress).en = false) :
    outsideEvent (.port .readData) s = .refused (.dataPortDisabled s.configAddress) := by
  simp [outsideEvent, rogueOp, readData, h]

theorem outsideEvent_writeData_disabled {s : State} (h : (camDec s.cam s.configAddress).en = false) (v : Word) :
    outsideEvent (.port (.writeData v)) s = .refused (.dataPortDisabled s.configAddress) := by
  simp [outsideEvent, rogueOp, writeData, h]

/-- Settles O22: each refused event, as a turn of its own and inside a pair; and the pair left with enable 0. -/
theorem unmodelledPortOperationsAreRefused : Obligations.UnmodelledPortOperationsAreRefused := by
  unfold Obligations.UnmodelledPortOperationsAreRefused
  refine ⟨fun s => ⟨?_, fun hen => ⟨?_, fun v => ?_⟩, fun w hw => ?_⟩, fun s u i w before hi hlock hbefore => ?_⟩
  · exact takeTurn_outside_refused (outsideEvent_readAddr s)
  · exact takeTurn_outside_refused (outsideEvent_readData_disabled hen)
  · exact takeTurn_outside_refused (outsideEvent_writeData_disabled hen v)
  · exact takeTurn_outside_refused (outsideEvent_writeAddr_reserved hw)
  · have hcam : u.cam = s.cam := (interlude_goOn hbefore).cam
    rw [← hcam]
    refine ⟨fun hm hen => ?_, fun after hm => ?_, fun w' after hm hw => ?_, fun after hm hen => ?_,
      fun v after hm hen => ?_⟩
    · obtain ⟨-, -, hdisabled⟩ := exec_pairWord hi hlock
      exact hdisabled u (by rw [beginPair, hm, hbefore]) hen
    · exact exec_refused_inside hi hlock hbefore hm (outsideEvent_readAddr u)
    · exact exec_refused_inside hi hlock hbefore hm (outsideEvent_writeAddr_reserved hw)
    · exact exec_refused_inside hi hlock hbefore hm (outsideEvent_readData_disabled hen)
    · exact exec_refused_inside hi hlock hbefore hm (outsideEvent_writeData_disabled hen v)

end Sys2Proof.Machine

/-! The encoding family (30_encoding.md): which test of R94 a command word passes, in its fields, and the command that
`decodeCmd` reads from it; the key table of R101 against the rows of 41_decoder.md; the address word of R99; the sentinel of R100
and the layout codes of R105. -/

namespace Sys2Proof.Machine

/-! ### The fields of a command word -/

/-- A word is put together from given fields exactly when these are its fields (30_encoding.md R93). -/
theorem eq_cmdWord_iff {w : Word} {op : BitVec 2} {b : BitVec 8} {d : BitVec 5} {f : BitVec 3} {r : BitVec 8} :
    w = cmdWord op b d f r ↔ w.extractLsb' 26 6 = 0#6 ∧ w.extractLsb' 24 2 = op ∧ cmdBus w = b ∧ cmdDev w = d ∧
      cmdFn w = f ∧ cmdReg w = r := by
  constructor
  · rintro rfl
    refine ⟨?_, ?_, ?_, ?_, ?_, ?_⟩ <;>
    · apply BitVec.eq_of_getLsbD_eq
      intro i hi
      simp only [cmdWord, cmdBus, cmdDev, cmdFn, cmdReg, BitVec.getLsbD_append, BitVec.getLsbD_extractLsb']
      interval_cases i <;> simp
  · rintro ⟨hzero, rfl, rfl, rfl, rfl, rfl⟩
    apply BitVec.eq_of_getLsbD_eq
    intro i hi
    simp only [cmdWord, cmdBus, cmdDev, cmdFn, cmdReg, BitVec.getLsbD_append, BitVec.getLsbD_extractLsb', ← hzero]
    interval_cases i <;> rfl

/-- The fields that a word was put together from. -/
@[simp] theorem cmdWord_fields (op : BitVec 2) (b : BitVec 8) (d : BitVec 5) (f : BitVec 3) (r : BitVec 8) :
    (cmdWord op b d f r).extractLsb' 26 6 = 0#6 ∧ (cmdWord op b d f r).extractLsb' 24 2 = op ∧
      cmdBus (cmdWord op b d f r) = b ∧ cmdDev (cmdWord op b d f r) = d ∧ cmdFn (cmdWord op b d f r) = f ∧
      cmdReg (cmdWord op b d f r) = r :=
  eq_cmdWord_iff.mp rfl

/-- The `CFGRD` and `CFGWR` tests look at bits 31:26 and `op` (30_encoding.md R94). -/
theorem and_opMask_eq_iff (w : Word) (op : BitVec 2) :
    w &&& 0xFF000000#32 = cmdWord op 0 0 0 0 ↔ w.extractLsb' 26 6 = 0#6 ∧ w.extractLsb' 24 2 = op := by
  have hzero : w.extractLsb' 26 6 &&& 63#6 = w.extractLsb' 26 6 := BitVec.and_allOnes
  have hop : w.extractLsb' 24 2 &&& 3#2 = w.extractLsb' 24 2 := BitVec.and_allOnes
  simp [eq_cmdWord_iff, cmdBus, cmdDev, cmdFn, cmdReg, BitVec.extractLsb'_and, hzero, hop]

theorem cfgrdTest_iff (w : Word) :
    w &&& 0xFF000000#32 = 0x00000000#32 ↔ w.extractLsb' 26 6 = 0#6 ∧ w.extractLsb' 24 2 = 0#2 :=
  and_opMask_eq_iff w 0

theorem cfgwrTest_iff (w : Word) :
    w &&& 0xFF000000#32 = 0x01000000#32 ↔ w.extractLsb' 26 6 = 0#6 ∧ w.extractLsb' 24 2 = 1#2 :=
  and_opMask_eq_iff w 1

theorem decodeTest_iff (w : Word) :
    w &&& 0xFF0000FF#32 = 0x02000000#32 ↔
      w.extractLsb' 26 6 = 0#6 ∧ w.extractLsb' 24 2 = 2#2 ∧ cmdReg w = 0#8 := by
  have hzero : w.extractLsb' 26 6 &&& 63#6 = w.extractLsb' 26 6 := BitVec.and_allOnes
  have hop : w.extractLsb' 24 2 &&& 3#2 = w.extractLsb' 24 2 := BitVec.and_allOnes
  have hreg : w.extractLsb' 0 8 &&& 255#8 = w.extractLsb' 0 8 := BitVec.and_allOnes
  have hword : 0x02000000#32 = cmdWord 2 0 0 0 0 := rfl
  simp [hword, eq_cmdWord_iff, cmdBus, cmdDev, cmdFn, cmdReg, BitVec.extractLsb'_and, hzero, hop, hreg]

theorem enumTest_iff (w : Word) :
    w &&& 0xFFFFFFFF#32 = 0x03000000#32 ↔
      w.extractLsb' 26 6 = 0#6 ∧ w.extractLsb' 24 2 = 3#2 ∧ w.extractLsb' 0 24 = 0#24 := by
  have hall : w &&& 0xFFFFFFFF#32 = w := BitVec.and_allOnes
  rw [hall]
  constructor
  · rintro rfl
    decide
  · rintro ⟨hzero, hop, hlow⟩
    have hfield {start len : Nat} (h : start + len ≤ 24) : w.extractLsb' start len = 0#len := by
      rw [← BitVec.extractLsb'_extractLsb'_of_le h, hlow, BitVec.extractLsb'_zero]
    exact eq_cmdWord_iff.mpr ⟨hzero, hop, hfield (by omega), hfield (by omega), hfield (by omega), hfield (by omega)⟩

/-! ### The command read from CMD -/

theorem decodeCmd_cfgrd (b : BitVec 8) (d : BitVec 5) (f : BitVec 3) (r : BitVec 8) (rest : List Word) :
    decodeCmd (cmdWord 0 b d f r :: rest) = .ok (.cfgrd b d f r, rest) := by
  simp [decodeCmd, cfgrdTest_iff]

theorem decodeCmd_cfgwr (b : BitVec 8) (d : BitVec 5) (f : BitVec 3) (r : BitVec 8) (v : Word) (rest : List Word) :
    decodeCmd (cmdWord 1 b d f r :: v :: rest) = .ok (.cfgwr b d f r v, rest) := by
  simp [decodeCmd, cfgrdTest_iff, cfgwrTest_iff]

theorem decodeCmd_decode (b : BitVec 8) (d : BitVec 5) (f : BitVec 3) (rest : List Word) :
    decodeCmd (cmdWord 2 b d f 0 :: rest) = .ok (.decode b d f, rest) := by
  simp [decodeCmd, cfgrdTest_iff, cfgwrTest_iff, decodeTest_iff]

theorem decodeCmd_enum (rest : List Word) : decodeCmd (cmdWord 3 0 0 0 0 :: rest) = .ok (.enum, rest) := rfl

theorem decodeCmd_cfgwr_alone (b : BitVec 8) (d : BitVec 5) (f : BitVec 3) (r : BitVec 8) :
    decodeCmd [cmdWord 1 b d f r] = .error .missingValue := by
  simp [decodeCmd, cfgrdTest_iff, cfgwrTest_iff]

/-- A word that is not reserved is the first word of one of the four commands (30_encoding.md R94, R104). -/
theorem command_of_not_reservedWord {w : Word} (h : ¬ reservedWord w) :
    (∃ b d f r, w = cmdWord 0 b d f r) ∨ (∃ b d f r, w = cmdWord 1 b d f r) ∨ (∃ b d f, w = cmdWord 2 b d f 0) ∨
      w = cmdWord 3 0 0 0 0 := by
  simp only [reservedWord, not_or, not_and, not_not] at h
  obtain ⟨hzero, hdecode, henum⟩ := h
  have hops : ∀ op : BitVec 2, op = 0 ∨ op = 1 ∨ op = 2 ∨ op = 3 := by decide
  rcases hops (w.extractLsb' 24 2) with hop | hop | hop | hop
  · exact .inl ⟨_, _, _, _, eq_cmdWord_iff.mpr ⟨hzero, hop, rfl, rfl, rfl, rfl⟩⟩
  · exact .inr (.inl ⟨_, _, _, _, eq_cmdWord_iff.mpr ⟨hzero, hop, rfl, rfl, rfl, rfl⟩⟩)
  · exact .inr (.inr (.inl ⟨_, _, _, eq_cmdWord_iff.mpr ⟨hzero, hop, rfl, rfl, rfl, hdecode hop⟩⟩))
  · have htest := (enumTest_iff w).mpr ⟨hzero, hop, henum hop⟩
    exact .inr (.inr (.inr (BitVec.and_allOnes.symm.trans htest)))

/-- A reserved word passes none of the four tests, and is rejected by the name of what is reserved in it (30_encoding.md R104). -/
theorem decodeCmd_of_reservedWord {w : Word} (h : reservedWord w) (rest : List Word) :
    ∃ reason, decodeCmd (w :: rest) = .error reason ∧ reason ≠ .noCommand ∧ reason ≠ .missingValue := by
  have hcfgrd : ¬ w &&& 0xFF000000#32 = 0x00000000#32 := by
    rw [cfgrdTest_iff]
    rintro ⟨hzero, hop⟩
    simp [reservedWord, hzero, hop] at h
  have hcfgwr : ¬ w &&& 0xFF000000#32 = 0x01000000#32 := by
    rw [cfgwrTest_iff]
    rintro ⟨hzero, hop⟩
    simp [reservedWord, hzero, hop] at h
  have hdecode : ¬ w &&& 0xFF0000FF#32 = 0x02000000#32 := by
    rw [decodeTest_iff]
    rintro ⟨hzero, hop, hreg⟩
    rw [cmdReg] at hreg
    simp [reservedWord, hzero, hop, hreg] at h
  have henum : ¬ w &&& 0xFFFFFFFF#32 = 0x03000000#32 := by
    rw [enumTest_iff]
    rintro ⟨hzero, hop, hlow⟩
    simp [reservedWord, hzero, hop, hlow] at h
  simp only [decodeCmd, if_neg hcfgrd, if_neg hcfgwr, if_neg hdecode, if_neg henum]
  split
  · exact ⟨_, rfl, nofun, nofun⟩
  · split <;> exact ⟨_, rfl, nofun, nofun⟩

/-- `decodeCmd` reads a command off the head of CMD exactly where the words of its encoding stand there, and leaves the words
after them (30_encoding.md R93, R94). -/
theorem decodeCmd_eq_ok_iff {ws rest : List Word} {i : Instr} :
    decodeCmd ws = .ok (i, rest) ↔ ∃ used, ws = used ++ rest ∧ encode i = .cmd used := by
  constructor
  · intro h
    cases ws with
    | nil => cases h
    | cons w ws =>
      by_cases hw : reservedWord w
      · obtain ⟨reason, herr, -⟩ := decodeCmd_of_reservedWord hw ws
        rw [herr] at h
        cases h
      · rcases command_of_not_reservedWord hw with ⟨b, d, f, r, rfl⟩ | ⟨b, d, f, r, rfl⟩ | ⟨b, d, f, rfl⟩ | rfl
        · rw [decodeCmd_cfgrd] at h
          cases h
          exact ⟨_, rfl, rfl⟩
        · cases ws with
          | nil =>
            rw [decodeCmd_cfgwr_alone] at h
            cases h
          | cons v ws =>
            rw [decodeCmd_cfgwr] at h
            cases h
            exact ⟨[_, v], rfl, rfl⟩
        · rw [decodeCmd_decode] at h
          cases h
          exact ⟨_, rfl, rfl⟩
        · rw [decodeCmd_enum] at h
          cases h
          exact ⟨_, rfl, rfl⟩
  · rintro ⟨used, rfl, henc⟩
    cases i with
    | cfgrd b d f r => cases henc; exact decodeCmd_cfgrd b d f r rest
    | cfgwr b d f r v => cases henc; exact decodeCmd_cfgwr b d f r v rest
    | decode b d f => cases henc; exact decodeCmd_decode b d f rest
    | enum => cases henc; exact decodeCmd_enum rest
    | _ => cases henc

/-- Settles O2: the forward direction of what `decodeCmd` reads. -/
theorem decodedCommandEncodesToItsWords : Obligations.DecodedCommandEncodesToItsWords := by
  unfold Obligations.DecodedCommandEncodesToItsWords
  exact fun ws rest i => decodeCmd_eq_ok_iff.mp

/-- A command that is encoded by words decodes from them, with no word left over. -/
theorem decode_cmd_of_encode {i : Instr} {ws : List Word} (h : encode i = .cmd ws) : decode (.cmd ws) = .ok i := by
  have hdec : decodeCmd ws = .ok (i, []) := decodeCmd_eq_ok_iff.mpr ⟨ws, (List.append_nil ws).symm, h⟩
  rw [decode, hdec]

/-- Settles O1: a command by the words that encode it, a load by the row of its key. -/
theorem decodeOfEncodeIsTheInstruction : Obligations.DecodeOfEncodeIsTheInstruction := by
  unfold Obligations.DecodeOfEncodeIsTheInstruction
  intro i
  cases i with
  | cfgrd b d f r => exact decode_cmd_of_encode rfl
  | cfgwr b d f r v => exact decode_cmd_of_encode rfl
  | decode b d f => exact decode_cmd_of_encode rfl
  | enum => exact decode_cmd_of_encode rfl
  | _ => rfl

/-- A word at the head of CMD that is rejected, and not for a missing word, refuses its caller's turn. -/
theorem callerTurn_of_rejected {n : Nat} {s : State} {reason : Reject} (h : decodeCmd (s.queue n) = .error reason)
    (hcommand : reason ≠ .noCommand) (hvalue : reason ≠ .missingValue) :
    callerTurn n s = .refused (.reservedCommand reason) := by
  unfold callerTurn
  rw [h]
  cases reason with
  | noCommand => exact absurd rfl hcommand
  | missingValue => exact absurd rfl hvalue
  | _ => rfl

/-- Settles O5: a reserved word is rejected by its name; any other is the first word of a command, whose value word follows. -/
theorem reservedWordsAreExactlyTheRefused : Obligations.ReservedWordsAreExactlyTheRefused := by
  unfold Obligations.ReservedWordsAreExactlyTheRefused
  constructor
  · intro s n w rest hqueue hw
    obtain ⟨reason, hdec, hcommand, hvalue⟩ := decodeCmd_of_reservedWord hw rest
    rw [← hqueue] at hdec
    exact ⟨reason, callerTurn_of_rejected hdec hcommand hvalue⟩
  · intro w v rest hw
    rcases command_of_not_reservedWord hw with ⟨b, d, f, r, rfl⟩ | ⟨b, d, f, r, rfl⟩ | ⟨b, d, f, rfl⟩ | rfl
    · exact ⟨_, _, decodeCmd_cfgrd b d f r (v :: rest)⟩
    · exact ⟨_, _, decodeCmd_cfgwr b d f r v rest⟩
    · exact ⟨_, _, decodeCmd_decode b d f (v :: rest)⟩
    · exact ⟨_, _, decodeCmd_enum (v :: rest)⟩

/-! ### The key table -/

/-- Settles O3: the finitely many pairs of the rows differ in a bit that both masks have. -/
theorem microOpRowsAreDisjoint : Obligations.MicroOpRowsAreDisjoint := by
  unfold Obligations.MicroOpRowsAreDisjoint
  decide

/-- At most one row of the key table matches a key. -/
theorem keyRow_unique {k : Key} {r r' : KeyRow} (hr : r ∈ keyTable) (hr' : r' ∈ keyTable)
    (hk : k &&& r.mask = r.pattern) (hk' : k &&& r'.mask = r'.pattern) : r = r' := by
  have hsymm : Std.Symm fun r r' : KeyRow => (r.pattern ^^^ r'.pattern) &&& r.mask &&& r'.mask ≠ 0#15 := ⟨by
    intro r r' h
    rwa [BitVec.xor_comm, BitVec.and_assoc, BitVec.and_comm r'.mask, ← BitVec.and_assoc]⟩
  have hagree : (r.pattern ^^^ r'.pattern) &&& r.mask &&& r'.mask = 0#15 := by
    rw [← hk, ← hk']
    ext i hi
    simp only [BitVec.getElem_and, BitVec.getElem_xor, BitVec.getElem_zero]
    cases r.mask[i] <;> cases r'.mask[i] <;> simp
  by_contra hne
  exact List.Pairwise.forall microOpRowsAreDisjoint hr hr' hne hagree

/-- A key decodes to an instruction exactly when a row of the instruction matches it (30_encoding.md R95). -/
theorem decodeKey_eq_ok_iff {k : Key} {i : Instr} :
    decodeKey k = .ok i ↔ ∃ r ∈ keyTable, k &&& r.mask = r.pattern ∧ r.op = i := by
  constructor
  · intro h
    unfold decodeKey at h
    split at h
    · rename_i r hfind
      exact ⟨r, List.mem_of_find?_eq_some hfind, by simpa using List.find?_some hfind, Except.ok.inj h⟩
    · cases h
  · rintro ⟨r, hr, hk, rfl⟩
    have hsome : (keyTable.find? fun r => k &&& r.mask == r.pattern).isSome :=
      List.find?_isSome.mpr ⟨r, hr, by simpa using hk⟩
    obtain ⟨r', hfind⟩ := Option.isSome_iff_exists.mp hsome
    have hk' : k &&& r'.mask = r'.pattern := by simpa using List.find?_some hfind
    obtain rfl : r = r' := keyRow_unique hr (List.mem_of_find?_eq_some hfind) hk hk'
    simp only [decodeKey, hfind]

/-- The key row of a micro-operation: the mask takes in the code field where the row has a code (30_encoding.md R95, R101). -/
def MicroOp.keyRow (row : MicroOp) : KeyRow where
  pattern := keyOf (row.code.getD 0) row.offset
  mask := keyOf (if row.code.isSome then 0x7F else 0) 0xFF
  op := row.op

/-- The key table lists the rows of 41_decoder.md R143 to R181. -/
theorem keyTable_eq_map_keyRow : keyTable = microOps.map MicroOp.keyRow := by decide

theorem keyOf_and_keyOf (code code' : BitVec 7) (offset offset' : BitVec 8) :
    keyOf code offset &&& keyOf code' offset' = keyOf (code &&& code') (offset &&& offset') := by
  exact BitVec.and_append

theorem keyOf_inj {code code' : BitVec 7} {offset offset' : BitVec 8} :
    keyOf code offset = keyOf code' offset' ↔ code = code' ∧ offset = offset' := by
  constructor
  · intro h
    have hcode := congrArg (BitVec.extractLsb' 8 7) h
    have hoffset := congrArg (BitVec.extractLsb' 0 8) h
    simp only [keyOf, BitVec.extractLsb'_append_eq_left, BitVec.extractLsb'_append_eq_right] at hcode hoffset
    exact ⟨hcode, hoffset⟩
  · rintro ⟨rfl, rfl⟩
    rfl

/-- A key matches a micro-operation's row when it has its offset and, where the row has a code, its code. -/
theorem keyOf_matches_keyRow_iff (row : MicroOp) (code : BitVec 7) (offset : BitVec 8) :
    keyOf code offset &&& row.keyRow.mask = row.keyRow.pattern ↔
      row.offset = offset ∧ (row.code = none ∨ row.code = some code) := by
  have hoffset : offset &&& 255#8 = offset := BitVec.and_allOnes
  have hcode : code &&& 127#7 = code := BitVec.and_allOnes
  cases hrow : row.code with
  | none => simp [MicroOp.keyRow, keyOf_and_keyOf, keyOf_inj, hrow, hoffset, eq_comm]
  | some c => simp [MicroOp.keyRow, keyOf_and_keyOf, keyOf_inj, hrow, hoffset, hcode, eq_comm, and_comm]

/-- Settles O4: a row of the key table matches, and that row is a micro-operation's. -/
theorem keyDecodesExactlyByTheTable : Obligations.KeyDecodesExactlyByTheTable := by
  unfold Obligations.KeyDecodesExactlyByTheTable
  intro code offset i
  rw [decodeKey_eq_ok_iff, keyTable_eq_map_keyRow]
  constructor
  · rintro ⟨r, hr, hmatch, hop⟩
    obtain ⟨row, hrow, rfl⟩ := List.mem_map.mp hr
    exact ⟨row, hrow, hop, (keyOf_matches_keyRow_iff row code offset).mp hmatch⟩
  · rintro ⟨row, hrow, hop, hmatch⟩
    exact ⟨row.keyRow, List.mem_map_of_mem hrow, (keyOf_matches_keyRow_iff row code offset).mpr hmatch, hop⟩

/-- Settles O6: each word and key is evaluated. -/
theorem sampleWordsDecode : Obligations.SampleWordsDecode := by
  unfold Obligations.SampleWordsDecode
  decide

/-! ### The address word -/

/-- Two offsets lie in one dword when they agree above their low two bits. -/
theorem and_dwordMask_eq_iff (r r' : BitVec 8) : r &&& 0xFC#8 = r' &&& 0xFC#8 ↔ r >>> 2 = r' >>> 2 := by
  have hmask (r : BitVec 8) : r &&& 0xFC#8 = (r >>> 2) <<< 2 := by
    ext i hi
    interval_cases i <;> simp
  have hshift (r : BitVec 8) : (r &&& 0xFC#8) >>> 2 = r >>> 2 := by
    ext i hi
    interval_cases i <;> simp
  constructor
  · intro h
    rw [← hshift r, h, hshift]
  · intro h
    rw [hmask, h, hmask]

/-- Settles O9: `CAMDEC` reads the four values back, and the low two bits of the offset do not enter the word. -/
theorem addressWordsEqualExactlyForOneDword : Obligations.AddressWordsEqualExactlyForOneDword := by
  unfold Obligations.AddressWordsEqualExactlyForOneDword
  intro c b b' d d' f f' r r'
  rw [← and_dwordMask_eq_iff]
  constructor
  · intro h
    have hdec := congrArg (camDec c) h
    rw [camDec_camEnc, camDec_camEnc] at hdec
    obtain ⟨-, hb, hd, hf, hr⟩ := CamFields.mk.inj hdec
    exact ⟨hb, hd, hf, hr⟩
  · rintro ⟨rfl, rfl, rfl, hr⟩
    rw [← camEnc_masked, hr, camEnc_masked]

/-! ### The flags of a dword -/

/-- The low half of a word as a masked word. -/
theorem halfOf_zero_zeroExtend (w : Word) : (halfOf w 0).zeroExtend 32 = w &&& 0x0000FFFF#32 := by
  ext i hi
  simp only [halfOf, BitVec.getElem_setWidth, BitVec.getLsbD_extractLsb', BitVec.getElem_and]
  interval_cases i <;> simp

/-- Settles O30: the vendor id is the low half of the dword, and that is the dword under the mask. -/
theorem sentinelIsTheVendorHalf : Obligations.SentinelIsTheVendorHalf := by
  unfold Obligations.SentinelIsTheVendorHalf
  intro w
  have hpresent : presentOf w = false ↔ halfOf w 0 = 0xFFFF#16 := by simp [presentOf]
  rw [hpresent, ← halfOf_zero_zeroExtend]
  constructor
  · intro h
    rw [h]
    rfl
  · intro h
    simpa using congrArg (BitVec.setWidth 16) h

/-- The layout code is the low seven bits of the header_type byte (10_state.md R28, 30_encoding.md R105). -/
theorem codeOf_eq_headerType (w : Word) : codeOf w = (w.extractLsb' 16 8).extractLsb' 0 7 := by
  ext i hi
  have hi8 : i < 8 := by omega
  simp [codeOf, hi8]

/-- Words that agree in bits 22:16 have the same layout code. -/
theorem codeOf_congr {w w' : Word} (h : w &&& 0x007F0000#32 = w' &&& 0x007F0000#32) : codeOf w = codeOf w' := by
  apply BitVec.eq_of_getLsbD_eq
  intro i hi
  have hmask : (0x007F0000#32).getLsbD (16 + i) = true := by interval_cases i <;> rfl
  rw [codeOf, codeOf, BitVec.getLsbD_extractLsb', BitVec.getLsbD_extractLsb', getLsbD_eq_of_and_eq h hmask]

/-- The variant of a code that selects no layout. -/
theorem variantOf_unknown {code : BitVec 7} (h : 3 ≤ code.toNat) : variantOf code = .unknown := by
  have hne {c : BitVec 7} (hc : c.toNat < 3) : code ≠ c := by
    rintro rfl
    omega
  rw [variantOf, if_neg (hne (by decide)), if_neg (hne (by decide)), if_neg (hne (by decide))]

/-- Settles O32: the three codes by their variants, every other code as the Unknown one; bit 7 of the header_type byte lies
outside the code. -/
theorem layoutCodesSelectVariants : Obligations.LayoutCodesSelectVariants := by
  unfold Obligations.LayoutCodesSelectVariants
  intro a x mf code
  refine ⟨?_, ?_, ?_, fun hcode => ⟨?_, rfl⟩, fun w => ⟨codeOf_congr ?_, codeOf_congr ?_⟩, fun w hw => ?_⟩
  · rintro rfl
    exact ⟨assembleStandard x, rfl⟩
  · rintro rfl
    exact ⟨assembleBridge x, rfl⟩
  · rintro rfl
    exact ⟨assembleCardBus x, rfl⟩
  · show assembleVariant x code = .unknown code
    rw [assembleVariant, variantOf_unknown hcode]
  · simp [BitVec.and_or_distrib_right]
  · simp [BitVec.and_assoc]
  · rw [codeOf_eq_headerType, hw]
    rfl

end Sys2Proof.Machine

/-! The Accessor family (40_accessor.md): `CAMDEC` at the default enable bit, and the whole next state of an undisturbed
`CFGRD` and `CFGWR`. -/

namespace Sys2Proof.Machine

/-! ### `CAMDEC` at the defaults -/

/-- At the default enable bit `CAMDEC` looks at bits 31 and 23:2 alone (40_accessor.md R122). -/
theorem camDec_default_congr {w w' : Word} (h : w &&& 0x80FFFFFC#32 = w' &&& 0x80FFFFFC#32) :
    camDec Config.cam w = camDec Config.cam w' := by
  have hmask : camEnable Config.cam ||| 0x00FFFFFC#32 = 0x80FFFFFC#32 := by decide
  exact camDec_congr (by rw [hmask, h])

/-- Settles O8: the fields are those of the definition at enable bit 31; two words that differ in every ignored bit show that
`CAMDEC` is not injective; an encoded word reads back. -/
theorem addressWordRoundTrip : Obligations.AddressWordRoundTrip := by
  unfold Obligations.AddressWordRoundTrip
  refine ⟨fun w => rfl, fun w w' => camDec_default_congr, ?_, camDec_camEnc Config.cam, by decide⟩
  exact ⟨0x7F000003#32, 0#32, by decide, camDec_default_congr (by decide)⟩

/-! ### The undisturbed commands -/

/-- Settles O13: the read pair completes with the dword at the effective address, and its release of `LOCK` restores the 0
the command found. -/
theorem cfgrdReturnsTheSelectedDword : Obligations.CfgrdReturnsTheSelectedDword := by
  unfold Obligations.CfgrdReturnsTheSelectedDword
  intro s b d f r hlock hm w v
  exact withPair_eq_next hlock (readPair_undisturbed hm b d f r) hlock rfl

/-- Settles O14: the write pair completes with the devices' reaction at the effective address, and its release of `LOCK`
restores the 0 the command found. -/
theorem cfgwrSendsTheWholeValue : Obligations.CfgwrSendsTheWholeValue := by
  unfold Obligations.CfgwrSendsTheWholeValue
  intro s b d f r v hlock hm w reaction
  have hreaction : (openPair w s).nextMids.writeReaction v = reaction := writeReaction_openPair s b d f r v
  have hpair := writePair_undisturbed hm b d f r v
  rw [hreaction] at hpair
  exact withPair_eq_next hlock hpair hlock rfl

end Sys2Proof.Machine

/-! The decoder family (41_decoder.md): what a load latches and what it leaves alone; the order and the number of the loads; the
decode as a whole, and its end at an absent function; the sequencer's port operations; the fields of a record. -/

namespace Sys2Proof.Machine

/-! ### A `DECODE` as a whole -/

/-- `DECODE` in IDLE sets `SEQ` and binds the decoder (41_decoder.md R141). -/
theorem exec_decode_of_idle {s : State} (h : s.seq = .idle) (b : BitVec 8) (d : BitVec 5) (f : BitVec 3) :
    exec (.decode b d f) s = .next ((s.setSeq .decoding).bindTarget (fnAddr b d f)) :=
  if_pos h

/-- In any other phase `DECODE` is held (10_state.md R22). -/
theorem exec_decode_of_busy {s : State} (h : s.seq ≠ .idle) (b : BitVec 8) (d : BitVec 5) (f : BitVec 3) :
    exec (.decode b d f) s = .next s :=
  if_neg h

/-- Settles O28: the loads run through to the last one that what they find calls for, and the closing step hands over the
result assembled from them. -/
theorem decodeAloneReturnsItsResult : Obligations.DecodeAloneReturnsItsResult := by
  unfold Obligations.DecodeAloneReturnsItsResult
  intro s b d f hs hidle
  have halone : ((s.setSeq .decoding).bindTarget (fnAddr b d f)).Alone := hs.congr rfl rfl rfl rfl
  obtain ⟨u, hu, htake⟩ := loads_complete halone nofun rfl
  have hseq : u.seq = .decoding := hu.seq
  have hrawv : u.rawv = loadedMask (loadsOf u.raw) := by rw [hu.rawv, ← htake]
  have hio : u.ioLog = loadTrace s.cam (fnAddr b d f) u.raw (loadsOf u.raw) ++ s.ioLog := by
    rw [hu.io, ← htake]
    rfl
  have hclose : step u = .next ((u.report (.result (resultOf u.tgt u.raw))).setSeq .idle) := by
    rw [step_closing hu.alone (by simp [hseq]) hrawv, hseq]
  have hrec : (u.report (.result (resultOf u.tgt u.raw))).recOut = .result (resultOf (fnAddr b d f) u.raw) :: s.recOut := by
    rw [State.report_recOut, hu.tgt, hu.recOut]
    rfl
  exact ⟨_, exec_decode_of_idle hidle b d f, (u.report (.result (resultOf u.tgt u.raw))).setSeq .idle,
    (run_add _ 1 hu.steps).trans (run_succ 0 u hclose), rfl, hu.alone.lock, hu.tgt, hrawv, hio, hrec, hu.scan,
    hu.mf, hu.rspOut, hu.callers⟩

/-- Settles O25: accepted in IDLE, held in any other phase. -/
theorem decodeIsAcceptedOnlyWhenIdle : Obligations.DecodeIsAcceptedOnlyWhenIdle := by
  unfold Obligations.DecodeIsAcceptedOnlyWhenIdle
  exact fun s b d f => ⟨fun h => exec_decode_of_idle h b d f, fun h => exec_decode_of_busy h b d f⟩

/-! ### The loads -/

/-- The offset of every micro-operation is that of a dword. -/
theorem microOps_aligned : ∀ row ∈ microOps, row.offset &&& 0xFC#8 = row.offset := by decide

/-- Settles O23: the read pair completes with the dword at the row's offset, its value goes to the row's latch, and its release
of `LOCK` restores the 0 the load found. -/
theorem loadsLatchTheirRegister : Obligations.LoadsLatchTheirRegister := by
  unfold Obligations.LoadsLatchTheirRegister
  intro row hrow s hlock hm w v
  have hpair := readPair_undisturbed hm (busOf s.tgt) (devOf s.tgt) (fnOf s.tgt) row.offset
  rw [effectiveAddr, microOps_aligned row hrow] at hpair
  rw [exec_microOp hrow]
  exact withPair_eq_next hlock hpair hlock rfl

/-- A latch leaves every other latch and valid bit as it is. -/
theorem latch_other (s : State) {j k : Fin 16} (v : Word) (h : j ≠ k) :
    (s.latch k v).raw[j] = s.raw[j] ∧ (s.latch k v).valid j = s.valid j := by
  have hval : k.val ≠ j.val := fun e => h (Fin.ext e.symm)
  refine ⟨Vector.getElem_set_ne k.isLt j.isLt hval, ?_⟩
  have hbit : (1#16 <<< k.val).getLsbD j.val = false := by simp; omega
  rw [State.valid, State.latch_rawv, BitVec.getLsbD_or, hbit, Bool.or_false, State.valid]

/-- A load with no reset inside its pair is held, or writes its latch on a state that keeps the frame of an access and on which
nothing has passed on RSP. -/
theorem load_frame {o : BitVec 8} {k : Fin 16} {s t : State} (hr : OutsideEvent.reset ∉ s.mids.headD [])
    (h : load o k s = .next t) :
    (s.lock = true ∧ t = s) ∨
      (s.lock = false ∧ ∃ u v, t = u.latch k v ∧ AccessFrame s u ∧ u.rspOut = s.rspOut) := by
  rcases withPair_next h with hheld | ⟨hlock, ⟨v, u, hp, rfl⟩ | hp⟩
  · exact .inl hheld
  · obtain ⟨u', hu, -, -, rfl⟩ := readPair_completed hp
    have hframe : AccessFrame s ((u'.afterData .accessor (.rd v) u'.readReaction).setLock false) :=
      { AccessFrame.completedPair hlock hu (.rd v) u'.readReaction .completion with }
    exact .inr ⟨hlock, _, v, rfl, hframe, hu.rspOut⟩
  · exact absurd (reset_mem_of_readPair_abandoned hp) hr

/-- Settles O24: the frame of an access, and the latches other than the load's own. -/
theorem loadsLeaveEverythingElseAlone : Obligations.LoadsLeaveEverythingElseAlone := by
  unfold Obligations.LoadsLeaveEverythingElseAlone
  intro row hrow s t hr h
  rw [exec_microOp hrow] at h
  rcases load_frame hr h with ⟨-, rfl⟩ | ⟨-, u, v, rfl, hu, hrsp⟩
  · exact ⟨rfl, rfl, rfl, rfl, rfl, fun _ _ => ⟨rfl, rfl⟩, rfl, rfl, rfl, rfl, rfl, rfl, rfl⟩
  · refine ⟨hu.lock, hu.seq, hu.tgt, hu.scan, hu.mf, fun j hj => ?_, hu.cam, hu.background, hrsp, hu.recOut, hu.callers,
      hu.turns, hu.issuer⟩
    obtain ⟨hraw, hvalid⟩ := latch_other u v hj
    exact ⟨by rw [hraw, hu.raw], by rw [hvalid, State.valid, hu.rawv, State.valid]⟩

/-! ### The order of the loads -/

theorem presentOf_eq_false_iff (w : Word) : presentOf w = false ↔ w.extractLsb' 0 16 = 0xFFFF#16 := by
  simp [presentOf, halfOf]

theorem presentOf_eq_true_iff (w : Word) : presentOf w = true ↔ w.extractLsb' 0 16 ≠ 0xFFFF#16 := by
  simp [presentOf, halfOf]

/-- Before its first load a decode does not know whether its function is present. -/
theorem nextKey_of_empty {s : State} (h : s.rawv = 0) : s.nextKey = some (loadKey 0 0) := by
  have hp : s.present? = none := by simp [State.present?, State.latch?, State.valid, h]
  simp only [State.nextKey, hp]

/-- The decode of an absent function has no next load (41_decoder.md R184). -/
theorem nextKey_of_absent {s : State} (hv : s.valid 0 = true) (hp : presentOf s.raw[0] = false) : s.nextKey = none := by
  have hp' : s.present? = some false := by rw [present_of_raw hv, hp]
  simp only [State.nextKey, hp']

/-- With fewer than four loads done the next latch is a common one. -/
theorem firstUnloaded_common {s : State} {c : BitVec 7} {n : Nat} (hn : 1 ≤ n) (h4 : n < 4)
    (hv : s.rawv = loadedMask ((loadOrder c).take n)) : s.firstUnloaded [1, 2, 3] = (loadOrder c)[n]? := by
  have hv' : s.rawv = loadedMask (([0, 1, 2, 3] : List (Fin 16)).take n) := by
    rw [hv, loadOrder, List.take_append_of_le_length (by simp; omega)]
  rw [firstUnloaded_eq (by decide) hv' [0] [1, 2, 3] rfl hn, loadOrder, List.getElem?_append_left (by simpa using h4)]

/-- With four loads or more done every common latch is loaded. -/
theorem firstUnloaded_common_of_done {s : State} {c : BitVec 7} {n : Nat} (h4 : 4 ≤ n)
    (hv : s.rawv = loadedMask ((loadOrder c).take n)) : s.firstUnloaded [1, 2, 3] = none := by
  rw [firstUnloaded_eq_none]
  intro k hk
  have hmem : k ∈ (loadOrder c).take n := by
    rw [loadOrder, List.take_append, List.take_of_length_le (by simpa using h4)]
    exact List.mem_append_left _ (List.mem_cons_of_mem _ hk)
  rw [valid_of_loadedMask hv, decide_eq_true hmem]

/-- With the first n loads of its order done the decode of a present function goes on to the n-th. -/
theorem nextKey_eq_of_position {s : State} {n : Nat} (hn : 1 ≤ n) (hp : presentOf s.raw[0] = true)
    (hv : s.rawv = loadedMask ((loadOrder (codeOf s.raw[3])).take n)) :
    s.nextKey = ((loadOrder (codeOf s.raw[3]))[n]?).map (loadKey (if n < 4 then 0 else codeOf s.raw[3])) := by
  have hv0 : s.valid 0 = true := by
    obtain ⟨m, rfl⟩ : ∃ m, n = m + 1 := ⟨n - 1, by omega⟩
    simp [valid_of_loadedMask hv, loadOrder]
  have hp' : s.present? = some true := by rw [present_of_raw hv0, hp]
  by_cases h4 : n < 4
  · have hlt : n < (loadOrder (codeOf s.raw[3])).length := by
      have := (loadOrder_length (codeOf s.raw[3])).1
      omega
    have hfirst := firstUnloaded_common hn h4 hv
    rw [List.getElem?_eq_getElem hlt] at hfirst ⊢
    simp only [State.nextKey, hp', hfirst, if_pos h4, Option.map_some]
  · have hfirst := firstUnloaded_common_of_done (by omega) hv
    have hgroup : s.firstUnloaded (groupLoads (codeOf s.raw[3])) = (loadOrder (codeOf s.raw[3]))[n]? :=
      firstUnloaded_eq (loadOrder_nodup _) hv [0, 1, 2, 3] _ rfl (by simp; omega)
    simp only [State.nextKey, hp', hfirst, hgroup, if_neg h4]

/-- Settles O26: nothing loaded, absent, and present at position n of the order. -/
theorem nextLoadFollowsTheOrder : Obligations.NextLoadFollowsTheOrder := by
  unfold Obligations.NextLoadFollowsTheOrder
  intro s
  refine ⟨nextKey_of_empty, fun hv hp => ?_, fun n hn _ hp hv => ?_⟩
  · exact nextKey_of_absent hv ((presentOf_eq_false_iff _).mpr hp)
  · exact nextKey_eq_of_position hn ((presentOf_eq_true_iff _).mpr hp) hv

theorem loadOrder_ascending (c : BitVec 7) : (loadOrder c).Pairwise (· < ·) := by
  unfold loadOrder
  rcases groupLoads_cases c with ⟨-, h⟩ | ⟨-, h⟩ | ⟨-, h⟩ <;> rw [h] <;> decide

theorem groupLoads_unknown {c : BitVec 7} (h : 3 ≤ c.toNat) : groupLoads c = [] := by
  rw [← groupLatches_eq, groupLatches, variantOf_unknown h]

theorem loadsOf_of_absent {x : Vector Word 16} (h : presentOf x[0] = false) : loadsOf x = [0] := by
  simp [loadsOf, h]

theorem loadsOf_of_present {x : Vector Word 16} (h : presentOf x[0] = true) : loadsOf x = loadOrder (codeOf x[3]) :=
  if_pos h

/-- Settles O27: an absent function has one read; a present one the order of its code, which is a fixed list for each layout. -/
theorem readsPerOutcome : Obligations.ReadsPerOutcome := by
  unfold Obligations.ReadsPerOutcome
  intro x
  refine ⟨?_, loadsOf_of_absent, fun hp hc => ?_, fun hp hc => ?_, fun hp hc => ?_⟩
  · cases hp : presentOf x[0] with
    | false => simp [loadsOf_of_absent hp]
    | true =>
      rw [loadsOf_of_present hp]
      exact loadOrder_ascending _
  · rw [loadsOf_of_present hp, hc]
    decide
  · rw [loadsOf_of_present hp]
    rcases hc with hc | hc <;> rw [hc] <;> decide
  · rw [loadsOf_of_present hp, loadOrder, groupLoads_unknown hc]
    rfl

/-! ### The sequencer's turn -/

/-- A decode with no next load is closed. -/
theorem sequencerTurn_of_closing {s : State} (hseq : s.seq ≠ .idle) (hkey : s.nextKey = none) :
    sequencerTurn s = conclude s := by
  simp only [sequencerTurn, if_neg hseq, hkey]

theorem conclude_of_decoding {s : State} {r : DecodeResult} (hseq : s.seq = .decoding) (h : decodeOutcome s = .ok r) :
    conclude s = .next ((s.report (.result r)).setSeq .idle) := by
  simp only [conclude, h, hseq]

theorem conclude_of_enumerating {s : State} {r : DecodeResult} (hseq : s.seq = .enumerating) (h : decodeOutcome s = .ok r) :
    conclude s = .next (scanStep r s) := by
  simp only [conclude, h, hseq]

@[simp] theorem advanceTo_ioLog (target : BitVec 17) (s : State) : (advanceTo target s).ioLog = s.ioLog := by
  unfold advanceTo
  split <;> rfl

@[simp] theorem scanStep_ioLog (r : DecodeResult) (s : State) : (scanStep r s).ioLog = s.ioLog := by
  obtain ⟨target, mf, out, heq, -⟩ := scanStep_eq_advanceTo r s
  rw [heq, advanceTo_ioLog]

/-- Settles O29: after the first load of an absent function the loads of its outcome are done, so the next turn is the closing
step. -/
theorem absentEndsTheDecodeAtOnce : Obligations.AbsentEndsTheDecodeAtOnce := by
  unfold Obligations.AbsentEndsTheDecodeAtOnce
  intro s t hseq hempty hr hlock hexec hvendor
  have habsent : presentOf t.raw[0] = false := (presentOf_eq_false_iff _).mpr hvendor
  obtain ⟨htseq, hrawv⟩ : t.seq = s.seq ∧ t.rawv = 0x0001#16 := by
    rcases load_frame hr hexec with ⟨hheld, -⟩ | ⟨-, u, v, rfl, hu, -⟩
    · simp [hlock] at hheld
    · exact ⟨hu.seq, by rw [State.latch_rawv, hu.rawv, hempty]; rfl⟩
  have hloads : t.rawv = loadedMask (loadsOf t.raw) := by
    rw [hrawv, loadsOf_of_absent habsent]
    rfl
  obtain ⟨hkey, houtcome⟩ := outcome_of_loads hloads
  have hresult : resultOf t.tgt t.raw = .absent := by simp [resultOf, habsent]
  rw [hresult] at houtcome
  refine ⟨hrawv, hkey, houtcome, ?_⟩
  rw [sequencerTurn_of_closing (htseq ▸ hseq) hkey]
  cases hphase : t.seq with
  | idle => exact absurd (htseq ▸ hphase) hseq
  | decoding => exact ⟨_, conclude_of_decoding hphase houtcome, rfl, fun _ => ⟨hrawv, rfl, rfl⟩⟩
  | enumerating => exact ⟨_, conclude_of_enumerating hphase houtcome, scanStep_ioLog _ t, nofun⟩

/-- The sequencer's turn does nothing, or a load, or the closing step. -/
theorem sequencerTurn_next_cases {s t : State} (h : sequencerTurn s = .next t) :
    t = s ∨ (∃ row ∈ microOps, load row.offset row.latch s = .next t) ∨ (s.seq ≠ .idle ∧ conclude s = .next t) := by
  unfold sequencerTurn at h
  split at h
  · cases h
    exact .inl rfl
  · split at h
    · exact .inr (.inr ⟨‹_›, h⟩)
    · split at h
      · rename_i i hdec
        obtain ⟨row, hrow, rfl⟩ := microOp_of_decodeKey hdec
        split at h
        · rw [exec_microOp hrow] at h
          exact .inr (.inl ⟨row, hrow, h⟩)
        · cases h
          exact .inl rfl
      · cases h

/-- From `s` to `t` no data-port write of the Accessor passes on IO. -/
def WritesNoData (s t : State) : Prop :=
  ∃ new, t.ioLog = new ++ s.ioLog ∧ ∀ e ∈ new, e.by_ = .accessor → ∀ v, e.op ≠ .wd v

theorem WritesNoData.of_eq {s t : State} (h : t.ioLog = s.ioLog) : WritesNoData s t :=
  ⟨[], h, nofun⟩

/-- One more port operation that is no such write. -/
theorem WritesNoData.cons {s t u : State} {e : IoEvent} (h : WritesNoData s t) (hio : u.ioLog = e :: t.ioLog)
    (he : ∀ v, e.op ≠ .wd v) : WritesNoData s u := by
  obtain ⟨new, ht, hnew⟩ := h
  refine ⟨e :: new, by rw [hio, ht]; rfl, fun e' he' hby => ?_⟩
  rcases List.mem_cons.mp he' with rfl | he'
  · exact he
  · exact hnew e' he' hby

/-- Events outside the block put no operation of the Accessor on IO. -/
theorem WritesNoData.outside {s t u : State} (h : WritesNoData s t) (hu : OutsideOnly t u) : WritesNoData s u := by
  obtain ⟨new, ht, hnew⟩ := h
  obtain ⟨out, hio, hout⟩ := hu.io
  refine ⟨out ++ new, by rw [hio, ht, List.append_assoc], fun e he hby => ?_⟩
  rcases List.mem_append.mp he with he | he
  · rw [hout e he] at hby
    cases hby
  · exact hnew e he hby

/-- A load writes the address port and reads the data port, also where it is disturbed or abandoned (41_decoder.md R140). -/
theorem load_writesNoData {o : BitVec 8} {k : Fin 16} {s t : State} (h : load o k s = .next t) : WritesNoData s t := by
  rcases load_next h with ⟨-, rfl⟩ | ⟨-, u, hu, ht⟩
  · exact .of_eq rfl
  · have hopen : WritesNoData s (openPair (camEnc s.cam (busOf s.tgt) (devOf s.tgt) (fnOf s.tgt) o) s).nextMids :=
      (WritesNoData.of_eq (t := s) rfl).cons rfl nofun
    have hinside : WritesNoData s u := hopen.outside hu
    rcases ht with rfl | rfl
    · exact hinside.cons rfl nofun
    · exact hinside

/-- The closing step puts nothing on IO. -/
theorem conclude_ioLog {s t : State} (hseq : s.seq ≠ .idle) (h : conclude s = .next t) : t.ioLog = s.ioLog := by
  obtain ⟨r, -, ⟨-, rfl⟩ | ⟨-, rfl⟩⟩ := conclude_cases hseq h
  · rfl
  · exact scanStep_ioLog r s

/-- Settles O45: the sequencer's port operations are those of loads. -/
theorem sequencerNeverWritesConfiguration : Obligations.SequencerNeverWritesConfiguration := by
  unfold Obligations.SequencerNeverWritesConfiguration
  intro s t h
  rcases sequencerTurn_next_cases h with rfl | ⟨row, -, hload⟩ | ⟨hseq, hclose⟩
  · exact WritesNoData.of_eq rfl
  · exact load_writesNoData hload
  · exact WritesNoData.of_eq (conclude_ioLog hseq hclose)

/-! ### The fields of a record -/

/-- The multifunction bit is bit 7 of the header_type byte (10_state.md R28). -/
theorem mfRecOf_eq_headerType (w : Word) : mfRecOf w = (w.extractLsb' 16 8).getLsbD 7 := by
  simp [mfRecOf]

/-- Settles O31: the code selects the variant by R105, and the multifunction bit lies outside the code. -/
theorem headerTypePartsAreIndependent : Obligations.HeaderTypePartsAreIndependent := by
  unfold Obligations.HeaderTypePartsAreIndependent
  refine ⟨fun a x code mf mf' => ?_, fun w => ?_, fun w hw => ?_, fun w hw => ?_⟩
  · obtain ⟨hstandard, hbridge, hcardBus, hunknown, -, -⟩ := layoutCodesSelectVariants a x mf code
    exact ⟨rfl, rfl, rfl, rfl, hstandard, hbridge, hcardBus, fun h => (hunknown h).1⟩
  · refine ⟨codeOf_congr ?_, codeOf_congr ?_, ?_, ?_⟩
    · simp [BitVec.and_or_distrib_right]
    · simp [BitVec.and_assoc]
    · simp [mfRecOf]
    · simp [mfRecOf]
  · rw [codeOf_eq_headerType, mfRecOf_eq_headerType, hw]
    decide
  · rw [codeOf_eq_headerType, mfRecOf_eq_headerType, hw]
    decide

/-- The four bytes of a word as shifted and masked words (00_scope.md R9). -/
theorem byteOf_zeroExtend (w : Word) :
    (byteOf w 0).zeroExtend 32 = w &&& 0xFF#32 ∧ (byteOf w 1).zeroExtend 32 = (w >>> 8) &&& 0xFF#32 ∧
      (byteOf w 2).zeroExtend 32 = (w >>> 16) &&& 0xFF#32 ∧ (byteOf w 3).zeroExtend 32 = w >>> 24 := by
  refine ⟨?_, ?_, ?_, ?_⟩ <;>
  · ext i hi
    simp only [byteOf, BitVec.getElem_setWidth, BitVec.getLsbD_extractLsb', BitVec.getElem_and, BitVec.getElem_ushiftRight]
    interval_cases i <;> simp

/-- The upper half of a word as a shifted word; the lower one is `halfOf_zero_zeroExtend`. -/
theorem halfOf_one_zeroExtend (w : Word) : (halfOf w 1).zeroExtend 32 = w >>> 16 := by
  ext i hi
  simp only [halfOf, BitVec.getElem_setWidth, BitVec.getLsbD_extractLsb', BitVec.getElem_ushiftRight]
  interval_cases i <;> simp

theorem codeOf_zeroExtend (w : Word) : (codeOf w).zeroExtend 32 = (w >>> 16) &&& 0x7F#32 := by
  ext i hi
  simp only [codeOf, BitVec.getElem_setWidth, BitVec.getLsbD_extractLsb', BitVec.getElem_and, BitVec.getElem_ushiftRight]
  interval_cases i <;> simp

/-- Settles O33: each field is a half, a byte or the code of its dword. -/
theorem commonHeaderFields : Obligations.CommonHeaderFields := by
  unfold Obligations.CommonHeaderFields
  intro a x code mf h
  obtain ⟨hrevision, hprogIf, hsubclass, hclass⟩ := byteOf_zeroExtend x[2]
  obtain ⟨hcacheLine, hlatency, -, hbist⟩ := byteOf_zeroExtend x[3]
  exact ⟨rfl, halfOf_zero_zeroExtend x[0], halfOf_one_zeroExtend x[0], halfOf_zero_zeroExtend x[1],
    halfOf_one_zeroExtend x[1], hrevision, hprogIf, hsubclass, hclass, hcacheLine, hlatency, codeOf_zeroExtend x[3], hbist⟩

/-- Settles O34: the fields of the Standard layout, each a dword, a half or a byte. -/
theorem standardVariantFields : Obligations.StandardVariantFields := by
  unfold Obligations.StandardVariantFields
  intro a x mf
  obtain ⟨hcapability, -, -, -⟩ := byteOf_zeroExtend x[13]
  obtain ⟨hline, hpin, hminGrant, hmaxLatency⟩ := byteOf_zeroExtend x[15]
  exact ⟨assembleStandard x, rfl, rfl, rfl, halfOf_zero_zeroExtend x[11], halfOf_one_zeroExtend x[11], rfl, hcapability,
    hline, hpin, hminGrant, hmaxLatency⟩

/-- Settles O35: the fields of the PciBridge layout, each a dword, a half or a byte. -/
theorem bridgeVariantFields : Obligations.BridgeVariantFields := by
  unfold Obligations.BridgeVariantFields
  intro a x mf
  obtain ⟨hprimary, hsecondary, hsubordinate, hlatency⟩ := byteOf_zeroExtend x[6]
  obtain ⟨hioBase, hioLimit, -, -⟩ := byteOf_zeroExtend x[7]
  obtain ⟨hcapability, -, -, -⟩ := byteOf_zeroExtend x[13]
  obtain ⟨hline, hpin, -, -⟩ := byteOf_zeroExtend x[15]
  exact ⟨assembleBridge x, rfl, rfl, hprimary, hsecondary, hsubordinate, hlatency, hioBase, hioLimit,
    halfOf_zero_zeroExtend x[8], halfOf_one_zeroExtend x[8], halfOf_zero_zeroExtend x[9], halfOf_one_zeroExtend x[9],
    rfl, rfl, halfOf_zero_zeroExtend x[12], halfOf_one_zeroExtend x[12], hcapability, rfl, hline, hpin,
    halfOf_one_zeroExtend x[15]⟩

/-- Settles O36: dword i of the variant is latch 4 + i. -/
theorem cardBusVariantIsOpaque : Obligations.CardBusVariantIsOpaque := by
  unfold Obligations.CardBusVariantIsOpaque
  intro a x mf
  refine ⟨assembleCardBus x, rfl, fun i => ?_⟩
  fin_cases i <;> rfl

end Sys2Proof.Machine

/-! The enumerator family (42_enumerator.md): the acceptance of `ENUM` and of the next micro-operation; the closing step of each
decode of a scan (R193 to R197); the order of a pass (R198); the scan as a whole, and what it finds (R191, R199). -/

namespace Sys2Proof.Machine

/-! ### `ENUM` and the next micro-operation -/

/-- `ENUM` in IDLE starts a scan at function 0:0.0 (42_enumerator.md R192). -/
theorem exec_enum_of_idle {s : State} (h : s.seq = .idle) :
    exec .enum s = .next (((((s.setSeq .enumerating).setScan 0).setMf false).bindTarget 0).report .began) :=
  if_pos h

/-- In any other phase `ENUM` is held (10_state.md R22). -/
theorem exec_enum_of_busy {s : State} (h : s.seq ≠ .idle) : exec .enum s = .next s :=
  if_neg h

/-- Settles O38: accepted in IDLE, held in any other phase. -/
theorem enumIsAcceptedOnlyWhenIdle : Obligations.EnumIsAcceptedOnlyWhenIdle := by
  unfold Obligations.EnumIsAcceptedOnlyWhenIdle
  exact fun s => ⟨exec_enum_of_idle, exec_enum_of_busy⟩

/-- While `LOCK` is 0 the sequencer's turn runs the micro-operation its next key selects (30_encoding.md R95). -/
theorem sequencerTurn_of_decodeKey {s : State} {k : Key} {i : Instr} (hseq : s.seq ≠ .idle) (hlock : s.lock = false)
    (hkey : s.nextKey = some k) (hdec : decodeKey k = .ok i) : sequencerTurn s = exec i s := by
  obtain ⟨row, hrow, rfl⟩ := microOp_of_decodeKey hdec
  have hacc : accepts row.op s = true := by rw [accepts_microOp hrow, hlock]; rfl
  simp only [sequencerTurn, if_neg hseq, hkey, hdec, if_pos hacc]

/-- Settles O55: the step takes the sequencer's turn, and that turn runs the micro-operation of the key. -/
theorem stepRunsTheNextMicroOp : Obligations.StepRunsTheNextMicroOp := by
  unfold Obligations.StepRunsTheNextMicroOp
  intro s ts k i hturns hseq hlock hkey hdec
  rw [step_scheduled hturns]
  exact sequencerTurn_of_decodeKey (s := { s with turns := ts }) hseq hlock hkey hdec

/-! ### Function addresses -/

theorem fnOf_eq_zero_iff (a : FnAddr) : fnOf a = 0 ↔ a.toNat % 8 = 0 := by
  rw [← BitVec.toNat_inj, fnOf_toNat]
  rfl

theorem functionZeroOf_toNat (a : FnAddr) : (functionZeroOf a).toNat = 8 * (a.toNat / 8) := deviceMask_toNat a

theorem functionZeroOf_of_fnOf_eq_zero {a : FnAddr} (h : fnOf a = 0) : functionZeroOf a = a := by
  rw [fnOf_eq_zero_iff] at h
  apply BitVec.eq_of_toNat_eq
  rw [functionZeroOf_toNat]
  omega

/-- Function 0 is the same for all functions of a device. -/
theorem functionZeroOf_congr {a b : FnAddr} (h : a.toNat / 8 = b.toNat / 8) : functionZeroOf a = functionZeroOf b := by
  apply BitVec.eq_of_toNat_eq
  rw [functionZeroOf_toNat, functionZeroOf_toNat, h]

/-! ### The advances of `SCAN` -/

theorem advanceTo_of_carry {target : BitVec 17} (h : target.getLsbD 16 = true) (s : State) :
    advanceTo target s = endScan s :=
  if_pos h

theorem advanceTo_of_noCarry {target : BitVec 17} (h : target.getLsbD 16 = false) (s : State) :
    advanceTo target s = (s.setScan (target.setWidth 16)).bindTarget (target.setWidth 16) :=
  if_neg (Bool.eq_false_iff.mp h)

theorem nextFunctionOf_setWidth (a : FnAddr) : (nextFunctionOf a).setWidth 16 = a + 1 := by
  apply BitVec.eq_of_toNat_eq
  rw [BitVec.toNat_setWidth, nextFunctionOf_toNat, BitVec.toNat_add]
  rfl

theorem nextDeviceOf_setWidth (a : FnAddr) : (nextDeviceOf a).setWidth 16 = (a &&& 0xFFF8#16) + 8 := by
  apply BitVec.eq_of_toNat_eq
  rw [BitVec.toNat_setWidth, nextDeviceOf_toNat, BitVec.toNat_add, deviceMask_toNat, Nat.mul_succ]
  rfl

/-- *Next function* below 255:31.7: the scan goes one up, and the next decode begins there (42_enumerator.md R192). -/
theorem advanceTo_nextFunctionOf {a : FnAddr} (h : a ≠ 0xFFFF#16) (s : State) :
    advanceTo (nextFunctionOf a) s = (s.setScan (a + 1)).bindTarget (a + 1) := by
  obtain ⟨-, -, hcarry, -⟩ := scanAdvancesByFunctionOrDevice a
  rw [advanceTo_of_noCarry (by simpa using mt hcarry.mp h), nextFunctionOf_setWidth]

/-- *Next device* from function 0 of any device but the last (42_enumerator.md R192). -/
theorem advanceTo_nextDeviceOf {a : FnAddr} (hfn : fnOf a = 0) (h : a ≠ 0xFFF8#16) (s : State) :
    advanceTo (nextDeviceOf a) s =
      (s.setScan ((a &&& 0xFFF8#16) + 8)).bindTarget ((a &&& 0xFFF8#16) + 8) := by
  have hcarry : (nextDeviceOf a).getLsbD 16 = false := by
    rw [Bool.eq_false_iff, Ne, carry_iff, nextDeviceOf_toNat]
    rw [Ne, ← BitVec.toNat_inj, BitVec.toNat_ofNat] at h
    rw [fnOf_eq_zero_iff] at hfn
    have := a.isLt
    omega
  rw [advanceTo_of_noCarry hcarry, nextDeviceOf_setWidth]

/-! ### The closing step of a decode inside a scan -/

/-- Where the scan goes from function `a` when its decode returned `r` (42_enumerator.md R193 to R196). -/
def scanTarget (r : DecodeResult) (a : FnAddr) : BitVec 17 :=
  if fnOf a = 0 then
    match r with
    | .absent => nextDeviceOf a
    | .present d => if d.multifunction then nextFunctionOf a else nextDeviceOf a
  else nextFunctionOf a

/-- `MF` after the decode of the function the scan is at returned `r`: only function 0 writes it (decision D24). -/
def scanMf (r : DecodeResult) (s : State) : Bool :=
  if fnOf s.scan = 0 then
    match r with
    | .absent => false
    | .present d => d.multifunction
  else s.mf

/-- What the result of a decode puts on REC inside a scan. -/
def emitted : DecodeResult → List RecEvent
  | .absent => []
  | .present d => [.emit d]

/-- The step of a scan writes `MF`, hands over a record if there is one, and advances. -/
theorem scanStep_eq (r : DecodeResult) (s : State) :
    scanStep r s =
      advanceTo (scanTarget r s.scan) { s with mf := scanMf r s, recOut := emitted r ++ s.recOut } := by
  unfold scanStep scanTarget scanMf
  split
  · cases r with
    | absent => rfl
    | present d => cases hd : d.multifunction <;> simp only [hd] <;> rfl
  · cases r <;> rfl

theorem scanTarget_of_other {a : FnAddr} (h : fnOf a ≠ 0) (r : DecodeResult) : scanTarget r a = nextFunctionOf a :=
  if_neg h

theorem scanTarget_of_absent {a : FnAddr} (h : fnOf a = 0) : scanTarget .absent a = nextDeviceOf a :=
  if_pos h

theorem scanTarget_of_multifunction {a : FnAddr} {d : DiscoveredDevice} (hd : d.multifunction = true) :
    scanTarget (.present d) a = nextFunctionOf a := by
  simp [scanTarget, hd]

theorem scanTarget_of_single {a : FnAddr} (h : fnOf a = 0) {d : DiscoveredDevice} (hd : d.multifunction = false) :
    scanTarget (.present d) a = nextDeviceOf a := by
  simp [scanTarget, h, hd]

theorem scanMf_of_other {s : State} (h : fnOf s.scan ≠ 0) (r : DecodeResult) : scanMf r s = s.mf :=
  if_neg h

theorem scanMf_of_absent {s : State} (h : fnOf s.scan = 0) : scanMf .absent s = false :=
  if_pos h

theorem scanMf_of_present {s : State} (h : fnOf s.scan = 0) (d : DiscoveredDevice) :
    scanMf (.present d) s = d.multifunction :=
  if_pos h

/-- A decode that has read an absent function is over, with the result `Absent` (41_decoder.md R184). -/
theorem closes_absent {s : State} (hv : s.rawv.getLsbD 0 = true) (hvendor : s.raw[0].extractLsb' 0 16 = 0xFFFF#16) :
    s.nextKey = none ∧ decodeOutcome s = .ok .absent := by
  have habsent := (presentOf_eq_false_iff _).mpr hvendor
  refine ⟨nextKey_of_absent hv habsent, ?_⟩
  have hp : s.present? = some false := by rw [present_of_raw hv, habsent]
  simp only [decodeOutcome, hp]

/-- A decode that has read a present function whole is over, with the record of its latches (41_decoder.md R185). -/
theorem closes_present {s : State} (hvendor : s.raw[0].extractLsb' 0 16 ≠ 0xFFFF#16)
    (hall : ∀ k ∈ loadOrder (codeOf s.raw[3]), s.valid k = true) :
    s.nextKey = none ∧
      decodeOutcome s = .ok (.present (assemble s.tgt s.raw (codeOf s.raw[3]) (s.raw[3].getLsbD 23))) := by
  have hp : s.present? = some true := by
    rw [present_of_raw (hall 0 (by simp [loadOrder])), (presentOf_eq_true_iff _).mpr hvendor]
  have hcommon : s.firstUnloaded [1, 2, 3] = none :=
    firstUnloaded_eq_none.mpr fun k hk => hall k (List.mem_append_left _ (List.mem_cons_of_mem _ hk))
  have hgroup : s.firstUnloaded (groupLoads (codeOf s.raw[3])) = none :=
    firstUnloaded_eq_none.mpr fun k hk => hall k (List.mem_append_right _ hk)
  have hrecord := assembleLatched_of_loaded (firstUnloaded_eq_none.mpr hall)
  refine ⟨by simp only [State.nextKey, hp, hcommon, hgroup, Option.map_none], ?_⟩
  simp only [decodeOutcome, hp, hrecord]
  rfl

/-- The sequencer's scheduled turn, where the decode of a scan is over. -/
theorem step_closes_scan {s : State} {ts : List Turn} {r : DecodeResult} (hturns : s.turns = .sequencer :: ts)
    (hseq : s.seq = .enumerating) (hover : s.nextKey = none ∧ decodeOutcome s = .ok r) :
    step s = .next (advanceTo (scanTarget r s.scan)
      { s with turns := ts, mf := scanMf r s, recOut := emitted r ++ s.recOut }) := by
  obtain ⟨hkey, hout⟩ := hover
  have hclose : conclude { s with turns := ts } = .next (scanStep r { s with turns := ts }) :=
    conclude_of_enumerating (s := { s with turns := ts }) hseq hout
  rw [step_scheduled hturns, takeTurn,
    sequencerTurn_of_closing (s := { s with turns := ts }) (by simp [hseq]) hkey, hclose, scanStep_eq]
  rfl

/-- Settles O40: an absent function 0 advances to the next device. -/
theorem functionZeroAbsentSkipsTheDevice : Obligations.FunctionZeroAbsentSkipsTheDevice := by
  unfold Obligations.FunctionZeroAbsentSkipsTheDevice
  intro s ts hturns hseq hfn hv hvendor hlast
  rw [step_closes_scan hturns hseq (closes_absent hv hvendor), scanTarget_of_absent hfn, scanMf_of_absent hfn,
    advanceTo_nextDeviceOf hfn hlast]
  rfl

/-- Settles O41: a present function 0 advances by its multifunction bit. -/
theorem functionZeroPresentIsEmitted : Obligations.FunctionZeroPresentIsEmitted := by
  unfold Obligations.FunctionZeroPresentIsEmitted
  intro s ts hturns hseq hfn hvendor hall mf record
  have hstep := step_closes_scan hturns hseq (closes_present hvendor hall)
  rw [scanMf_of_present hfn] at hstep
  refine ⟨fun hmf => ?_, fun hmf hlast => ?_⟩
  · have hne : s.scan ≠ 0xFFFF#16 := by
      rintro h
      rw [h] at hfn
      exact absurd hfn (by decide)
    rw [hstep, scanTarget_of_multifunction hmf, advanceTo_nextFunctionOf hne, ← hmf]
    rfl
  · rw [hstep, scanTarget_of_single hfn hmf, advanceTo_nextDeviceOf hfn hlast, ← hmf]
    rfl

/-- Settles O42: an absent function 1 to 7 advances to the next function, whose carry ends the scan. -/
theorem otherFunctionAbsentIsExcluded : Obligations.OtherFunctionAbsentIsExcluded := by
  unfold Obligations.OtherFunctionAbsentIsExcluded
  intro s ts hturns hseq hfn hv hvendor
  rw [step_closes_scan hturns hseq (closes_absent hv hvendor), scanTarget_of_other hfn, scanMf_of_other hfn]
  refine ⟨fun hlast => ?_, fun hlast => ?_⟩
  · rw [advanceTo_nextFunctionOf hlast]
    rfl
  · rw [hlast, advanceTo_of_carry (by decide)]
    rfl

/-- Settles O43: a present function 1 to 7 advances to the next function with `MF` as it is. -/
theorem otherFunctionPresentIsEmitted : Obligations.OtherFunctionPresentIsEmitted := by
  unfold Obligations.OtherFunctionPresentIsEmitted
  intro s ts hturns hseq hfn hvendor hall hlast
  rw [step_closes_scan hturns hseq (closes_present hvendor hall), scanTarget_of_other hfn, scanMf_of_other hfn,
    advanceTo_nextFunctionOf hlast]
  rfl

/-- Settles O44: at the last device either advance carries, and the carry ends the scan. -/
theorem scanEndsAtTheLastDevice : Obligations.ScanEndsAtTheLastDevice := by
  unfold Obligations.ScanEndsAtTheLastDevice
  intro s ts hturns hseq
  have hzero : s.scan = 0xFFF8#16 → fnOf s.scan = 0 := fun h => by rw [h]; decide
  have hother : s.scan = 0xFFFF#16 → fnOf s.scan ≠ 0 := fun h => by rw [h]; decide
  have hdevice (h : s.scan = 0xFFF8#16) : (nextDeviceOf s.scan).getLsbD 16 = true := by rw [h]; decide
  have hfunction (h : s.scan = 0xFFFF#16) : (nextFunctionOf s.scan).getLsbD 16 = true := by rw [h]; decide
  refine ⟨fun h hv hvendor => ?_, fun h hv hvendor => ?_, fun hvendor hall => ?_⟩
  · rw [step_closes_scan hturns hseq (closes_absent hv hvendor), scanTarget_of_absent (hzero h),
      scanMf_of_absent (hzero h), advanceTo_of_carry (hdevice h)]
    rfl
  · rw [step_closes_scan hturns hseq (closes_absent hv hvendor), scanTarget_of_other (hother h),
      scanMf_of_other (hother h), advanceTo_of_carry (hfunction h)]
    rfl
  · have hstep := step_closes_scan hturns hseq (closes_present hvendor hall)
    refine ⟨fun h hmf => ?_, fun h => ?_⟩
    · rw [hstep, scanTarget_of_single (hzero h) hmf, scanMf_of_present (hzero h), advanceTo_of_carry (hdevice h), ← hmf]
      rfl
    · rw [hstep, scanTarget_of_other (hother h), scanMf_of_other (hother h), advanceTo_of_carry (hfunction h)]
      rfl

/-! ### Where the scan goes on, and what it has emitted -/

/-- The scan goes to the next function, from function 0 only behind a multifunction record; otherwise it is at a function 0 and
goes to the next device. -/
theorem scanTarget_cases (r : DecodeResult) (a : FnAddr) :
    (scanTarget r a = nextFunctionOf a ∧ (fnOf a = 0 → ∃ d, r = .present d ∧ d.multifunction = true)) ∨
      (scanTarget r a = nextDeviceOf a ∧ fnOf a = 0 ∧ ∀ d, r = .present d → d.multifunction = false) := by
  by_cases hfn : fnOf a = 0
  · cases r with
    | absent => exact .inr ⟨scanTarget_of_absent hfn, hfn, nofun⟩
    | present d =>
      cases hd : d.multifunction with
      | true => exact .inl ⟨scanTarget_of_multifunction hd, fun _ => ⟨d, rfl, hd⟩⟩
      | false => exact .inr ⟨scanTarget_of_single hfn hd, hfn, fun d' h => by cases h; exact hd⟩
  · exact .inl ⟨scanTarget_of_other hfn r, fun h => absurd h hfn⟩

theorem lt_scanTarget (r : DecodeResult) (a : FnAddr) : a.toNat < (scanTarget r a).toNat := by
  rcases scanTarget_cases r a with ⟨h, -⟩ | ⟨h, -, -⟩
  · rw [h, nextFunctionOf_toNat]
    omega
  · rw [h, nextDeviceOf_toNat]
    omega

/-- A scan comes to a function 1 to 7 from the function before it, in the same device. -/
theorem functionZeroOf_scanTarget {r : DecodeResult} {a b : FnAddr} (hb : b.toNat = (scanTarget r a).toNat)
    (hfn : fnOf b ≠ 0) :
    functionZeroOf b = functionZeroOf a ∧ (fnOf a = 0 → ∃ d, r = .present d ∧ d.multifunction = true) := by
  rw [Ne, fnOf_eq_zero_iff] at hfn
  rcases scanTarget_cases r a with ⟨h, hd⟩ | ⟨h, -, -⟩
  · rw [h, nextFunctionOf_toNat] at hb
    exact ⟨functionZeroOf_congr (by omega), hd⟩
  · rw [h, nextDeviceOf_toNat] at hb
    omega

@[simp] theorem passAddrs_emitted_absent (out : List RecEvent) : passAddrs (emitted .absent ++ out) = passAddrs out := rfl

@[simp] theorem passAddrs_emitted_present (d : DiscoveredDevice) (out : List RecEvent) :
    passAddrs (emitted (.present d) ++ out) = d.address :: passAddrs out := rfl

/-- An advance emits no record: at most it reports done. -/
@[simp] theorem passAddrs_advanceTo (target : BitVec 17) (s : State) :
    passAddrs (advanceTo target s).recOut = passAddrs s.recOut := by
  unfold advanceTo
  split <;> rfl

@[simp] theorem advanceTo_reactions (target : BitVec 17) (s : State) : (advanceTo target s).reactions = s.reactions := by
  unfold advanceTo
  split <;> rfl

@[simp] theorem advanceTo_mem (target : BitVec 17) (s : State) : (advanceTo target s).mem = s.mem := by
  unfold advanceTo
  split <;> rfl

@[simp] theorem advanceTo_background (target : BitVec 17) (s : State) :
    (advanceTo target s).background = s.background := by
  unfold advanceTo
  split <;> rfl

/-! ### The order of a pass -/

/-- The order of a pass speaks of these four fields only, and of REC only through the addresses of the pass. -/
theorem State.ScanOrdered.congr {s t : State} (h : s.ScanOrdered) (hseq : t.seq = s.seq) (htgt : t.tgt = s.tgt)
    (hscan : t.scan = s.scan) (hrec : t.recOut = s.recOut) : t.ScanOrdered where
  ascending := by rw [hrec]; exact h.ascending
  functionZero := by rw [hrec]; exact h.functionZero
  below := by rw [hseq, htgt, hscan, hrec]; exact h.below

/-- Outside a scan the order is about the records alone. -/
theorem State.ScanOrdered.of_notScanning {s t : State} (h : s.ScanOrdered) (hseq : t.seq ≠ .enumerating)
    (hpass : passAddrs t.recOut = passAddrs s.recOut) : t.ScanOrdered where
  ascending := by rw [hpass]; exact h.ascending
  functionZero := by rw [hpass]; exact h.functionZero
  below := fun hq => absurd hq hseq

theorem State.ScanOrdered.blockReset {s : State} (h : s.ScanOrdered) : s.blockReset.ScanOrdered :=
  h.of_notScanning nofun rfl

theorem State.ScanOrdered.outside {s t : State} (h : s.ScanOrdered) (ht : OutsideOnly s t) : t.ScanOrdered :=
  h.congr ht.seq ht.tgt ht.scan ht.recOut

/-- The inside of a pair. -/
theorem State.ScanOrdered.insidePair {s u : State} {w : Word} (h : s.ScanOrdered)
    (hu : OutsideOnly (openPair w s).nextMids u) : u.ScanOrdered :=
  State.ScanOrdered.outside (s := (openPair w s).nextMids) (h.congr rfl rfl rfl rfl) hu

/-- A pass that begins has no record yet. -/
theorem scanOrdered_of_enum (s : State) :
    (((((s.setSeq .enumerating).setScan 0).setMf false).bindTarget 0).report .began).ScanOrdered where
  ascending := .nil
  functionZero := nofun
  below := fun _ => ⟨rfl, nofun, fun h => absurd rfl h⟩

/-- An advance keeps the order where it goes above every record, and to a function 1 to 7 only behind function 0's. -/
theorem advanceTo_scanOrdered {target : BitVec 17} {s : State}
    (hascending : (passAddrs s.recOut).Pairwise (fun newer older => older.toNat < newer.toNat))
    (hzero : ∀ a ∈ passAddrs s.recOut, functionZeroOf a ∈ passAddrs s.recOut)
    (hbelow : ∀ a ∈ passAddrs s.recOut, a.toNat < target.toNat)
    (hprobed : ∀ b : FnAddr, b.toNat = target.toNat → fnOf b ≠ 0 → functionZeroOf b ∈ passAddrs s.recOut) :
    (advanceTo target s).ScanOrdered := by
  refine ⟨by simpa using hascending, by simpa using hzero, ?_⟩
  rw [passAddrs_advanceTo]
  cases hcarry : target.getLsbD 16 with
  | true =>
    rw [advanceTo_of_carry hcarry]
    exact nofun
  | false =>
    have hnat := setWidth_toNat_of_noCarry hcarry
    rw [advanceTo_of_noCarry hcarry]
    refine fun _ => ⟨rfl, fun a ha => ?_, hprobed _ hnat⟩
    show a.toNat < (target.setWidth 16).toNat
    rw [hnat]
    exact hbelow a ha

/-- The record of a finished decode is of the function it was bound to. -/
theorem address_of_decodeOutcome {s : State} {d : DiscoveredDevice} (h : decodeOutcome s = .ok (.present d)) :
    d.address = s.tgt := by
  unfold decodeOutcome at h
  split at h
  · cases h
  · cases h
  · cases hfirst : s.firstUnloaded (loadOrder (codeOf s.raw[3])) with
    | none =>
      rw [assembleLatched_of_loaded hfirst] at h
      cases h
      rfl
    | some k =>
      rw [assembleLatched_of_unloaded hfirst] at h
      cases h

/-- The step of a scan emits above every record of the pass, and behind function 0's. -/
theorem scanStep_scanOrdered {r : DecodeResult} {s : State} (hs : s.ScanOrdered) (hseq : s.seq = .enumerating)
    (hr : decodeOutcome s = .ok r) : (scanStep r s).ScanOrdered := by
  obtain ⟨htgt, hbelow, hprobed⟩ := hs.below hseq
  have hlt := lt_scanTarget r s.scan
  rw [scanStep_eq]
  cases r with
  | absent =>
    refine advanceTo_scanOrdered hs.ascending hs.functionZero (fun a ha => (hbelow a ha).trans hlt) fun b hb hfn => ?_
    obtain ⟨hsame, hd⟩ := functionZeroOf_scanTarget hb hfn
    exact hsame ▸ hprobed fun h0 => nomatch hd h0
  | present d =>
    have haddr : d.address = s.scan := (address_of_decodeOutcome hr).trans htgt
    have hzero : functionZeroOf s.scan ∈ s.scan :: passAddrs s.recOut := by
      by_cases hfn : fnOf s.scan = 0
      · rw [functionZeroOf_of_fnOf_eq_zero hfn]
        exact List.mem_cons_self
      · exact List.mem_cons_of_mem _ (hprobed hfn)
    apply advanceTo_scanOrdered <;> rw [passAddrs_emitted_present, haddr]
    · exact List.pairwise_cons.mpr ⟨hbelow, hs.ascending⟩
    · exact List.forall_mem_cons.mpr ⟨hzero, fun a ha => List.mem_cons_of_mem _ (hs.functionZero a ha)⟩
    · exact List.forall_mem_cons.mpr ⟨hlt, fun a ha => (hbelow a ha).trans hlt⟩
    · intro b hb hfn
      rw [(functionZeroOf_scanTarget hb hfn).1]
      exact hzero

theorem CommandCase.scanOrdered {s t : State} (h : CommandCase s t) (hs : s.ScanOrdered) : t.ScanOrdered := by
  cases h with
  | held h => exact h ▸ hs
  | accessed b d f r u op cs resp hu h => exact h ▸ (hs.insidePair hu).congr rfl rfl rfl rfl
  | abandoned b d f r u hu h => exact h ▸ (hs.insidePair hu).blockReset
  | decodes a hseq h => exact h ▸ hs.of_notScanning nofun rfl
  | scans hseq h => exact h ▸ scanOrdered_of_enum s

theorem load_scanOrdered {o : BitVec 8} {k : Fin 16} {s t : State} (hs : s.ScanOrdered) (h : load o k s = .next t) :
    t.ScanOrdered := by
  rcases load_next h with ⟨-, rfl⟩ | ⟨-, u, hu, rfl | rfl⟩
  · exact hs
  · exact (hs.insidePair hu).congr rfl rfl rfl rfl
  · exact (hs.insidePair hu).blockReset

theorem conclude_scanOrdered {s t : State} (hs : s.ScanOrdered) (hseq : s.seq ≠ .idle) (h : conclude s = .next t) :
    t.ScanOrdered := by
  obtain ⟨r, hr, ⟨-, rfl⟩ | ⟨hq, rfl⟩⟩ := conclude_cases hseq h
  · exact hs.of_notScanning nofun rfl
  · exact scanStep_scanOrdered hs hq hr

theorem TurnCase.scanOrdered {s t : State} (h : TurnCase s t) (hs : s.ScanOrdered) : t.ScanOrdered := by
  cases h with
  | waits h => exact h ▸ hs
  | outside h => exact hs.outside h
  | wasReset h => exact h ▸ hs.blockReset
  | load row k hrow hseq hlock hkey hdec h => exact load_scanOrdered hs h
  | closes hseq hkey h => exact conclude_scanOrdered hs hseq h
  | command n i rest hdec hacc h => exact (command_cases hdec h).scanOrdered (hs.congr rfl rfl rfl rfl)

/-- Settles O50: every case of a turn keeps the order; a record is emitted only by the step of a scan, above all before it. -/
theorem stepKeepsThePassOrdered : Obligations.StepKeepsThePassOrdered := by
  unfold Obligations.StepKeepsThePassOrdered
  intro s t hs h
  rcases step_cases h with rfl | ⟨s0, rfl | rfl | rfl, ht⟩
  · exact hs
  · exact ht.scanOrdered hs
  · exact ht.scanOrdered (hs.congr rfl rfl rfl rfl)
  · exact ht.scanOrdered (hs.congr rfl rfl rfl rfl)

/-- Settles O51: nothing has passed on REC and no scan runs. -/
theorem resetMeetsThePassOrder : Obligations.ResetMeetsThePassOrder := by
  unfold Obligations.ResetMeetsThePassOrder
  exact ⟨.nil, nofun, nofun⟩

/-! ### The scan as a whole -/

/-- Nobody but the sequencer acts, and the decode of the function the scan is at is about to begin. -/
structure State.AtFunction (s : State) : Prop where
  alone : s.Alone
  seq : s.seq = .enumerating
  tgt : s.tgt = s.scan
  rawv : s.rawv = 0

/-- A scan has ended (42_enumerator.md R197). -/
structure State.ScanDone (s : State) : Prop where
  seq : s.seq = .idle
  scan : s.scan = 0
  lock : s.lock = false
  done : s.recOut.head? = some .done

/-- `u` comes from `s` by all loads of the decode of the function the scan is at. -/
def DecodeRead (s u : State) : Prop := LoadsDone s u (loadsOf u.raw).length

/-- One decode of a scan: at most 16 loads, then the scan's step on what they found. -/
theorem decode_runs {s : State} (h : s.AtFunction) :
    ∃ u, DecodeRead s u ∧ ∃ n ≤ 17, Host.Core.run Sys2Proof.core n s = .next (scanStep (resultOf s.scan u.raw) u) := by
  obtain ⟨u, hu, htake⟩ := loads_complete h.alone (by simp [h.seq]) h.rawv
  have hseq : u.seq = .enumerating := hu.seq.trans h.seq
  have hrawv : u.rawv = loadedMask (loadsOf u.raw) := by rw [hu.rawv, ← htake]
  have hclose : step u = .next (scanStep (resultOf s.scan u.raw) u) := by
    rw [step_closing hu.alone (by simp [hseq]) hrawv, hseq, hu.tgt, h.tgt]
  have hlen : (loadsOf u.raw).length ≤ 16 := hu.bound.trans (loadOrder_length _).2
  exact ⟨u, hu, (loadsOf u.raw).length + 1, by omega, (run_add _ 1 hu.steps).trans (run_succ 0 u hclose)⟩

/-- Short of a carry the scan is then at the next function it visits. -/
theorem scanStep_atFunction {r : DecodeResult} {s : State} (ha : s.Alone) (hseq : s.seq = .enumerating)
    (h : (scanTarget r s.scan).toNat < 65536) :
    (scanStep r s).AtFunction ∧ (scanStep r s).scan.toNat = (scanTarget r s.scan).toNat := by
  have hcarry : (scanTarget r s.scan).getLsbD 16 = false := by
    rw [Bool.eq_false_iff, Ne, carry_iff]
    omega
  rw [scanStep_eq, advanceTo_of_noCarry hcarry]
  exact ⟨⟨ha.congr rfl rfl rfl rfl, hseq, rfl, rfl⟩, setWidth_toNat_of_noCarry hcarry⟩

/-- With a carry it has ended. -/
theorem scanStep_scanDone {r : DecodeResult} {s : State} (ha : s.Alone) (h : 65536 ≤ (scanTarget r s.scan).toNat) :
    (scanStep r s).ScanDone := by
  rw [scanStep_eq, advanceTo_of_carry ((carry_iff _).mpr h)]
  exact ⟨rfl, rfl, ha.lock, rfl⟩

/-- Induction over a scan: what holds of "the scan has dealt with the functions below `q`" at the function a scan is at, and is
carried over each decode, holds at its end with every function dealt with. A decode for each function left is enough. -/
theorem scan_induction {P : Nat → State → Prop}
    (hstep : ∀ s u, s.AtFunction → DecodeRead s u → P s.scan.toNat s →
      P (scanTarget (resultOf s.scan u.raw) s.scan).toNat (scanStep (resultOf s.scan u.raw) u))
    (m : Nat) {s : State} (hs : s.AtFunction) (hm : 65536 - s.scan.toNat ≤ m) (hP : P s.scan.toNat s) :
    ∃ n ≤ m * 17, ∃ u q, Host.Core.run Sys2Proof.core n s = .next u ∧ u.ScanDone ∧ 65536 ≤ q ∧ P q u := by
  induction m generalizing s with
  | zero =>
    have := s.scan.isLt
    omega
  | succ m ih =>
    obtain ⟨u, hu, n, hn, hrun⟩ := decode_runs hs
    have hP' := hstep s u hs hu hP
    have hscan : u.scan = s.scan := hu.scan
    by_cases hlast : 65536 ≤ (scanTarget (resultOf s.scan u.raw) s.scan).toNat
    · exact ⟨n, by omega, _, _, hrun, scanStep_scanDone hu.alone (hscan ▸ hlast), hlast, hP'⟩
    · have hlt := lt_scanTarget (resultOf s.scan u.raw) s.scan
      obtain ⟨hat, hnat⟩ := scanStep_atFunction (r := resultOf s.scan u.raw) hu.alone (hu.seq.trans hs.seq)
        (by rw [hscan]; omega)
      rw [hscan] at hnat
      obtain ⟨n', hn', t, q, hrun', hdone⟩ := ih hat (by omega) (hnat ▸ hP')
      exact ⟨n + n', by omega, t, q, (run_add n n' hrun).trans hrun', hdone⟩

/-- An accepted `ENUM` is at function 0:0.0. -/
theorem atFunction_of_enum {s : State} (h : s.Alone) :
    (((((s.setSeq .enumerating).setScan 0).setMf false).bindTarget 0).report .began).AtFunction :=
  ⟨h.congr rfl rfl rfl rfl, rfl, rfl, rfl⟩

/-- Settles O46: each decode of the scan advances it, and there are 65,536 functions. -/
theorem enumAloneRunsToDone : Obligations.EnumAloneRunsToDone := by
  unfold Obligations.EnumAloneRunsToDone
  intro s hs hidle
  obtain ⟨n, hn, u, -, hrun, hdone, -⟩ :=
    scan_induction (P := fun _ _ => True) (fun _ _ _ _ _ => trivial) 65536 (atFunction_of_enum hs) (by omega) trivial
  exact ⟨_, exec_enum_of_idle hidle, n, hn, u, hrun, hdone.seq, hdone.scan, hdone.lock, hdone.done⟩

/-! ### What a scan finds -/

/-- A run keeps the order of a pass. -/
theorem run_scanOrdered {n : Nat} {s t : State} (hs : s.ScanOrdered)
    (h : Host.Core.run Sys2Proof.core n s = .next t) : t.ScanOrdered := by
  induction n generalizing s with
  | zero =>
    cases h
    exact hs
  | succ n ih =>
    simp only [Host.Core.run] at h
    split at h
    · exact ih (stepKeepsThePassOrdered _ _ hs ‹_›) h
    · cases h
    · cases h

/-- `r` says of function `a` what the environment of `s` answers for it. -/
inductive Answered (s : State) (a : FnAddr) : DecodeResult → Prop
  | absent (habsent : s.answersPresent 0 a = false) : Answered s a .absent
  | present (d : DiscoveredDevice) (haddr : d.address = a) (hpresent : s.answersPresent 0 a = true)
      (hmf : d.multifunction = s.answersMultifunction 0 a) : Answered s a (.present d)

/-- A function 0 that is present and multifunction, so that a scan visits the other functions of its device. -/
def State.multifunctionDevice (s : State) (a : FnAddr) : Prop :=
  s.answersPresent 0 (functionZeroOf a) = true ∧ s.answersMultifunction 0 (functionZeroOf a) = true

theorem discoverable_iff (s : State) (a : FnAddr) :
    s.discoverable a ↔ s.answersPresent 0 a = true ∧ (fnOf a = 0 ∨ s.multifunctionDevice a) := Iff.rfl

/-- With no device reacting and steady answers, the result of a decode is what the environment answers at draw 0. -/
theorem answered_of_decodeRead {s v u : State} (hsteady : s.steadyAnswers) (hmem : v.mem = s.mem)
    (hbg : v.background = s.background) (hquiet : v.reactions = []) (hu : DecodeRead v u) :
    Answered s v.tgt (resultOf v.tgt u.raw) := by
  have hlen : 1 ≤ (loadsOf u.raw).length := by
    unfold loadsOf
    split <;> simp [loadOrder]
  have hpresent : presentOf u.raw[0] = s.answersPresent v.draws v.tgt := by
    rw [hu.identifier hquiet hlen, hmem, hbg]
    rfl
  rw [(hsteady v.draws 0 v.tgt).1] at hpresent
  cases hp : s.answersPresent 0 v.tgt with
  | false =>
    rw [hp] at hpresent
    rw [resultOf, hpresent]
    exact .absent hp
  | true =>
    rw [hp] at hpresent
    have hlen4 : 4 ≤ (loadsOf u.raw).length := by
      rw [loadsOf_of_present hpresent]
      exact (loadOrder_length _).1
    have hmf : mfRecOf u.raw[3] = s.answersMultifunction (v.draws + 3) v.tgt := by
      rw [hu.headerType hquiet hlen4, hmem, hbg]
      rfl
    rw [← (hsteady 0 (v.draws + 3) v.tgt).2 hp] at hmf
    rw [resultOf, hpresent]
    exact .present _ rfl hp hmf

/-- Between a function and the one the scan goes to, nothing is to be found. -/
theorem not_discoverable_of_skipped {s : State} {p a : FnAddr} {r : DecodeResult} (hr : Answered s p r)
    (hp : p.toNat < a.toNat) (ha : a.toNat < (scanTarget r p).toNat) : ¬ s.discoverable a := by
  rcases scanTarget_cases r p with ⟨htarget, -⟩ | ⟨htarget, hfn, hsingle⟩
  · rw [htarget, nextFunctionOf_toNat] at ha
    omega
  · rw [htarget, nextDeviceOf_toNat] at ha
    have hzero : functionZeroOf a = p :=
      (functionZeroOf_congr (by omega)).trans (functionZeroOf_of_fnOf_eq_zero hfn)
    have hother : fnOf a ≠ 0 := by
      rw [fnOf_eq_zero_iff] at hfn
      rw [Ne, fnOf_eq_zero_iff]
      omega
    rw [discoverable_iff, State.multifunctionDevice, hzero]
    rintro ⟨-, h | ⟨hpresent, hmf⟩⟩
    · exact hother h
    · cases hr with
      | absent habsent => simp [habsent] at hpresent
      | present d _ _ hd => simp [hsingle d rfl, hmf] at hd

/-- The records of the pass in `t` are those of the discoverable functions of `s` below `q`, and the scan comes to a function 1
to 7 only in a device whose function 0 is present and multifunction; no device has reacted. -/
structure PassFound (s : State) (q : Nat) (t : State) : Prop where
  quiet : t.reactions = []
  mem : t.mem = s.mem
  background : t.background = s.background
  found : ∀ a, a ∈ passAddrs t.recOut ↔ a.toNat < q ∧ s.discoverable a
  probed : ∀ a : FnAddr, a.toNat = q → fnOf a ≠ 0 → s.multifunctionDevice a

/-- The step of a scan adds the function it is at exactly when it is discoverable, and skips none that is. -/
theorem found_emitted {s : State} {p : FnAddr} {r : DecodeResult} {out : List RecEvent} (hr : Answered s p r)
    (hprobed : fnOf p ≠ 0 → s.multifunctionDevice p)
    (hfound : ∀ a, a ∈ passAddrs out ↔ a.toNat < p.toNat ∧ s.discoverable a) (a : FnAddr) :
    a ∈ passAddrs (emitted r ++ out) ↔ a.toNat < (scanTarget r p).toNat ∧ s.discoverable a := by
  have hlt := lt_scanTarget r p
  have hself : s.discoverable p ↔ s.answersPresent 0 p = true :=
    and_iff_left (or_iff_not_imp_left.mpr hprobed)
  have hemit : a ∈ passAddrs (emitted r ++ out) ↔ (a = p ∧ s.discoverable p) ∨ a ∈ passAddrs out := by
    rw [hself]
    cases hr with
    | absent habsent => simp [habsent]
    | present d haddr hpresent _ => simp [haddr, hpresent]
  rw [hemit, hfound]
  rcases lt_trichotomy a.toNat p.toNat with h | h | h
  · have hne : a ≠ p := fun e => by simp [e] at h
    simp [hne, h, h.trans hlt]
  · obtain rfl := BitVec.eq_of_toNat_eq h
    simp [hlt]
  · have hne : a ≠ p := fun e => by simp [e] at h
    have hskip := not_discoverable_of_skipped hr h
    simp only [hne, false_and, false_or, Nat.not_lt.mpr h.le]
    exact ⟨False.elim, fun ⟨ha, hd⟩ => hskip ha hd⟩

/-- The scan goes to a function 1 to 7 only where function 0 answered present and multifunction. -/
theorem probed_scanTarget {s : State} {p b : FnAddr} {r : DecodeResult} (hr : Answered s p r)
    (hprobed : fnOf p ≠ 0 → s.multifunctionDevice p) (hb : b.toNat = (scanTarget r p).toNat) (hfn : fnOf b ≠ 0) :
    s.multifunctionDevice b := by
  obtain ⟨hsame, hmulti⟩ := functionZeroOf_scanTarget hb hfn
  rw [State.multifunctionDevice, hsame]
  by_cases hp : fnOf p = 0
  · obtain ⟨d, rfl, hd⟩ := hmulti hp
    cases hr with
    | present _ _ hpresent hmf =>
      rw [functionZeroOf_of_fnOf_eq_zero hp]
      exact ⟨hpresent, hmf ▸ hd⟩
  · exact hprobed hp

/-- A pass that begins has found nothing, and is at a function 0. -/
theorem passFound_of_enum {s : State} (h : s.reactions = []) :
    PassFound s 0 (((((s.setSeq .enumerating).setScan 0).setMf false).bindTarget 0).report .began) where
  quiet := h
  mem := rfl
  background := rfl
  found := fun a => by simp [passAddrs]
  probed := fun a ha hfn => absurd ((fnOf_eq_zero_iff a).mpr (by rw [ha])) hfn

/-- Every decode of a scan carries what the pass has found on to the function it goes to. -/
theorem PassFound.scanStep {s v u : State} (hsteady : s.steadyAnswers) (hv : v.AtFunction) (hu : DecodeRead v u)
    (h : PassFound s v.scan.toNat v) :
    PassFound s (scanTarget (resultOf v.scan u.raw) v.scan).toNat (scanStep (resultOf v.scan u.raw) u) := by
  obtain ⟨hquiet, hmem⟩ := hu.quiet h.quiet
  have hr := answered_of_decodeRead hsteady h.mem h.background h.quiet hu
  rw [hv.tgt] at hr
  have hprobed := h.probed v.scan rfl
  rw [scanStep_eq, hu.scan]
  refine ⟨by simpa using hquiet, by simpa using hmem.trans h.mem, by simpa using hu.background.trans h.background, ?_, ?_⟩
  · rw [passAddrs_advanceTo, hu.recOut]
    exact found_emitted hr hprobed h.found
  · exact fun b hb hfn => probed_scanTarget hr hprobed hb hfn

/-- Settles O47: the scan ends with every function dealt with, and its records stand in the order every step keeps. -/
theorem enumAloneFindsExactlyTheDiscoverable : Obligations.EnumAloneFindsExactlyTheDiscoverable := by
  unfold Obligations.EnumAloneFindsExactlyTheDiscoverable
  intro s hs hidle hquiet hsteady
  obtain ⟨n, -, u, q, hrun, hdone, hq, hfound⟩ :=
    scan_induction (fun _ _ => PassFound.scanStep hsteady) 65536 (atFunction_of_enum hs) (by omega)
      (passFound_of_enum hquiet)
  refine ⟨_, exec_enum_of_idle hidle, n, u, hrun, hdone.seq, hdone.done,
    (run_scanOrdered (scanOrdered_of_enum s) hrun).ascending, fun a => ?_⟩
  rw [hfound.found a]
  exact and_iff_right (a.isLt.trans_le hq)

end Sys2Proof.Machine

/-! The exceptions family (60_exceptions.md): where nothing outside the block disturbs a pair the pair completes, every key the
sequencer forms has a row, and a decode with no next load has a result, so neither the sequencer nor a caller stops the machine. -/

namespace Sys2Proof.Machine

/-! ### The operations of one pair -/

/-- An operation of one pair answers where its pair completes; where its requester is held, too. -/
theorem withPair_answers {α : Type} {pair : State → PairResult α} {v : α} {s u : State} (h : pair s = .completed v u)
    (finish : α → State → State) : ∃ t, withPair pair finish s = .next t := by
  unfold withPair
  by_cases hlock : s.lock = true
  · exact ⟨s, if_pos hlock⟩
  · exact ⟨finish v u, by rw [if_neg hlock, h]⟩

theorem load_answers {s : State} (hm : s.mids.headD [] = []) (o : BitVec 8) (k : Fin 16) : ∃ t, load o k s = .next t :=
  withPair_answers (readPair_undisturbed hm _ _ _ _) _

/-- An undisturbed command answers: an access by its pair, `DECODE` and `ENUM` in any phase. -/
theorem command_answers {ws rest : List Word} {i : Instr} {s : State} (hdec : decodeCmd ws = .ok (i, rest))
    (hm : s.mids.headD [] = []) : ∃ t, exec i s = .next t := by
  rcases decodeCmd_ok hdec with ⟨b, d, f, r, rfl⟩ | ⟨b, d, f, r, v, rfl⟩ | ⟨b, d, f, rfl⟩ | rfl
  · exact withPair_answers (readPair_undisturbed hm b d f r) _
  · exact withPair_answers (writePair_undisturbed hm b d f r v) _
  · by_cases hseq : s.seq = .idle
    · exact ⟨_, exec_decode_of_idle hseq b d f⟩
    · exact ⟨_, exec_decode_of_busy hseq b d f⟩
  · by_cases hseq : s.seq = .idle
    · exact ⟨_, exec_enum_of_idle hseq⟩
    · exact ⟨_, exec_enum_of_busy hseq⟩

/-! ### The sequencer -/

/-- Every key the sequencer forms has a row, whatever latches are valid (30_encoding.md R101). -/
theorem decodeKey_of_nextKey {s : State} {key : Key} (h : s.nextKey = some key) :
    ∃ row ∈ microOps, decodeKey key = .ok row.op := by
  unfold State.nextKey at h
  split at h
  · cases h
    exact loadKey_decodes_common 0 (by decide)
  · cases h
  · split at h
    · rename_i k hk
      cases h
      exact loadKey_decodes_common k (List.mem_cons_of_mem 0 (List.mem_of_find?_eq_some hk))
    · obtain ⟨k, hk, rfl⟩ := Option.map_eq_some_iff.mp h
      exact loadKey_decodes_group _ k (List.mem_of_find?_eq_some hk)

/-- Whether the function is present is known only once the identifier is loaded (10_state.md R28). -/
theorem valid_zero_of_present {s : State} {present : Bool} (h : s.present? = some present) : s.valid 0 = true := by
  by_contra hinvalid
  simp [State.present?, State.latch?, hinvalid] at h

/-- A decode that is present and has no next load has loaded its whole order. -/
theorem firstUnloaded_loadOrder_of_closing {s : State} (hp : s.present? = some true) (hkey : s.nextKey = none) :
    s.firstUnloaded (loadOrder (codeOf s.raw[3])) = none := by
  have hzero := valid_zero_of_present hp
  simp only [State.nextKey, hp] at hkey
  split at hkey
  · cases hkey
  · rename_i hcommon
    have hgroup := Option.map_eq_none_iff.mp hkey
    rw [firstUnloaded_eq_none] at hcommon hgroup ⊢
    intro k hk
    rcases List.mem_append.mp hk with hk | hk
    · rcases List.mem_cons.mp hk with rfl | hk
      · exact hzero
      · exact hcommon k hk
    · exact hgroup k hk

/-- A decode that has no next load has a result, so the closing step never reads an invalid latch (10_state.md R24). -/
theorem decodeOutcome_of_closing {s : State} (hkey : s.nextKey = none) : ∃ r, decodeOutcome s = .ok r := by
  cases hp : s.present? with
  | none => simp [State.nextKey, hp] at hkey
  | some present =>
    cases present with
    | false => exact ⟨.absent, by simp only [decodeOutcome, hp]⟩
    | true =>
      have hrecord := assembleLatched_of_loaded (firstUnloaded_loadOrder_of_closing hp hkey)
      exact ⟨.present (assemble s.tgt s.raw (codeOf s.raw[3]) (mfRecOf s.raw[3])),
        by simp only [decodeOutcome, hp, hrecord]⟩

/-- The sequencer waits, or closes a decode that has a result, or runs a load. -/
theorem sequencerTurn_answers {s : State} (hm : s.mids.headD [] = []) : ∃ t, sequencerTurn s = .next t := by
  by_cases hidle : s.seq = .idle
  · exact ⟨s, if_pos hidle⟩
  cases hkey : s.nextKey with
  | none =>
    rw [sequencerTurn_of_closing hidle hkey]
    obtain ⟨r, hr⟩ := decodeOutcome_of_closing hkey
    cases hseq : s.seq with
    | idle => exact absurd hseq hidle
    | decoding => exact ⟨_, conclude_of_decoding hseq hr⟩
    | enumerating => exact ⟨_, conclude_of_enumerating hseq hr⟩
  | some key =>
    obtain ⟨row, hrow, hdec⟩ := decodeKey_of_nextKey hkey
    cases hlock : s.lock with
    | false =>
      rw [sequencerTurn_of_decodeKey hidle hlock hkey hdec, exec_microOp hrow]
      exact load_answers hm _ _
    | true =>
      have hheld : accepts row.op s = false := by rw [accepts_microOp hrow, hlock]; rfl
      exact ⟨s, by simp [sequencerTurn, hidle, hkey, hdec, hheld]⟩

/-! ### The callers -/

/-- Words that do not begin with a reserved one are a command, or wait for more words (30_encoding.md R93, R104). -/
theorem decodeCmd_of_not_reserved {ws : List Word} (h : ∀ w rest, ws = w :: rest → ¬ reservedWord w) :
    (∃ i rest, decodeCmd ws = .ok (i, rest)) ∨ decodeCmd ws = .error .noCommand ∨
      decodeCmd ws = .error .missingValue := by
  cases ws with
  | nil => exact .inr (.inl rfl)
  | cons w ws =>
    rcases command_of_not_reservedWord (h w ws rfl) with ⟨b, d, f, r, rfl⟩ | ⟨b, d, f, r, rfl⟩ | ⟨b, d, f, rfl⟩ | rfl
    · exact .inl ⟨_, _, decodeCmd_cfgrd b d f r ws⟩
    · cases ws with
      | nil => exact .inr (.inr (decodeCmd_cfgwr_alone b d f r))
      | cons v ws => exact .inl ⟨_, _, decodeCmd_cfgwr b d f r v ws⟩
    · exact .inl ⟨_, _, decodeCmd_decode b d f ws⟩
    · exact .inl ⟨_, _, decodeCmd_enum ws⟩

/-- A caller waits for more words, or is held, or runs its command. -/
theorem callerTurn_answers {n : Nat} {s : State} (hm : s.mids.headD [] = [])
    (h : ∀ w rest, s.queue n = w :: rest → ¬ reservedWord w) : ∃ t, callerTurn n s = .next t := by
  rcases decodeCmd_of_not_reserved h with ⟨i, rest, hdec⟩ | hdec | hdec
  · cases hacc : accepts i s with
    | true =>
      rw [callerTurn_of_accepts hdec hacc]
      exact command_answers hdec hm
    | false => exact ⟨s, by simp [callerTurn, hdec, hacc]⟩
  · exact ⟨s, by simp only [callerTurn, hdec]⟩
  · exact ⟨s, by simp only [callerTurn, hdec]⟩

/-- Settles O52: the sequencer's turn answers in every state with an undisturbed pair, and a caller's where no reserved word
heads its queue. -/
theorem undisturbedTurnsNeverStop : Obligations.UndisturbedTurnsNeverStop := by
  unfold Obligations.UndisturbedTurnsNeverStop
  exact fun s hm => ⟨sequencerTurn_answers hm, fun n h => callerTurn_answers hm h⟩

end Sys2Proof.Machine

/-! The reset family (70_reset_and_hazards.md): a reset inside a pair, behind whatever else happens there, ends the operation in
the reset of the block as the pair stands then; a reset turn; and the step where no turn is scheduled. -/

namespace Sys2Proof.Machine

/-! ### Reset -/

/-- A pair whose inside reaches the reset input is abandoned there, and what is scheduled behind the reset is dropped. -/
theorem beginPair_reset {s u : State} {w : Word} {before after : List OutsideEvent}
    (hm : s.mids.headD [] = before ++ .reset :: after)
    (hbefore : interlude before (openPair w s).nextMids = .goOn u) : beginPair w s = .wasReset u.blockReset := by
  rw [beginPair, hm, interlude_append hbefore]
  rfl

/-- Settles O20: the operation answers the reset of the block as the pair stands when the reset comes; up to there nothing
passed on IO but the address word and what contexts outside the Accessor issued. -/
theorem resetInsideAPairAbandonsIt : Obligations.ResetInsideAPairAbandonsIt := by
  unfold Obligations.ResetInsideAPairAbandonsIt
  intro s u i w before after hi hlock hm hbefore
  obtain ⟨hreset, -, -⟩ := exec_pairWord hi hlock
  have hexec : exec i s = .next u.blockReset := hreset _ (beginPair_reset hm hbefore)
  have hu : OutsideOnly (openPair w s).nextMids u := interlude_goOn hbefore
  refine ⟨u.blockReset, hexec, rfl, rfl, rfl, rfl, rfl, rfl, rfl, rfl, hu.rspOut, hu.recOut, hu.io, ?_⟩
  rintro rfl
  cases hbefore
  exact ⟨rfl, rfl, rfl⟩

/-- A reset between steps is the reset of the running block (70_reset_and_hazards.md R231). -/
theorem takeTurn_reset (s : State) : takeTurn (.outside .reset) s = .next s.blockReset := rfl

/-- Settles O58: the fields of the block's reset, which keeps the environment, the interfaces and the callers' words. -/
theorem resetTurnAbandonsTheCommand : Obligations.ResetTurnAbandonsTheCommand := by
  unfold Obligations.ResetTurnAbandonsTheCommand
  intro s
  exact ⟨s.blockReset, takeTurn_reset s, by simp⟩

/-! ### The step with nothing scheduled -/

theorem step_of_noneReady {s : State} (hturns : s.turns = []) (hready : readyTurns s = []) : step s = .next s := by
  simp only [step, chooseTurn, hturns, hready]

theorem step_of_oneReady {s : State} {t : Turn} (hturns : s.turns = []) (hready : readyTurns s = [t]) :
    step s = takeTurn t s := by
  simp only [step, chooseTurn, hturns, hready]

/-- No agent is ready where the sequencer is IDLE and no caller presents a word. -/
theorem readyTurns_of_idle {s : State} (hseq : s.seq = .idle) (hcallers : ∀ q ∈ s.callers, q = []) : readyTurns s = [] := by
  have hsequencer : sequencerReady s = false := by simp [sequencerReady, hseq]
  simp [readyTurns, hsequencer, no_caller_ready hcallers]

/-- Settles O56: the list of ready agents is empty, or holds the one agent whose turn the step takes. -/
theorem unscheduledStepsWaitOrServeTheOneReady : Obligations.UnscheduledStepsWaitOrServeTheOneReady := by
  unfold Obligations.UnscheduledStepsWaitOrServeTheOneReady
  intro s hturns
  exact ⟨fun hseq hcallers => step_of_noneReady hturns (readyTurns_of_idle hseq hcallers),
    fun t hready => step_of_oneReady hturns hready⟩

end Sys2Proof.Machine
